-- ==== Sys2Proof/Word.lean ====
section
/-! DEFINITION. The plainest types of the controller: bytes, pin levels, pin identifiers and the direction of a pin. -/

namespace Sys2Proof

/-- One byte of the transfer buffer (`10_state.md` R28). -/
abbrev Byte := BitVec 8

/-- A pin level used as a bit: LOW is 0 and HIGH is 1 (`00_scope.md` R13, `30_encoding.md` R53). -/
abbrev Level := BitVec 1

/-- The level LOW (R13). -/
abbrev low : Level := 0#1

/-- The level HIGH (R13). -/
abbrev high : Level := 1#1

/-- A pin identifier, an "opaque handle" (`20_memory.md` R44).
It is never added, shifted or masked, so it is a plain number; its width `PIN_W` is a parameter of the
configuration and is checked by `Instr.wf` and by the host's register write. -/
abbrev Pin := Nat

/-- The direction of a pin, `IN` or `OUT` (R13, R53). -/
inductive Dir where
  | input
  | output
deriving DecidableEq, Repr

end Sys2Proof
end

