-- ==== Sys2Proof/Config.lean ====
section
/-! DEFINITION. What an instance of the controller fixes before its first command (`00_scope.md` R11), and the free
values: what the environment answers where nothing determines it. -/

namespace Sys2Proof

/-- `DELAY_STRATEGY` (`41_delay_engine.md` R68): calibrated busy spin, or kernel sleep. -/
inductive Strategy where
  | spin
  | sleep
deriving DecidableEq, Repr

/-- The six pin operations of CONSTRUCT (`44_bus_facade.md` R114), by the pin they act on. -/
inductive InitOp where
  | mosiDir
  | csDir
  | csHigh
  | misoDir
  | clkDir
  | clkIdle
deriving DecidableEq, Repr

/-- Which function `spinCount` is (R72): the spec's default formula, or a function of the platform of which only
monotonicity is known. -/
inductive SpinModel where
  | ceilFormula
  | platform
deriving DecidableEq, Repr

/-- The parameters of one instance (R11), and what its pin environment offers (`20_memory.md` R34, R38). -/
structure Config where
  /-- `N_BUS`, the number of bus contexts. -/
  nBus : Nat
  /-- `PIN_W`, the width of a pin identifier in bits. -/
  pinW : Nat
  /-- `BUF_LEN`, the number of bytes of the transfer buffer. -/
  bufLen : Nat
  /-- `DELAY_STRATEGY`. -/
  strategy : Strategy
  /-- `CYCLES_PER_US`. -/
  cyclesPerUs : Nat
  /-- Which `spinCount`. -/
  spinModel : SpinModel
  /-- `READ_PRESETS_MOSI`. -/
  readPresetsMosi : Bool
  /-- `INIT_ORDER`. -/
  initOrder : List InitOp
  /-- Whether the pin environment can answer PINGET (R34). -/
  hasReadLevel : Bool
  /-- The pin identifiers the environment does not have (R38). -/
  absentPins : List Pin
deriving DecidableEq, Repr

/-- The default `INIT_ORDER`, the order of the list in R114. -/
def Config.defaultInitOrder : List InitOp :=
  [.mosiDir, .csDir, .csHigh, .misoDir, .clkDir, .clkIdle]

/-- The configuration `State.reset` carries: the values the spec's test vectors use (`95_test_vectors.md`,
Conventions) and the defaults of R11. DESIGN CHOICE, log 1: the parameters are OPEN, and a statement that
should hold of every instance is made for every `Config`. -/
def Config.standard : Config where
  nBus := 2
  pinW := 8
  bufLen := 256
  strategy := .spin
  cyclesPerUs := 16
  spinModel := .ceilFormula
  readPresetsMosi := true
  initOrder := Config.defaultInitOrder
  hasReadLevel := true
  absentPins := []

/-- The level the pin environment answers to the n-th PINGET that no scripted answer covers: a free value, under no
law (`10_state.md` R31, `20_memory.md` R37). Log 5. -/
opaque Config.freeLevel : Nat → BitVec 1

/-- The outcome code of the n-th sleep that no scripted outcome covers: a free value, under no law (R31,
`41_delay_engine.md` R75). Log 6. -/
opaque Config.freeSleepOutcome : Nat → BitVec 2

/-- How many spin iterations a duration of `d` needs beyond one of `d - 1`, given `CYCLES_PER_US`: a free value.
The sums of such increments are exactly the monotone functions R72 allows for `spinCount`. Log 7. -/
opaque Config.spinIncrement : Nat → Nat → Nat

end Sys2Proof
end

