-- ==== Sys2Proof/Syntax.lean ====
section
/-! DEFINITION. The instructions: the six host commands (`30_encoding.md` R49) and the four micro-operations of the
request port (R50), one constructor per row of spec/opcode_table.json. -/

namespace Sys2Proof

/-- One operation of the controller.
A command has no operands of its own: it reads the operand registers its row of R49 names, at launch.
A micro-operation carries the fields of its request (R50). -/
inductive Instr where
  /-- CONSTRUCT (`44_bus_facade.md` R113). -/
  | construct
  /-- DERIVE (R118). -/
  | derive
  /-- WRITE (`42_write.md` R83). -/
  | write
  /-- READ (`43_read.md` R96). -/
  | read
  /-- WAITNS (`41_delay_engine.md` R78). -/
  | waitns
  /-- WAITMS (R79). -/
  | waitms
  /-- PINDIR (`20_memory.md` R35): set the direction of a pin. -/
  | pindir (p : Pin) (d : Dir)
  /-- PINSET (R36): drive a pin to a level. -/
  | pinset (p : Pin) (l : Level)
  /-- PINGET (R37): read the level of a pin. -/
  | pinget (p : Pin)
  /-- WAIT (R69): wait a number of nanoseconds. -/
  | wait (d : Nat)
deriving DecidableEq, Repr

end Sys2Proof
end

