-- ==== Sys2Proof/WellFormed.lean ====
section
/-! DEFINITION. The checks an instruction and a configuration must pass: field widths (`30_encoding.md` R50) and the
constraints on the parameters (`00_scope.md` R11). -/

namespace Sys2Proof

/-- `DUR_W`, the width of a duration (R11). -/
abbrev durW : Nat := 32

/-- A pin identifier fits its `PIN_W` bits. -/
def Pin.fits (cfg : Config) (p : Pin) : Bool := decide (p < 2 ^ cfg.pinW)

/-- The fields of an instruction fit the widths R50 gives them: `PIN_W` bits of pin, `DUR_W` bits of duration. -/
def Instr.wf (cfg : Config) : Instr → Bool
  | .construct => true
  | .derive => true
  | .write => true
  | .read => true
  | .waitns => true
  | .waitms => true
  | .pindir p _ => Pin.fits cfg p
  | .pinset p _ => Pin.fits cfg p
  | .pinget p => Pin.fits cfg p
  | .wait d => decide (d < 2 ^ durW)

/-- `INIT_ORDER` is one of the orders R114 admits: the six operations, each once, each pin's direction before its
level. -/
def Config.initOrderOk (l : List InitOp) : Bool :=
  l.length == 6 && Config.defaultInitOrder.all (fun o => l.contains o) &&
    decide (l.idxOf .csDir < l.idxOf .csHigh) && decide (l.idxOf .clkDir < l.idxOf .clkIdle)

/-- The constraints of R11 on the parameters: `N_BUS`, `PIN_W`, `BUF_LEN` at least 1, `CYCLES_PER_US` positive,
`INIT_ORDER` admissible. -/
def Config.wf (cfg : Config) : Bool :=
  decide (1 ≤ cfg.nBus) && decide (1 ≤ cfg.pinW) && decide (1 ≤ cfg.bufLen) &&
    decide (1 ≤ cfg.cyclesPerUs) && Config.initOrderOk cfg.initOrder

end Sys2Proof
end

