-- ==== Sys2Proof/Decode.lean ====
section
/-! DEFINITION. The words of the two formats (`30_encoding.md` R49, R50): the decoder, total on any word and rejecting
by name, and after it the encoder.

A word is a natural number whose bit 0 is the least significant bit. `CMD[2:0]` and `KIND[1:0]` are the spec's; the
spec places no other field of a request. Log 3 (DESIGN CHOICE) places them: VAL at bit 2 and PIN from bit 3 up, DUR at
bits 33..2, and bit 2 of a PINGET is 0. -/

namespace Sys2Proof

/-- The two formats: a command written to the CMD register, and a request on the request port. A word does not say
which it is; the port it stands on does. -/
inductive Format where
  | cmd
  | req
deriving DecidableEq, Repr

/-- Why a word is no instruction of its format. -/
inductive Reject where
  /-- CMD opcodes 0b110 and 0b111 (R56). -/
  | reservedOpcode
  /-- A command word of more than the three bits of CMD (R49). -/
  | commandTooWide
  /-- A PINGET with a VAL bit; its request has none (R50). -/
  | strayVal
  /-- A duration of more than `DUR_W` bits (R50). -/
  | durationTooWide
deriving DecidableEq, Repr

/-- The direction a VAL bit encodes: IN is 0 and OUT is 1 (R53). -/
def dirOfBit (b : Nat) : Dir := if b = 0 then .input else .output

/-- The VAL bit of a direction (R53). -/
def bitOfDir : Dir → Nat
  | .input => 0
  | .output => 1

/-- The command a value of the CMD register names (R49, R56). -/
def decodeCmd (w : Nat) : Except Reject Instr :=
  match w with
  | 0 => .ok .construct
  | 1 => .ok .derive
  | 2 => .ok .write
  | 3 => .ok .read
  | 4 => .ok .waitns
  | 5 => .ok .waitms
  | 6 => .error .reservedOpcode
  | 7 => .error .reservedOpcode
  | _ => .error .commandTooWide

/-- The micro-operation a request word carries (R50). -/
def decodeReq (w : Nat) : Except Reject Instr :=
  let body := w / 4
  match w % 4 with
  | 0 => .ok (.pindir (body / 2) (dirOfBit (body % 2)))
  | 1 => .ok (.pinset (body / 2) (BitVec.ofNat 1 body))
  | 2 => if body % 2 = 0 then .ok (.pinget (body / 2)) else .error .strayVal
  | _ => if body < 2 ^ durW then .ok (.wait body) else .error .durationTooWide

/-- The instruction of a word of a format. -/
def decode : Format → Nat → Except Reject Instr
  | .cmd, w => decodeCmd w
  | .req, w => decodeReq w

/-- The format an instruction is encoded in (R49, R50). -/
def Instr.format : Instr → Format
  | .construct => .cmd
  | .derive => .cmd
  | .write => .cmd
  | .read => .cmd
  | .waitns => .cmd
  | .waitms => .cmd
  | .pindir _ _ => .req
  | .pinset _ _ => .req
  | .pinget _ => .req
  | .wait _ => .req

/-- The word of an instruction: its opcode or kind in the low bits, its fields above. -/
def encode : Instr → Nat
  | .construct => 0
  | .derive => 1
  | .write => 2
  | .read => 3
  | .waitns => 4
  | .waitms => 5
  | .pindir p d => (p * 2 + bitOfDir d) * 4
  | .pinset p l => (p * 2 + l.toNat) * 4 + 1
  | .pinget p => (p * 2) * 4 + 2
  | .wait d => d * 4 + 3

/-- The format of a word of the opcode table given by its length and value alone. A word of two bits is a request, any
other that fits the three bits of CMD a command, and a longer one a request. DESIGN CHOICE, log 4: the table's two
formats use the same small words. -/
def tableFormat (nbits w : Nat) : Format :=
  if nbits ≤ 2 then .req else if w < 8 then .cmd else .req

/-- The instruction the decoder reads from a word of the opcode table. -/
def decodeTableWord (nbits w : Nat) : Option Instr :=
  (decode (tableFormat nbits w) w).toOption

end Sys2Proof
end

