-- ==== Sys2Proof/Machine/State.lean ====
section
/-! DEFINITION. The state of the controller and its surroundings (`10_state.md` R16 to R32), as plain data, its value
after reset, and the reasons a step can stop. -/

namespace Sys2Proof.Machine

/-- The bit order of a bus (`10_state.md` R17, `30_encoding.md` R52). -/
inductive BitOrder where
  | msbFirst
  | lsbFirst
deriving DecidableEq, Repr

/-- One bus context: a BusConfig and its VALID bit, the nine fields of R17. -/
structure Context where
  /-- VALID -/
  valid : Bool
  /-- MOSI_PIN -/
  mosi : Pin
  /-- MISO_PIN -/
  miso : Pin
  /-- CLK_PIN -/
  clk : Pin
  /-- CS_PIN -/
  cs : Pin
  /-- CPOL -/
  cpol : BitVec 1
  /-- CPHA -/
  cpha : BitVec 1
  /-- ORDER -/
  order : BitOrder
  /-- FREQ_HZ -/
  freq : Nat
deriving DecidableEq, Repr

/-- The eleven operand registers x[0] to x[10] (R22), by name. -/
inductive RegName where
  | aBus
  | aSrc
  | aMosi
  | aMiso
  | aClk
  | aCs
  | aMode
  | aOrder
  | aSpeed
  | aSize
  | aDur
deriving DecidableEq, Repr

/-- An operand register: its contents, and whether it holds a value at all (R23). What `value` is while `written` is
false is read by nothing (log 8). -/
structure OpReg where
  value : Nat
  written : Bool
deriving DecidableEq, Repr

/-- The operand register file (R22). -/
structure Operands where
  aBus : OpReg
  aSrc : OpReg
  aMosi : OpReg
  aMiso : OpReg
  aClk : OpReg
  aCs : OpReg
  aMode : OpReg
  aOrder : OpReg
  aSpeed : OpReg
  aSize : OpReg
  aDur : OpReg
deriving DecidableEq, Repr

/-- The outcome of a wait and the contents of STATUS.ERR: none (ok), or one of the three kinds of TimingError
(`30_encoding.md` R54). -/
inductive WaitOutcome where
  | ok
  | interruptedBySignal
  | invalidDuration
  | copyFault
deriving DecidableEq, Repr

/-- The opcode of the running command, `T_OP` (R26). -/
inductive Opcode where
  | construct
  | derive
  | write
  | read
  | waitns
  | waitms
deriving DecidableEq, Repr

/-- `PHASE` (R27), in the order the phases are named there. -/
inductive Phase where
  | idle
  | init
  | dly
  | preMosi
  | preClk
  | preWait
  | csLow
  | aWait
  | aAct
  | bWait
  | bAct
  | cWait
  | cAct
  | dWait
  | dAct
  | postWait
  | csHigh
  | guardWait
  | abortCs
deriving DecidableEq, Repr

/-- The sequencer position `SEQ = (PHASE, BYTE_IDX, BIT_IDX)`, the program counter (R27). -/
structure Seq where
  phase : Phase
  byteIdx : Nat
  bitIdx : Fin 8
deriving DecidableEq, Repr

/-- The wait in progress in the delay engine (R30): a number of spin iterations, the pair handed to the nanosecond
sleep (`41_delay_engine.md` R74), or the microseconds handed to the microsecond sleep (R79). -/
inductive EngineReq where
  | spin (iterations : Nat)
  | nanosleep (sec nsec : Nat)
  | usleep (us : Nat)
deriving DecidableEq, Repr

/-- A micro-operation that has been carried out on the request port, with the environment's answer (`00_scope.md`
R10). -/
inductive Event where
  | pinDir (p : Pin) (d : Dir)
  | pinSet (p : Pin) (l : Level)
  | pinGet (p : Pin) (l : Level)
  | wait (d : Nat) (o : WaitOutcome)
deriving DecidableEq, Repr

/-- What the host does when it is not held (`44_bus_facade.md` R110): it writes and reads operand registers and buffer
bytes, reads STATUS, and writes CMD. -/
inductive HostAction where
  | writeReg (r : RegName) (v : Nat)
  | writeBuf (i : Nat) (b : Byte)
  | writeCmd (w : Nat)
  | readReg (r : RegName)
  | readBuf (i : Nat)
  | readStatus
deriving DecidableEq, Repr

/-- The transfer buffer: its written bytes by index. An index not listed holds no value (R28, R32). -/
abbrev Memory := List Host.Cell

/-- The whole state. The fields from `port` on are the model's own: the request port and the surroundings the
controller is connected to (log 2). -/
structure State where
  /-- The parameters of the instance (`00_scope.md` R11). No step changes them. -/
  cfg : Config
  /-- The context bank `ctx[0 .. N_BUS-1]` (R17). -/
  ctx : List Context
  /-- The operand registers (R22). -/
  x : Operands
  /-- STATUS.BUSY (R25). -/
  busy : Bool
  /-- STATUS.ERR (R25). -/
  err : WaitOutcome
  /-- `T_OP` (R26). -/
  tOp : Opcode
  /-- `T_BUS` (R26). -/
  tBus : Nat
  /-- `T_SIZE` (R26). -/
  tSize : Nat
  /-- `CUR_BYTE` (R26). -/
  curByte : Byte
  /-- `SEQ` (R27). -/
  seq : Seq
  /-- `BUF` (R28). -/
  buf : Memory
  /-- `dir[p]`: the direction of every pin that has one, by pin (R29). -/
  dirs : List (Nat × Dir)
  /-- `out[p]`: the driven level of every pin that has one, by pin (R29). -/
  outs : List (Nat × Level)
  /-- The wait in progress (R30). -/
  engine : Option EngineReq
  /-- The request words of the current phase that have not been carried out yet, the next first. -/
  port : List Nat
  /-- The answer of a PINGET that the sequencer has not taken yet (`30_encoding.md` R50). -/
  answer : Option Level
  /-- The kind of the TimingError whose abort sequence is running (`60_exceptions.md` R125). -/
  abortKind : WaitOutcome
  /-- What the host does next, in order. -/
  hostQueue : List HostAction
  /-- What the host's reads gave, in order; `none` where the item holds no value. -/
  hostReads : List (Option Nat)
  /-- The reset input (`70_reset_and_hazards.md` R141). -/
  resetLine : Bool
  /-- The levels the pin environment answers to the next PINGETs. -/
  levelsIn : List Level
  /-- The outcomes of the next sleeps. -/
  outcomesIn : List WaitOutcome
  /-- How many free values have been drawn. -/
  draws : Nat
  /-- The micro-operations carried out so far, in order (R10). -/
  trace : List Event
  /-- The requests the delay engine has served so far, with their outcomes, in order (R30). -/
  engineLog : List (EngineReq × WaitOutcome)
deriving DecidableEq, Repr

/-- Why the machine stops with a fault. -/
inductive Fault where
  /-- An access to a byte index at or above `BUF_LEN`, which does not exist (`20_memory.md` R33).
  Raised by the host's buffer accesses and by the store of a READ. Safe: the machine stops. -/
  | noSuchBufferByte
deriving DecidableEq, Repr

/-- Why a run is refused: the situations of `60_exceptions.md` R136, and what no rule gives a move.
Each is safe: the machine stops. -/
inductive Refusal where
  /-- An instruction that has no meaning yet. Raised by `exec`'s own arms only. -/
  | notModelled (mnemonic : String)
  /-- CMD opcode 0b110 or 0b111, or a value wider than CMD (R136 no. 1). Raised by the host's write of CMD. -/
  | reservedOpcode
  /-- A command reads an operand register that holds no value (R136 no. 2). Raised at launch. -/
  | operandUnwritten (r : RegName)
  /-- A bus handle not below `N_BUS` (R136 nos. 3, 4, 5). Raised at launch. -/
  | handleOutOfRange
  /-- CONSTRUCT with a mode not in 1..4 (R136 no. 3). -/
  | badMode
  /-- CONSTRUCT with speed 0 or above `FREQ_MAX` (R136 no. 3). -/
  | badSpeed
  /-- CONSTRUCT with two equal pins (R136 no. 3). -/
  | equalPins
  /-- DERIVE from, or WRITE or READ on, a context with VALID = 0 (R136 nos. 4, 5). -/
  | contextInvalid
  /-- DERIVE onto its own source (R136 no. 4). -/
  | destinationIsSource
  /-- DERIVE with a new chip-select among the source's pins (R136 no. 4). -/
  | chipSelectInUse
  /-- WRITE or READ of more than `BUF_LEN` bytes (R136 no. 5). -/
  | sizeTooLarge
  /-- WRITE of a buffer byte that holds no value (R136 no. 5). -/
  | bufferByteUnwritten
  /-- READ, or a PINGET, where the pin environment has no readLevel (R136 no. 5). -/
  | noReadLevel
  /-- WAITMS above 4,294,967 (R136 no. 6). -/
  | durationTooLarge
  /-- A micro-operation on a pin in the wrong direction (R136 no. 7). -/
  | wrongDirection
  /-- A micro-operation on a pin the environment does not have (R136 no. 7). -/
  | noSuchPin
  /-- Reset asserted while a command runs (`70_reset_and_hazards.md` R141). -/
  | resetWhileBusy
  /-- A command launched while another runs: the host is held (R109), so no run reaches it. -/
  | hostHeld
  /-- The host writes a register with a value wider than the register (R22; log 11). -/
  | valueTooWide
  /-- A request word that is no request (R50); no run reaches it. -/
  | badRequest
  /-- BUSY is 1 and no command is running; no run reaches it. -/
  | noCommandRunning
deriving DecidableEq, Repr

/-- What a step of this machine can answer. -/
abbrev Res := Host.Outcome State Fault Refusal

/-- A context that was never constructed. Only VALID has a reset value (R17); what the other fields are while VALID
is 0 is read by nothing (DESIGN CHOICE, log 8). -/
def Context.empty : Context where
  valid := false
  mosi := 0
  miso := 0
  clk := 0
  cs := 0
  cpol := 0#1
  cpha := 0#1
  order := .msbFirst
  freq := 0

/-- An operand register without a reset value: it holds no value (R23). -/
def OpReg.unspecified : OpReg := ⟨0, false⟩

/-- The operand registers after reset (R32): `A_BUS`, `A_SRC` and `A_ORDER` 0, `A_SPEED` 1,000,000, the others hold
no value. -/
def Operands.reset : Operands where
  aBus := ⟨0, true⟩
  aSrc := ⟨0, true⟩
  aMosi := OpReg.unspecified
  aMiso := OpReg.unspecified
  aClk := OpReg.unspecified
  aCs := OpReg.unspecified
  aMode := OpReg.unspecified
  aOrder := ⟨0, true⟩
  aSpeed := ⟨1000000, true⟩
  aSize := OpReg.unspecified
  aDur := OpReg.unspecified

/-- The state after reset of an instance with the given parameters (R32), nothing connected to it having happened
yet. The T registers, CUR_BYTE, BYTE_IDX and BIT_IDX hold no value outside a command; what stands in their fields is
read by nothing (DESIGN CHOICE, log 8). -/
def State.resetOf (cfg : Config) : State where
  cfg := cfg
  ctx := List.replicate cfg.nBus Context.empty
  x := Operands.reset
  busy := false
  err := .ok
  tOp := .construct
  tBus := 0
  tSize := 0
  curByte := 0#8
  seq := ⟨.idle, 0, 0⟩
  buf := []
  dirs := []
  outs := []
  engine := none
  port := []
  answer := none
  abortKind := .ok
  hostQueue := []
  hostReads := []
  resetLine := false
  levelsIn := []
  outcomesIn := []
  draws := 0
  trace := []
  engineLog := []

/-- The machine right after reset. -/
def State.reset : State := State.resetOf Config.standard

end Sys2Proof.Machine
end

