-- ==== Sys2Proof/Machine/Flags.lean ====
section
/-! DEFINITION. The STATUS register, the controller's only flags (`10_state.md` R25): the codes of ERR, the word the host
reads, and what sets and clears its two fields. -/

namespace Sys2Proof.Machine

/-- The code of an outcome in STATUS.ERR (`30_encoding.md` R54). -/
def errCode : WaitOutcome → BitVec 2
  | .ok => 0#2
  | .interruptedBySignal => 1#2
  | .invalidDuration => 2#2
  | .copyFault => 3#2

/-- The outcome a code stands for (R54). -/
def outcomeOfCode (c : BitVec 2) : WaitOutcome :=
  if c = 0#2 then .ok else if c = 1#2 then .interruptedBySignal
  else if c = 2#2 then .invalidDuration else .copyFault

/-- STATUS as the host reads it: BUSY in bit 0, ERR in bits 2..1 (R25). -/
def statusWord (s : State) : BitVec 3 := errCode s.err ++ BitVec.ofBool s.busy

/-- The launch of a command (`44_bus_facade.md` R108): ERR is cleared, BUSY set, the opcode kept. -/
def launch (op : Opcode) (s : State) : State := { s with err := .ok, busy := true, tOp := op }

/-- The last step of a command: BUSY is cleared and the sequencer is idle. -/
def finish (s : State) : State := { s with busy := false, seq := { s.seq with phase := .idle } }

/-- The end of an abort (`60_exceptions.md` R125, R126): ERR takes the kind, and the command is over. -/
def finishWithError (k : WaitOutcome) (s : State) : State := finish { s with err := k }

end Sys2Proof.Machine
end

