-- ==== Sys2Proof/Machine/Ops.lean ====
section
/-! DEFINITION. The operations the meanings share: maps kept as rising lists, the transfer buffer, pins, operand
registers, contexts, the request port, the answers of the environment, launch with its refusals, and TimingError. -/

namespace Sys2Proof.Machine

/-! Maps from numbers, as lists in rising order of the key. -/

/-- The value a map holds at a key, if any. -/
def assocGet {α : Type} (k : Nat) : List (Nat × α) → Option α
  | [] => none
  | (k', v) :: rest => if k = k' then some v else assocGet k rest

/-- The map with a value at a key, the keys still rising. -/
def assocSet {α : Type} (k : Nat) (v : α) : List (Nat × α) → List (Nat × α)
  | [] => [(k, v)]
  | (k', v') :: rest =>
    if k < k' then (k, v) :: (k', v') :: rest
    else if k = k' then (k, v) :: rest
    else (k', v') :: assocSet k v rest

/-- The keys of a map are strictly rising. -/
def assocRising {α : Type} : List (Nat × α) → Bool
  | [] => true
  | [_] => true
  | (a, _) :: (b, w) :: rest => decide (a < b) && assocRising ((b, w) :: rest)

/-! The transfer buffer (`20_memory.md` R42). -/

/-- The canonical form of the buffer's contents: byte indexes strictly rising. No entry can equal what an unlisted
index reads as, since that is no value. -/
def Memory.wf (m : Memory) : Bool := assocRising m

/-- The byte at an index; `none` where nothing has written it (`10_state.md` R28, R32). -/
def Memory.read (m : Memory) (i : Nat) : Option Byte := assocGet i m

/-- The buffer with one byte written. -/
def Memory.write (m : Memory) (i : Nat) (b : Byte) : Memory := assocSet i b m

/-- Store one byte of the buffer; an index at or above `BUF_LEN` does not exist (R33). -/
def storeBuf (i : Nat) (b : Byte) (s : State) : Res :=
  if i < s.cfg.bufLen then .next { s with buf := s.buf.write i b } else .fault .noSuchBufferByte

/-- Every byte below `n` holds a value (`44_bus_facade.md` R111). -/
def Memory.allWritten (m : Memory) (n : Nat) : Bool :=
  (List.range n).all fun i => (m.read i).isSome

/-! Sequencing of operations that can stop. -/

/-- Go on from a next state; a stop stays a stop. -/
def andThen (r : Res) (f : State → Res) : Res :=
  match r with
  | .next s => f s
  | .fault e => .fault e
  | .refused e => .refused e

/-! Pins (`20_memory.md` R35 to R38). -/

/-- `dir[p]`, if it holds a value (`10_state.md` R29). -/
def State.dirOf (s : State) (p : Pin) : Option Dir := assocGet p s.dirs

/-- `out[p]`, if it holds a value (R29). -/
def State.outOf (s : State) (p : Pin) : Option Level := assocGet p s.outs

/-- The level the controller puts on the wire of a pin: `out[p]` where `dir[p]` is OUT (`20_memory.md` R36); `none`
where it drives none or an unspecified one (`93_implementation_defined.md` U1). -/
def State.driven (s : State) (p : Pin) : Option Level :=
  if s.dirOf p = some .output then s.outOf p else none

/-- The pin environment has the identifier: it fits `PIN_W` bits and is not one of those the platform lacks (R38). -/
def pinExists (cfg : Config) (p : Pin) : Bool := Pin.fits cfg p && !cfg.absentPins.contains p

/-- A micro-operation enters the trace (`00_scope.md` R10). -/
def emit (e : Event) (s : State) : State := { s with trace := s.trace ++ [e] }

/-- `dir[p] <- d` in the pin environment (R35). -/
def setDir (p : Pin) (d : Dir) (s : State) : State := { s with dirs := assocSet p d s.dirs }

/-- `out[p] <- l` in the pin environment (R36). -/
def setOut (p : Pin) (l : Level) (s : State) : State := { s with outs := assocSet p l s.outs }

/-! Operand registers (`10_state.md` R22, R23). -/

/-- A register of the file. -/
def Operands.get (x : Operands) : RegName → OpReg
  | .aBus => x.aBus
  | .aSrc => x.aSrc
  | .aMosi => x.aMosi
  | .aMiso => x.aMiso
  | .aClk => x.aClk
  | .aCs => x.aCs
  | .aMode => x.aMode
  | .aOrder => x.aOrder
  | .aSpeed => x.aSpeed
  | .aSize => x.aSize
  | .aDur => x.aDur

/-- The file with one register replaced. -/
def Operands.set (x : Operands) (r : RegName) (v : OpReg) : Operands :=
  match r with
  | .aBus => { x with aBus := v }
  | .aSrc => { x with aSrc := v }
  | .aMosi => { x with aMosi := v }
  | .aMiso => { x with aMiso := v }
  | .aClk => { x with aClk := v }
  | .aCs => { x with aCs := v }
  | .aMode => { x with aMode := v }
  | .aOrder => { x with aOrder := v }
  | .aSpeed => { x with aSpeed := v }
  | .aSize => { x with aSize := v }
  | .aDur => { x with aDur := v }

/-- The contents of an operand register. A command uses them only where the register holds a value. -/
def State.reg (s : State) (r : RegName) : Nat := (s.x.get r).value

/-- An operand register holds a value (R23). -/
def State.written (s : State) (r : RegName) : Bool := (s.x.get r).written

/-! Refusal conditions, checked in order at launch. -/

/-- The reason of the first condition that holds. -/
def firstRefusal : List (Bool × Refusal) → Option Refusal
  | [] => none
  | (true, r) :: _ => some r
  | (false, _) :: rest => firstRefusal rest

/-- The command reads these operand registers: one that holds no value refuses it (`10_state.md` R23, `60_exceptions.md`
R136 no. 2, `93_implementation_defined.md` U8). -/
def readsOperands (rs : List RegName) (s : State) : List (Bool × Refusal) :=
  rs.map fun r => (!s.written r, .operandUnwritten r)

/-- The launch of a command (`44_bus_facade.md` R108): the host must not be held (R109); a command refused has no
meaning; otherwise ERR, BUSY and T_OP are set and the command's own part follows. -/
def launchCommand (op : Opcode) (refusal : Option Refusal) (body : State → Res) (s : State) : Res :=
  if s.busy then .refused .hostHeld
  else match refusal with
    | some r => .refused r
    | none => body (launch op s)

/-! The request port. -/

/-- The request words of these micro-operations stand on the port, the first one next (`30_encoding.md` R50). -/
def issue (is : List Instr) (s : State) : State := { s with port := is.map encode }

/-- The sequencer is in a phase, its indexes as they were. -/
def goto (ph : Phase) (s : State) : State := { s with seq := { s.seq with phase := ph } }

/-! The answers of the environment (`10_state.md` R31): the next one scripted for it, else a free value. -/

/-- The answer to a PINGET, and the state with that draw taken. -/
def drawLevel (s : State) : Level × State :=
  match s.levelsIn with
  | l :: rest => (l, { s with levelsIn := rest })
  | [] => (Config.freeLevel s.draws, { s with draws := s.draws + 1 })

/-- The outcome of a sleep, and the state with that draw taken. -/
def drawOutcome (s : State) : WaitOutcome × State :=
  match s.outcomesIn with
  | o :: rest => (o, { s with outcomesIn := rest })
  | [] => (outcomeOfCode (Config.freeSleepOutcome s.draws), { s with draws := s.draws + 1 })

/-! TimingError: the one exception (`60_exceptions.md` R122). -/

/-- The running command is a transaction, a WRITE or a READ. -/
def State.inTransaction (s : State) : Bool := s.busy && (s.tOp == .write || s.tOp == .read)

/-- Taking a TimingError of kind `k`. In a transaction (R125) the sequencer goes to ABORT_CS with the deassertion of
chip-select as its only request, and the kind is kept for the end of the abort; nothing of the interrupted command is
left on the port. Otherwise (R126) ERR takes the kind at once and the command is over. -/
def takeTimingError (k : WaitOutcome) (s : State) : Res :=
  if s.inTransaction then
    match s.ctx[s.tBus]? with
    | none => .refused .handleOutOfRange
    | some c => .next (issue [.pinset c.cs high] (goto .abortCs { s with abortKind := k }))
  else .next (issue [] (finishWithError k s))

/-- The end of an abort, the return of the exception (R125, R132): ERR takes the kind kept, BUSY is cleared, the
sequencer is idle and the host is released. -/
def returnFromTimingError (s : State) : State := finishWithError s.abortKind s

/-! The delay engine (`10_state.md` R30). -/

/-- The engine begins a wait. -/
def beginWait (r : EngineReq) (s : State) : State := { s with engine := some r }

/-- The outcome of the wait in progress: under SPIN always ok (`41_delay_engine.md` R73), under SLEEP the
environment's (R75). -/
def engineOutcome (s : State) : WaitOutcome × State :=
  match s.cfg.strategy with
  | .spin => (.ok, s)
  | .sleep => drawOutcome s

/-- The wait in progress is over: it is recorded, and the engine holds nothing (R30). -/
def endWait (o : WaitOutcome) (s : State) : State :=
  match s.engine with
  | none => s
  | some r => { s with engine := none, engineLog := s.engineLog ++ [(r, o)] }

/-- A wait that ended ok lets its command go on; another raises TimingError (R69). -/
def settleWait (o : WaitOutcome) (s : State) : Res :=
  if o = .ok then .next s else takeTimingError o s

end Sys2Proof.Machine
end

