-- ==== Sys2Proof/Machine/Operands.lean ====
section
/-! DEFINITION. The operand forms and the arithmetic of the commands: register widths, mode decode, bit position,
quarter-cycle time, the seconds split and the spin count. -/

namespace Sys2Proof.Machine

/-- `FREQ_MAX`, the largest frequency with a meaning (`00_scope.md` R11). -/
def freqMax : Nat := 1073741823

/-- `CARRY_DIVISOR` (R11; `90_conflicts.md` C2). -/
def carryDivisor : Nat := 1000000000

/-- The largest duration of WAITMS (`41_delay_engine.md` R79). -/
def maxMilliseconds : Nat := 4294967

/-- `SIZE_W`, the smallest w with 2^w > `BUF_LEN` (R11). -/
def sizeW (cfg : Config) : Nat := Nat.log2 cfg.bufLen + 1

/-- The width of a bus handle, `ceil(log2(N_BUS))` and at least 1 (`10_state.md` R22). -/
def handleW (cfg : Config) : Nat := if cfg.nBus ≤ 2 then 1 else Nat.log2 (cfg.nBus - 1) + 1

/-- The width of each operand register (R22). -/
def regWidth (cfg : Config) : RegName → Nat
  | .aBus => handleW cfg
  | .aSrc => handleW cfg
  | .aMosi => cfg.pinW
  | .aMiso => cfg.pinW
  | .aClk => cfg.pinW
  | .aCs => cfg.pinW
  | .aMode => 3
  | .aOrder => 1
  | .aSpeed => 32
  | .aSize => sizeW cfg
  | .aDur => durW

/-- The selector of mode number K: `m = K - 1`, two bits (`30_encoding.md` R51). -/
def modeSelector (k : Nat) : BitVec 2 := BitVec.ofNat 2 (k - 1)

/-- MODE_DECODE (`40_mode_decode.md` R59): `CPOL = m[1]`, `CPHA = m[0]`. -/
def modeDecode (m : BitVec 2) : BitVec 1 × BitVec 1 :=
  (m.extractLsb' 1 1, m.extractLsb' 0 1)

/-- The bit order a value of `A_ORDER` encodes: MSBFirst is 0, LSBFirst is 1 (`30_encoding.md` R52). -/
def orderOfBit (v : Nat) : BitOrder := if v = 0 then .msbFirst else .lsbFirst

/-- The idle clock level (R61). -/
def idleLevel (c : Context) : Level := c.cpol

/-- The active clock level, `1 - CPOL` (R61). -/
def activeLevel (c : Context) : Level := ~~~c.cpol

/-- BITPOS (`42_write.md` R82): the position of the j-th bit on the wire. -/
def bitPos : BitOrder → Fin 8 → Nat
  | .msbFirst, j => 7 - j.val
  | .lsbFirst, j => j.val

/-- The bit of a byte that WRITE sends in iteration j (R83). -/
def wireBit (order : BitOrder) (b : Byte) (j : Fin 8) : Level :=
  BitVec.ofBool (b.getLsbD (bitPos order j))

/-- A sampled level or-ed into the byte a READ composes, in iteration j (`43_read.md` R98). -/
def composeBit (order : BitOrder) (b : Byte) (j : Fin 8) (l : Level) : Byte :=
  b ||| (l.setWidth 8 <<< bitPos order j)

/-- CT, the quarter-cycle time in nanoseconds (`42_write.md` R81). -/
def quarterCycle (f : Nat) : Nat := 1000000000 / (f * 4)

/-- SPLIT (`41_delay_engine.md` R74): seconds and nanoseconds. -/
def splitDuration (d : Nat) : Nat × Nat := (d / carryDivisor, d % carryDivisor)

/-- A monotone spin count of which nothing else is known (R72): the sum of the platform's increments up to `d`. -/
def platformSpin (cycles : Nat) : Nat → Nat
  | 0 => Config.spinIncrement cycles 0
  | d + 1 => platformSpin cycles d + Config.spinIncrement cycles (d + 1)

/-- `spinCount` (R72): the default is `ceil(d * CYCLES_PER_US / 1000)` on naturals. -/
def spinCount (cfg : Config) (d : Nat) : Nat :=
  match cfg.spinModel with
  | .ceilFormula => (d * cfg.cyclesPerUs + 999) / 1000
  | .platform => platformSpin cfg.cyclesPerUs d

/-- What the delay engine is asked for a wait of `d` nanoseconds (R69). -/
def waitRequest (cfg : Config) (d : Nat) : EngineReq :=
  match cfg.strategy with
  | .spin => .spin (spinCount cfg d)
  | .sleep => .nanosleep (splitDuration d).1 (splitDuration d).2

/-- What the delay engine is asked for a wait of `ms` milliseconds (R79). -/
def waitMsRequest (cfg : Config) (ms : Nat) : EngineReq :=
  match cfg.strategy with
  | .spin => .spin (spinCount cfg (ms * 1000000))
  | .sleep => .usleep (ms * 1000)

end Sys2Proof.Machine
end

