-- ==== Sys2Proof/Machine/Delay.lean ====
section
/-! DEFINITION. The delay engine's operations: the micro-operation WAIT and the host commands WAITNS and WAITMS
(`41_delay_engine.md` R69, R78, R79). -/

namespace Sys2Proof.Machine

/-- The end of the wait in progress: its outcome, and TimingError if it failed (R69). -/
def finishWait (s : State) : Res :=
  settleWait (engineOutcome s).1 (endWait (engineOutcome s).1 (engineOutcome s).2)

/-- WAIT (R69): the engine is asked for `d` nanoseconds and the wait ends with an outcome, which the trace records with
the requested duration (`60_exceptions.md` R127); a failure raises TimingError. -/
def execWait (d : Nat) (s : State) : Res :=
  let s := beginWait (waitRequest s.cfg d) s
  let o := (engineOutcome s).1
  settleWait o (emit (.wait d o) (endWait o (engineOutcome s).2))

/-- WAITNS (R78): one WAIT of `A_DUR` nanoseconds, in phase DLY. -/
def execWaitNs (s : State) : Res :=
  launchCommand .waitns (firstRefusal (readsOperands [.aDur] s))
    (fun s => .next (issue [.wait (s.reg .aDur)] (goto .dly s))) s

/-- WAITMS (R79): one wait of `A_DUR` milliseconds in phase DLY, made by the engine and not as a request on the port. -/
def execWaitMs (s : State) : Res :=
  launchCommand .waitms
    (firstRefusal (readsOperands [.aDur] s ++ [(decide (maxMilliseconds < s.reg .aDur), .durationTooLarge)]))
    (fun s => .next (issue [] (beginWait (waitMsRequest s.cfg (s.reg .aDur)) (goto .dly s)))) s

end Sys2Proof.Machine
end

