-- ==== Sys2Proof/Machine/Pins.lean ====
section
/-! DEFINITION. The three pin micro-operations PINDIR, PINSET, PINGET (`20_memory.md` R35, R36, R37). -/

namespace Sys2Proof.Machine

/-- PINDIR (R35): `dir[p] <- d` in the pin environment; an identifier the environment lacks is refused (R38). -/
def execPinDir (p : Pin) (d : Dir) (s : State) : Res :=
  if pinExists s.cfg p then .next (emit (.pinDir p d) (setDir p d s)) else .refused .noSuchPin

/-- PINSET (R36): `out[p] <- l`; a pin that is not an output is in the wrong direction, which is refused (R38). -/
def execPinSet (p : Pin) (l : Level) (s : State) : Res :=
  if pinExists s.cfg p then
    if s.dirOf p = some .output then .next (emit (.pinSet p l) (setOut p l s))
    else .refused .wrongDirection
  else .refused .noSuchPin

/-- PINGET (R37): the environment answers a level, which stands on the port until the sequencer takes it. A pin that is
not an input is in the wrong direction (R38); an environment without readLevel cannot answer (R34). -/
def execPinGet (p : Pin) (s : State) : Res :=
  if !s.cfg.hasReadLevel then .refused .noReadLevel
  else if pinExists s.cfg p then
    if s.dirOf p = some .input then
      .next (emit (.pinGet p (drawLevel s).1) { (drawLevel s).2 with answer := some (drawLevel s).1 })
    else .refused .wrongDirection
  else .refused .noSuchPin

end Sys2Proof.Machine
end

