-- ==== Sys2Proof/Machine/Facade.lean ====
section
/-! DEFINITION. The configuration commands CONSTRUCT and DERIVE (`44_bus_facade.md` R113, R118). -/

namespace Sys2Proof.Machine

/-- A handle is not below `N_BUS` (`30_encoding.md` R56). -/
def badHandle (s : State) (b : Nat) : Bool := decide (s.cfg.nBus ≤ b)

/-- The context a handle names, if VALID (`10_state.md` R17). -/
def State.validCtx (s : State) (b : Nat) : Option Context :=
  match s.ctx[b]? with
  | some c => if c.valid then some c else none
  | none => none

/-- The four pins of one bus are pairwise different (R116; `10_state.md` R18). -/
def pinsDiffer (mosi miso clk cs : Pin) : Bool :=
  mosi != miso && mosi != clk && mosi != cs && miso != clk && miso != cs && clk != cs

/-- Why a CONSTRUCT is refused at launch (R116). -/
def constructRefusal (s : State) : Option Refusal :=
  firstRefusal <|
    readsOperands [.aBus, .aMosi, .aMiso, .aClk, .aCs, .aMode, .aOrder, .aSpeed] s ++
    [(badHandle s (s.reg .aBus), .handleOutOfRange),
     (decide (s.reg .aMode < 1 ∨ 4 < s.reg .aMode), .badMode),
     (decide (s.reg .aSpeed = 0 ∨ freqMax < s.reg .aSpeed), .badSpeed),
     (!pinsDiffer (s.reg .aMosi) (s.reg .aMiso) (s.reg .aClk) (s.reg .aCs), .equalPins)]

/-- The context CONSTRUCT writes (R113). -/
def constructContext (s : State) : Context :=
  let decoded := modeDecode (modeSelector (s.reg .aMode))
  { valid := true, mosi := s.reg .aMosi, miso := s.reg .aMiso, clk := s.reg .aClk, cs := s.reg .aCs,
    cpol := decoded.1, cpha := decoded.2, order := orderOfBit (s.reg .aOrder), freq := s.reg .aSpeed }

/-- One pin operation of the initialisation of a bus (R114). -/
def initRequest (c : Context) : InitOp → Instr
  | .mosiDir => .pindir c.mosi .output
  | .csDir => .pindir c.cs .output
  | .csHigh => .pinset c.cs high
  | .misoDir => .pindir c.miso .input
  | .clkDir => .pindir c.clk .output
  | .clkIdle => .pinset c.clk (idleLevel c)

/-- The pin initialisation of CONSTRUCT: six micro-operations, in `INIT_ORDER` (R114). -/
def constructRequests (cfg : Config) (c : Context) : List Instr := cfg.initOrder.map (initRequest c)

/-- CONSTRUCT (R113): the context is written as a whole record, then the pins are initialised in phase INIT. -/
def execConstruct (s : State) : Res :=
  launchCommand .construct (constructRefusal s)
    (fun s =>
      .next (issue (constructRequests s.cfg (constructContext s))
        (goto .init { s with ctx := s.ctx.set (s.reg .aBus) (constructContext s) }))) s

/-- A chip-select is one of a context's four pins (R121). -/
def Context.hasPin (c : Context) (p : Pin) : Bool := p == c.mosi || p == c.miso || p == c.clk || p == c.cs

/-- Why a DERIVE is refused at launch (R121). -/
def deriveRefusal (s : State) : Option Refusal :=
  firstRefusal <|
    readsOperands [.aBus, .aSrc, .aCs] s ++
    [(badHandle s (s.reg .aBus), .handleOutOfRange),
     (badHandle s (s.reg .aSrc), .handleOutOfRange),
     ((s.validCtx (s.reg .aSrc)).isNone, .contextInvalid),
     (decide (s.reg .aBus = s.reg .aSrc), .destinationIsSource),
     ((s.validCtx (s.reg .aSrc)).any (fun c => c.hasPin (s.reg .aCs)), .chipSelectInUse)]

/-- The context DERIVE writes: a copy of its source with the new chip-select (R118, R120). -/
def deriveContext (src : Context) (cs : Pin) : Context := { src with valid := true, cs := cs }

/-- The pin initialisation of DERIVE: the new chip-select only, direction first (R119). -/
def deriveRequests (cs : Pin) : List Instr := [.pindir cs .output, .pinset cs high]

/-- DERIVE (R118): a new context beside its source, which stays as it is; only the new chip-select is initialised. -/
def execDerive (s : State) : Res :=
  launchCommand .derive (deriveRefusal s)
    (fun s =>
      match s.ctx[s.reg .aSrc]? with
      | none => .refused .handleOutOfRange
      | some src =>
        .next (issue (deriveRequests (s.reg .aCs))
          (goto .init { s with ctx := s.ctx.set (s.reg .aBus) (deriveContext src (s.reg .aCs)) }))) s

end Sys2Proof.Machine
end

