-- ==== Sys2Proof/Machine/Sequencer.lean ====
section
/-! DEFINITION. The sequencer: the micro-operations of each phase of a transaction, and the step from one phase to the
next (`42_write.md` R83, R91; `43_read.md` R96, R105). -/

namespace Sys2Proof.Machine

/-- The quarter-cycle time of a bus (`42_write.md` R81). -/
def busTime (c : Context) : Nat := quarterCycle c.freq

/-- The micro-operations of a phase of WRITE (R83), with the byte being sent and the bit's iteration number. -/
def writeRow (c : Context) (b : Byte) (q : Seq) : List Instr :=
  match q.phase with
  | .preMosi => [.pinset c.mosi low]
  | .preClk => [.pinset c.clk (idleLevel c)]
  | .preWait => [.wait (busTime c)]
  | .csLow => [.pinset c.cs low]
  | .aWait => [.wait (busTime c)]
  | .aAct => if c.cpha = 0#1 then [.pinset c.mosi (wireBit c.order b q.bitIdx)] else []
  | .bWait => [.wait (busTime c)]
  | .bAct => [.pinset c.clk (activeLevel c)]
  | .cWait => [.wait (busTime c)]
  | .cAct => if c.cpha = 1#1 then [.pinset c.mosi (wireBit c.order b q.bitIdx)] else []
  | .dWait => [.wait (busTime c)]
  | .dAct => [.pinset c.clk (idleLevel c)]
  | .postWait => [.wait (busTime c)]
  | .csHigh => [.pinset c.cs high]
  | .guardWait => [.wait (4 * busTime c)]
  | .idle | .init | .dly | .abortCs => []

/-- The micro-operations of a phase of READ (R96): the sample falls in slot b for CPHA 0 and in slot d for CPHA 1, in
each before the clock edge (R97). -/
def readRow (presetsMosi : Bool) (c : Context) (q : Seq) : List Instr :=
  match q.phase with
  | .preMosi => if presetsMosi then [.pinset c.mosi low] else []
  | .preClk => [.pinset c.clk (idleLevel c)]
  | .preWait => [.wait (busTime c)]
  | .csLow => [.pinset c.cs low]
  | .aWait => [.wait (busTime c)]
  | .aAct => []
  | .bWait => [.wait (busTime c)]
  | .bAct => (if c.cpha = 0#1 then [.pinget c.miso] else []) ++ [.pinset c.clk (activeLevel c)]
  | .cWait => [.wait (busTime c)]
  | .cAct => []
  | .dWait => [.wait (busTime c)]
  | .dAct => (if c.cpha = 1#1 then [.pinget c.miso] else []) ++ [.pinset c.clk (idleLevel c)]
  | .postWait => [.wait (busTime c)]
  | .csHigh => [.pinset c.cs high]
  | .guardWait => [.wait (4 * busTime c)]
  | .idle | .init | .dly | .abortCs => []

/-- The micro-operations of the phase a state is in, on its bus. -/
def rowOf (c : Context) (s : State) : List Instr :=
  if s.tOp = .read then readRow s.cfg.readPresetsMosi c s.seq else writeRow c s.curByte s.seq

/-- The sequencer moves to a position and its micro-operations stand on the port. -/
def enter (q : Seq) (s : State) : Res :=
  match s.ctx[s.tBus]? with
  | none => .refused .handleOutOfRange
  | some c => .next (issue (rowOf c { s with seq := q }) { s with seq := q })

/-- The sequencer moves to another phase of the same bit. -/
def enterPhase (ph : Phase) (s : State) : Res := enter { s.seq with phase := ph } s

/-- The start of byte `i` (R88; `43_read.md` R98): WRITE loads it from the buffer, READ starts from zero. -/
def startByte (i : Nat) (s : State) : Res :=
  if s.tOp = .read then enter ⟨.aWait, i, 0⟩ { s with curByte := 0#8 }
  else match s.buf.read i with
    | none => .refused .bufferByteUnwritten
    | some b => enter ⟨.aWait, i, 0⟩ { s with curByte := b }

/-- The end of a byte: READ stores what it composed (`43_read.md` R99). -/
def storeByte (s : State) : Res :=
  if s.tOp = .read then storeBuf s.seq.byteIdx s.curByte s else .next s

/-- After byte `i`: the next byte, or the end of the frame (R91). -/
def nextByte (s : State) : Res :=
  if s.seq.byteIdx + 1 < s.tSize then startByte (s.seq.byteIdx + 1) s else enterPhase .postWait s

/-- After the trailing edge of a bit: the next bit of the byte, or the end of the byte (R91). -/
def nextBit (s : State) : Res :=
  if h : s.seq.bitIdx.val < 7 then
    enter ⟨.aWait, s.seq.byteIdx, ⟨s.seq.bitIdx.val + 1, by omega⟩⟩ s
  else andThen (storeByte s) nextByte

/-- The step from a phase whose micro-operations are all done to the next (R91, R105). -/
def advance (s : State) : Res :=
  match s.seq.phase with
  | .idle => .refused .noCommandRunning
  | .init => .next (finish s)
  | .dly => .next (finish s)
  | .preMosi => enterPhase .preClk s
  | .preClk => enterPhase .preWait s
  | .preWait => enterPhase .csLow s
  | .csLow => if 0 < s.tSize then startByte 0 s else enterPhase .postWait s
  | .aWait => enterPhase .aAct s
  | .aAct => enterPhase .bWait s
  | .bWait => enterPhase .bAct s
  | .bAct => enterPhase .cWait s
  | .cWait => enterPhase .cAct s
  | .cAct => enterPhase .dWait s
  | .dWait => enterPhase .dAct s
  | .dAct => nextBit s
  | .postWait => enterPhase .csHigh s
  | .csHigh => enterPhase .guardWait s
  | .guardWait => .next (finish s)
  | .abortCs => .next (returnFromTimingError s)

/-- The sequencer takes the answer of a PINGET: a READ or-s it into CUR_BYTE at the bit's position (`43_read.md` R96,
R98). -/
def takeAnswer (l : Level) (s : State) : Res :=
  match s.ctx[s.tBus]? with
  | none => .refused .handleOutOfRange
  | some c =>
    if s.tOp = .read then
      .next { s with answer := none, curByte := composeBit c.order s.curByte s.seq.bitIdx l }
    else .next { s with answer := none }

end Sys2Proof.Machine
end

