-- ==== Sys2Proof/Machine/Transaction.lean ====
section
/-! DEFINITION. The launch of the transactions WRITE and READ (`42_write.md` R83, `43_read.md` R96); what follows is the
sequencer's (Sequencer.lean). -/

namespace Sys2Proof.Machine

/-- The refusals WRITE and READ share (`44_bus_facade.md` R111). -/
def transferRefusals (s : State) : List (Bool × Refusal) :=
  readsOperands [.aBus, .aSize] s ++
  [(badHandle s (s.reg .aBus), .handleOutOfRange),
   ((s.validCtx (s.reg .aBus)).isNone, .contextInvalid),
   (decide (s.cfg.bufLen < s.reg .aSize), .sizeTooLarge)]

/-- The operands of a transaction are copied (R108) and the sequencer enters its first phase (`42_write.md` R91). -/
def startTransfer (s : State) : Res :=
  enterPhase .preMosi { s with tBus := s.reg .aBus, tSize := s.reg .aSize }

/-- WRITE (R83), its launch: refused also where a byte to send holds no value (R111). -/
def execWrite (s : State) : Res :=
  launchCommand .write
    (firstRefusal (transferRefusals s ++ [(!s.buf.allWritten (s.reg .aSize), .bufferByteUnwritten)]))
    startTransfer s

/-- READ (R96), its launch: refused also where the pin environment has no readLevel (R111). -/
def execRead (s : State) : Res :=
  launchCommand .read
    (firstRefusal (transferRefusals s ++ [(!s.cfg.hasReadLevel, .noReadLevel)]))
    startTransfer s

end Sys2Proof.Machine
end

