-- ==== Sys2Proof/Machine/Dispatch.lean ====
section
/-! DEFINITION. One arm per instruction, each one call of its meaning. -/

namespace Sys2Proof.Machine

def exec (i : Instr) (s : State) : Host.Outcome State Fault Refusal :=
  match i with
  | .construct => Sys2Proof.Machine.execConstruct s
  | .derive => Sys2Proof.Machine.execDerive s
  | .write => Sys2Proof.Machine.execWrite s
  | .read => Sys2Proof.Machine.execRead s
  | .waitns => Sys2Proof.Machine.execWaitNs s
  | .waitms => Sys2Proof.Machine.execWaitMs s
  | .pindir p d => Sys2Proof.Machine.execPinDir p d s
  | .pinset p l => Sys2Proof.Machine.execPinSet p l s
  | .pinget p => Sys2Proof.Machine.execPinGet p s
  | .wait d => Sys2Proof.Machine.execWait d s

end Sys2Proof.Machine
end

