-- ==== Sys2Proof/Machine/HostPort.lean ====
section
/-! DEFINITION. The host's side of the command port (`44_bus_facade.md` R110): what each of its actions does, other than
the write of CMD, and the reset input (`70_reset_and_hazards.md` R141). -/

namespace Sys2Proof.Machine

/-- The host writes an operand register (`10_state.md` R22). A value that does not fit the register is none the
register can be given (log 11). -/
def hostWriteReg (r : RegName) (v : Nat) (s : State) : Res :=
  if v < 2 ^ regWidth s.cfg r then .next { s with x := s.x.set r ⟨v, true⟩ } else .refused .valueTooWide

/-- A read of the host is answered. -/
def answerHost (v : Option Nat) (s : State) : State := { s with hostReads := s.hostReads ++ [v] }

/-- The host reads an operand register (R22); `none` where it holds no value (R23). -/
def hostReadReg (r : RegName) (s : State) : Res :=
  .next (answerHost (if s.written r then some (s.reg r) else none) s)

/-- The host reads a byte of the buffer (R28). -/
def hostReadBuf (i : Nat) (s : State) : Res :=
  if i < s.cfg.bufLen then .next (answerHost ((s.buf.read i).map BitVec.toNat) s) else .fault .noSuchBufferByte

/-- The host reads STATUS (R25). -/
def hostReadStatus (s : State) : Res := .next (answerHost (some (statusWord s).toNat) s)

/-- Reset (R141, `10_state.md` R32): every item of state takes its reset value and no pin operation is made. The
parameters stay, and so does what lies outside the controller: what the host and the environment do next, and the
record of what has happened (log 12). -/
def resetNow (s : State) : State :=
  { State.resetOf s.cfg with
    hostQueue := s.hostQueue
    hostReads := s.hostReads
    levelsIn := s.levelsIn
    outcomesIn := s.outcomesIn
    draws := s.draws
    trace := s.trace
    engineLog := s.engineLog }

/-- The reset input is asserted: it has a meaning only while no command runs (R141). -/
def resetTurn (s : State) : Res := if s.busy then .refused .resetWhileBusy else .next (resetNow s)

end Sys2Proof.Machine
end

