-- ==== Sys2Proof/Machine/Fetch.lean ====
section
/-! DEFINITION. Whose turn it is, and the instruction that is next (`00_scope.md` R9): the reset input, the delay engine,
the request port and the sequencer while a command runs, and otherwise the host. -/

namespace Sys2Proof.Machine

/-- What the next step does: it runs an instruction at a state, or it is a step of an agent that runs none. -/
inductive Turn where
  | run (i : Instr) (s : State)
  | done (r : Res)

/-- The request at the head of the port is decoded and runs with the rest of the port left (`30_encoding.md` R50). -/
def requestTurn (w : Nat) (rest : List Nat) (s : State) : Turn :=
  match decode .req w with
  | .ok i => .run i { s with port := rest }
  | .error _ => .done (.refused .badRequest)

/-- A step while a command runs: the delay engine ends the wait in progress, or the sequencer takes an answer, or the
next request is carried out, or the sequencer goes to the next phase. The host has no step (`44_bus_facade.md` R109). -/
def busyTurn (s : State) : Turn :=
  match s.engine with
  | some _ => .done (finishWait s)
  | none =>
    match s.answer with
    | some l => .done (takeAnswer l s)
    | none =>
      match s.port with
      | w :: rest => requestTurn w rest s
      | [] => .done (advance s)

/-- One action of the host; the write of CMD launches the command its value encodes (`10_state.md` R24). -/
def hostTurn (a : HostAction) (s : State) : Turn :=
  match a with
  | .writeReg r v => .done (hostWriteReg r v s)
  | .writeBuf i b => .done (storeBuf i b s)
  | .writeCmd w =>
    match decode .cmd w with
    | .ok i => .run i s
    | .error _ => .done (.refused .reservedOpcode)
  | .readReg r => .done (hostReadReg r s)
  | .readBuf i => .done (hostReadBuf i s)
  | .readStatus => .done (hostReadStatus s)

/-- A step while no command runs: the host's next action; without one the controller waits (`10_state.md` R32). -/
def idleTurn (s : State) : Turn :=
  match s.hostQueue with
  | [] => .done (.next s)
  | a :: rest => hostTurn a { s with hostQueue := rest }

/-- What the next step does. -/
def nextTurn (s : State) : Turn :=
  if s.resetLine then .done (resetTurn s) else if s.busy then busyTurn s else idleTurn s

/-- A state in which the next step carries out a given request word. -/
def placeRequest (w : Nat) (s : State) : State :=
  { s with resetLine := false, busy := true, engine := none, answer := none, port := w :: s.port }

/-- A state in which the next step is the host's write of a given value to CMD. -/
def placeCommand (w : Nat) (s : State) : State :=
  { s with resetLine := false, busy := false, hostQueue := .writeCmd w :: s.hostQueue }

end Sys2Proof.Machine
end

