-- ==== Sys2Proof/Machine/Step.lean ====
section
/-! DEFINITION. One step of the machine, and the placing of an instruction where the next step fetches it. -/

namespace Sys2Proof.Machine

/-- One step: the instruction that is next runs, or an agent takes its turn. -/
def step (s : State) : Host.Outcome State Fault Refusal :=
  match nextTurn s with
  | .run i t => exec i t
  | .done r => r

/-- The state with a word of the opcode table where the next step fetches: a request on the request port of a busy
controller, a command as the next thing the host writes to CMD (log 4). -/
def State.withFetchWord (s : State) (nbits w : Nat) : State :=
  match tableFormat nbits w with
  | .req => placeRequest w s
  | .cmd => placeCommand w s

end Sys2Proof.Machine
end

