-- ==== Sys2Proof/Safety.lean ====
section
/-! DEFINITION. The terms claims are stated in: runs of several steps, what a state must be like for an instruction to
run, the sequences of events the spec gives whole transactions, and the invariants of the machine. -/

namespace Sys2Proof.Machine

/-! Runs. -/

/-- `k` steps, stopping at the first fault or refusal. -/
def runFor : Nat → State → Res
  | 0, s => .next s
  | k + 1, s => andThen (step s) (runFor k)

/-- From `s` some number of steps leads to `t`. -/
def Leads (s t : State) : Prop := ∃ k, runFor k s = .next t

/-- From `s` the machine comes to BUSY 0 and IDLE after finitely many steps, none of which stops it: the hold on the host
lifts (`44_bus_facade.md` R109). -/
def HoldLifts (s : State) : Prop := ∃ k u, runFor k s = .next u ∧ u.busy = false ∧ u.seq.phase = .idle

/-! What a state must be like. -/

/-- The host is not held and nothing is in progress (`10_state.md` R24, R30). -/
structure Ready (s : State) : Prop where
  notBusy : s.busy = false
  noReset : s.resetLine = false
  noWait : s.engine = none
  noAnswer : s.answer = none

/-- Every operand register of the list holds a value (R23). -/
def Holds (rs : List RegName) (s : State) : Prop := ∀ r ∈ rs, s.written r = true

/-- The pin environment has the four pins of a bus, each in the direction CONSTRUCT gave it
(`44_bus_facade.md` R114). -/
structure PinsReady (c : Context) (s : State) : Prop where
  mosi : pinExists s.cfg c.mosi = true ∧ s.dirOf c.mosi = some .output
  clk : pinExists s.cfg c.clk = true ∧ s.dirOf c.clk = some .output
  cs : pinExists s.cfg c.cs = true ∧ s.dirOf c.cs = some .output
  miso : pinExists s.cfg c.miso = true ∧ s.dirOf c.miso = some .input

/-- The next `n` waits end ok: under SPIN always (`41_delay_engine.md` R73), under SLEEP where the environment answers
so (R75). -/
def WaitsOk (n : Nat) (s : State) : Prop :=
  s.cfg.strategy = .spin ∨ ∃ rest, s.outcomesIn = List.replicate n .ok ++ rest

/-- WRITE and READ may be launched on context `c` (`44_bus_facade.md` R111), and its pins are as it left them. -/
structure TransferReady (c : Context) (s : State) : Prop where
  ready : Ready s
  holds : Holds [.aBus, .aSize] s
  inBank : s.reg .aBus < s.cfg.nBus
  context : s.ctx[s.reg .aBus]? = some c
  valid : c.valid = true
  freq : 1 ≤ c.freq
  size : s.reg .aSize ≤ s.cfg.bufLen
  pins : PinsReady c s

/-- An instruction is refused in a state. -/
def Refuses (i : Instr) (s : State) : Prop := ∃ r, exec i s = .refused r

/-- The opcode of a command; a micro-operation has none (R49). -/
def opcodeOf : Instr → Option Opcode
  | .construct => some .construct
  | .derive => some .derive
  | .write => some .write
  | .read => some .read
  | .waitns => some .waitns
  | .waitms => some .waitms
  | .pindir _ _ => none
  | .pinset _ _ => none
  | .pinget _ => none
  | .wait _ => none

/-! The events of whole commands (`42_write.md` R83, `43_read.md` R96). -/

/-- A successful wait of `ct` on a bus. -/
def quarter (c : Context) : Event := .wait (busTime c) .ok

/-- Steps 1 and 2 of a transaction; MOSI is preset where the flag says so. -/
def openingEvents (presets : Bool) (c : Context) : List Event :=
  (if presets then [.pinSet c.mosi low] else []) ++
    [.pinSet c.clk (idleLevel c), quarter c, .pinSet c.cs low]

/-- Steps 4 and 5 of a transaction. -/
def closingEvents (c : Context) : List Event :=
  [quarter c, .pinSet c.cs high, .wait (4 * busTime c) .ok]

/-- The events of one bit of a WRITE (`95_test_vectors.md` S6). -/
def writeBitEvents (c : Context) (v : Level) : List Event :=
  if c.cpha = 0#1 then
    [quarter c, .pinSet c.mosi v, quarter c, .pinSet c.clk (activeLevel c), quarter c, quarter c,
      .pinSet c.clk (idleLevel c)]
  else
    [quarter c, quarter c, .pinSet c.clk (activeLevel c), quarter c, .pinSet c.mosi v, quarter c,
      .pinSet c.clk (idleLevel c)]

/-- The bits of a byte in the order they go on the wire (`42_write.md` R82). -/
def wireBits (order : BitOrder) (b : Byte) : List Level := (List.finRange 8).map (wireBit order b)

/-- The events of a WRITE of these bytes that meets no TimingError. -/
def writeEvents (c : Context) (bytes : List Byte) : List Event :=
  openingEvents true c ++ (bytes.flatMap fun b => (wireBits c.order b).flatMap (writeBitEvents c)) ++
    closingEvents c

/-- The events of one bit of a READ that is answered `l` (`95_test_vectors.md` section 2.6). -/
def readBitEvents (c : Context) (l : Level) : List Event :=
  if c.cpha = 0#1 then
    [quarter c, quarter c, .pinGet c.miso l, .pinSet c.clk (activeLevel c), quarter c, quarter c,
      .pinSet c.clk (idleLevel c)]
  else
    [quarter c, quarter c, .pinSet c.clk (activeLevel c), quarter c, quarter c, .pinGet c.miso l,
      .pinSet c.clk (idleLevel c)]

/-- The events of a READ that is answered these levels and meets no TimingError. -/
def readEvents (presets : Bool) (c : Context) (levels : List Level) : List Event :=
  openingEvents presets c ++ levels.flatMap (readBitEvents c) ++ closingEvents c

/-- The event of a pin operation of CONSTRUCT (`44_bus_facade.md` R114). -/
def initEvent (c : Context) : InitOp → Event
  | .mosiDir => .pinDir c.mosi .output
  | .csDir => .pinDir c.cs .output
  | .csHigh => .pinSet c.cs high
  | .misoDir => .pinDir c.miso .input
  | .clkDir => .pinDir c.clk .output
  | .clkIdle => .pinSet c.clk (idleLevel c)

/-- The event is a PINSET of a given pin. -/
def Event.sets (p : Pin) : Event → Bool
  | .pinSet q _ => p == q
  | .pinDir _ _ => false
  | .pinGet _ _ => false
  | .wait _ _ => false

/-- The event is a PINSET. -/
def Event.isPinSet : Event → Bool
  | .pinSet _ _ => true
  | .pinDir _ _ => false
  | .pinGet _ _ => false
  | .wait _ _ => false

/-- The event is a PINGET. -/
def Event.isPinGet : Event → Bool
  | .pinGet _ _ => true
  | .pinSet _ _ => false
  | .pinDir _ _ => false
  | .wait _ _ => false

/-- The duration an event requests: that of a wait, and nothing for a pin operation. -/
def Event.requested : Event → Nat
  | .wait d _ => d
  | .pinSet _ _ => 0
  | .pinDir _ _ => 0
  | .pinGet _ _ => 0

/-- The event is a wait. -/
def Event.isWait : Event → Bool
  | .wait _ _ => true
  | .pinSet _ _ => false
  | .pinDir _ _ => false
  | .pinGet _ _ => false

/-! Invariants. -/

/-- A valid context keeps the invariants of `10_state.md` R18. -/
structure Context.Legal (cfg : Config) (c : Context) : Prop where
  freqPositive : 1 ≤ c.freq
  freqBounded : c.freq ≤ freqMax
  pinsDiffer : pinsDiffer c.mosi c.miso c.clk c.cs = true
  mosiFits : Pin.fits cfg c.mosi = true
  misoFits : Pin.fits cfg c.miso = true
  clkFits : Pin.fits cfg c.clk = true
  csFits : Pin.fits cfg c.cs = true

/-- The context bank has `N_BUS` contexts, and every valid one is legal (R17, R18). -/
structure BankLegal (s : State) : Prop where
  size : s.ctx.length = s.cfg.nBus
  legal : ∀ c ∈ s.ctx, c.valid = true → c.Legal s.cfg

/-- Every operand register's contents fit its width (R22). -/
def OperandsFit (s : State) : Prop := ∀ r, s.reg r < 2 ^ regWidth s.cfg r

/-- The buffer lists only bytes that exist, in canonical form, and the pin maps are canonical too (R28, R29). -/
structure MapsCanonical (s : State) : Prop where
  buf : s.buf.wf = true
  inBuf : ∀ cell ∈ s.buf, cell.1 < s.cfg.bufLen
  dirs : assocRising s.dirs = true
  outs : assocRising s.outs = true

/-- While BUSY is 0 the sequencer is idle and nothing is in progress; a wait and an answer are never in progress
together (`00_scope.md` R9; `10_state.md` R25, R27, R30). -/
structure Quiet (s : State) : Prop where
  phase : s.busy = false → s.seq.phase = .idle
  port : s.busy = false → s.port = []
  engine : s.busy = false → s.engine = none
  answer : s.busy = false → s.answer = none
  oneAgent : s.engine = none ∨ s.answer = none

/-- Under SPIN no command ever fails: no abort runs, and ERR is 0 (`41_delay_engine.md` R73). -/
def NoFailureUnderSpin (s : State) : Prop :=
  s.cfg.strategy = .spin → s.err = .ok ∧ s.seq.phase ≠ .abortCs

/-- The phases of a transaction's bit loop (R27). -/
def Phase.inBit : Phase → Bool
  | .aWait | .aAct | .bWait | .bAct | .cWait | .cAct | .dWait | .dAct => true
  | .idle | .init | .dly | .preMosi | .preClk | .preWait | .csLow | .postWait | .csHigh | .guardWait
  | .abortCs => false

/-- The phases of a transaction, its abort among them (R27). -/
def Phase.inTransfer : Phase → Bool
  | .idle | .init | .dly => false
  | .preMosi | .preClk | .preWait | .csLow | .aWait | .aAct | .bWait | .bAct | .cWait | .cAct | .dWait | .dAct
  | .postWait | .csHigh | .guardWait | .abortCs => true

/-- The micro-operations of the phase a transaction is in, the abort's among them (R91; `60_exceptions.md` R125). -/
def transferRow (c : Context) (s : State) : List Instr :=
  if s.seq.phase = .abortCs then [.pinset c.cs high] else rowOf c s

/-- A WRITE or READ is running on context `c`: the sequencer is in one of its phases, the port holds what is left of
that phase's requests, and what the launch checked still holds. -/
structure TransferRunning (c : Context) (s : State) : Prop where
  running : s.inTransaction = true
  noReset : s.resetLine = false
  noWait : s.engine = none
  context : s.ctx[s.tBus]? = some c
  freq : 1 ≤ c.freq
  pins : PinsReady c s
  canRead : s.tOp = .read → s.cfg.hasReadLevel = true
  phase : s.seq.phase.inTransfer = true
  size : s.tSize ≤ s.cfg.bufLen
  index : s.seq.phase.inBit = true → s.seq.byteIdx < s.tSize
  bytes : s.tOp = .write → s.buf.allWritten s.tSize = true
  requests : ∃ done, s.port = ((transferRow c s).drop done).map encode

end Sys2Proof.Machine
end

