-- ==== Sys2Proof/Certificates/Slice0/Obligations.lean ====
section
/-! DEFINITION. The statements about the model, for the provers: one `def Obligations.<Name> : Prop` each, in the order of
OBLIGATIONS.json. -/

open Sys2Proof Sys2Proof.Machine

/-! Encoding. -/

/-- Decoding the word of a well-formed instruction gives it back (R49, R50; where the fields of a request stand is the
model's choice, log 3). -/
def Obligations.DecodeOfEncodeIsTheInstruction : Prop :=
  ∀ (cfg : Config) (i : Instr), i.wf cfg = true → decode i.format (encode i) = .ok i

/-- A word that decodes is the word of what it decodes to: no two words of a format mean the same. -/
def Obligations.DecodedWordIsTheOnlyWord : Prop :=
  ∀ (f : Format) (w : Nat) (i : Instr), decode f w = .ok i → encode i = w ∧ i.format = f

/-- Words written out from R49 and R50 decode to their operations. -/
def Obligations.SpecWordsDecode : Prop :=
  decode .cmd 0b000 = .ok .construct ∧ decode .cmd 0b001 = .ok .derive ∧
  decode .cmd 0b010 = .ok .write ∧ decode .cmd 0b011 = .ok .read ∧
  decode .cmd 0b100 = .ok .waitns ∧ decode .cmd 0b101 = .ok .waitms ∧
  decode .cmd 0b110 = .error .reservedOpcode ∧ decode .cmd 0b111 = .error .reservedOpcode ∧
  decode .req 0b1011_1_00 = .ok (.pindir 11 .output) ∧ decode .req 0b1100_0_00 = .ok (.pindir 12 .input) ∧
  decode .req 0b1010_1_01 = .ok (.pinset 10 high) ∧ decode .req 0b1100_0_10 = .ok (.pinget 12) ∧
  decode .req 0b11111010_11 = .ok (.wait 250)

/-- What R56 calls without meaning is refused: reserved opcodes, modes outside 1..4, speeds 0 or above `FREQ_MAX`,
handles not below `N_BUS`, sizes above `BUF_LEN`. -/
def Obligations.ReservedAndIllegalValuesAreRefused : Prop :=
  ∀ s : State,
    (∀ w rest, (w = 6 ∨ w = 7) → s.busy = false → s.resetLine = false → s.hostQueue = .writeCmd w :: rest →
      step s = .refused .reservedOpcode) ∧
    ((s.reg .aMode = 0 ∨ 5 ≤ s.reg .aMode) → Refuses .construct s) ∧
    ((s.reg .aSpeed = 0 ∨ 2 ^ 30 - 1 < s.reg .aSpeed) → Refuses .construct s) ∧
    (s.cfg.nBus ≤ s.reg .aBus →
      Refuses .construct s ∧ Refuses .derive s ∧ Refuses .write s ∧ Refuses .read s) ∧
    (s.cfg.nBus ≤ s.reg .aSrc → Refuses .derive s) ∧
    (s.cfg.bufLen < s.reg .aSize → Refuses .write s ∧ Refuses .read s)

/-! The step. -/

/-- A step runs the instruction that is next: the request at the head of the port of a busy controller, or the command
a free host writes to CMD; the step takes it off the port or the host's queue and adds nothing else. -/
def Obligations.StepRunsTheDecodedInstruction : Prop :=
  (∀ (s : State) (w : Nat) (rest : List Nat) (i : Instr),
    s.resetLine = false → s.busy = true → s.engine = none → s.answer = none → s.port = w :: rest →
    decode .req w = .ok i → step s = exec i { s with port := rest }) ∧
  (∀ (s : State) (w : Nat) (rest : List HostAction) (i : Instr),
    s.resetLine = false → s.busy = false → s.hostQueue = .writeCmd w :: rest →
    decode .cmd w = .ok i → step s = exec i { s with hostQueue := rest })

/-- An idle controller whose host does nothing waits (R32). -/
def Obligations.IdleControllerWaits : Prop :=
  ∀ s : State, s.resetLine = false → s.busy = false → s.hostQueue = [] → step s = .next s

/-! Operand forms. -/

/-- MODE_DECODE on every selector, and the mode constants through `m = K - 1`; the mode number comes back as
`2*CPOL + CPHA + 1` (R59, R60, R20). -/
def Obligations.ModeDecodeIsTheTable : Prop :=
  (∀ m : BitVec 2, (modeDecode m).1 = BitVec.ofBool (m.getLsbD 1) ∧ (modeDecode m).2 = BitVec.ofBool (m.getLsbD 0)) ∧
  modeDecode (modeSelector 1) = (0#1, 0#1) ∧ modeDecode (modeSelector 2) = (0#1, 1#1) ∧
  modeDecode (modeSelector 3) = (1#1, 0#1) ∧ modeDecode (modeSelector 4) = (1#1, 1#1) ∧
  (∀ m m' : BitVec 2, modeDecode m = modeDecode m' → m = m') ∧
  (∀ k, 1 ≤ k → k ≤ 4 →
    2 * (modeDecode (modeSelector k)).1.toNat + (modeDecode (modeSelector k)).2.toNat + 1 = k)

/-- The quarter-cycle time over the legal frequencies: no product leaves 32 bits, `ct` is at most 250,000,000 and is 0
exactly above 250,000,000 Hz, the requested bit period is at most one period, and no wait of a transaction overflows
`DUR_W` (R81, R71). -/
def Obligations.QuarterCycleBounds : Prop :=
  ∀ f, 1 ≤ f → f ≤ freqMax →
    f * 4 < 2 ^ 32 ∧ quarterCycle f = 1000000000 / (f * 4) ∧ quarterCycle f ≤ 250000000 ∧
    4 * quarterCycle f * f ≤ 1000000000 ∧ (quarterCycle f = 0 ↔ 250000000 < f) ∧
    4 * quarterCycle f ≤ 1000000000 ∧ 4 * quarterCycle f < 2 ^ durW ∧
    (999999999 < 4 * quarterCycle f ↔ f = 1)

/-- SPLIT is exact and in range for every 32-bit duration, and its pair is what a WAIT under SLEEP requests (R74). -/
def Obligations.SplitIsExact : Prop :=
  (∀ d, d < 2 ^ durW →
    (splitDuration d).1 = d / 1000000000 ∧ (splitDuration d).2 = d % 1000000000 ∧
    (splitDuration d).1 ≤ 4 ∧ (splitDuration d).2 ≤ 999999999 ∧
    (splitDuration d).1 * 1000000000 + (splitDuration d).2 = d ∧
    (d ≤ 999999999 → splitDuration d = (0, d))) ∧
  splitDuration 2500000000 = (2, 500000000) ∧
  ∀ cfg d, cfg.strategy = .sleep → waitRequest cfg d = .nanosleep (d / 1000000000) (d % 1000000000)

/-- A longer wait never takes fewer spin iterations nor requests a shorter sleep, whatever `spinCount` is (R77). -/
def Obligations.DelaysAreMonotone : Prop :=
  ∀ (cfg : Config) (d₁ d₂ : Nat), d₁ ≤ d₂ →
    (cfg.strategy = .spin → ∃ n₁ n₂, waitRequest cfg d₁ = .spin n₁ ∧ waitRequest cfg d₂ = .spin n₂ ∧ n₁ ≤ n₂) ∧
    (cfg.strategy = .sleep → ∃ s₁ r₁ s₂ r₂, waitRequest cfg d₁ = .nanosleep s₁ r₁ ∧
      waitRequest cfg d₂ = .nanosleep s₂ r₂ ∧ s₁ * 1000000000 + r₁ ≤ s₂ * 1000000000 + r₂)

/-- The two orders put a byte's bits on the wire in exactly reversed order, position 7 first or position 0 first; the
two streams of 0xA5 are equal (R82, R95). -/
def Obligations.BitOrdersAreReversed : Prop :=
  (∀ j : Fin 8, bitPos .msbFirst j = 7 - j.val ∧ bitPos .lsbFirst j = j.val) ∧
  wireBits .msbFirst 0xA5#8 = [1, 0, 1, 0, 0, 1, 0, 1] ∧ wireBits .lsbFirst 0xA5#8 = [1, 0, 1, 0, 0, 1, 0, 1] ∧
  ∀ b : Byte, wireBits .msbFirst b = (wireBits .lsbFirst b).reverse ∧
    wireBits .lsbFirst b = (List.range 8).map fun p => BitVec.ofBool (b.getLsbD p)

/-- Eight sampled levels composed from zero give the byte that has each of them at its bit's position; fed the bits a
WRITE of the same order puts on the wire, the byte is the one written (R98, R103, R107). -/
def Obligations.ReadComposesWhatItSamples : Prop :=
  ∀ (order : BitOrder) (l : Fin 8 → Level),
    let byte := (List.finRange 8).foldl (fun b j => composeBit order b j (l j)) 0#8
    (∀ j, BitVec.ofBool (byte.getLsbD (bitPos order j)) = l j) ∧
    ∀ b : Byte, (∀ j, l j = wireBit order b j) → byte = b

/-! Pin micro-operations. -/

/-- PINDIR sets the direction of its pin and nothing else (R35). -/
def Obligations.PinDirSetsTheDirection : Prop :=
  ∀ (s : State) (p : Pin) (d : Dir), pinExists s.cfg p = true →
    ∃ t, exec (.pindir p d) s = .next t ∧ t.dirOf p = some d ∧ (∀ q, q ≠ p → t.dirOf q = s.dirOf q) ∧
      t.trace = s.trace ++ [.pinDir p d] ∧ t = { s with dirs := t.dirs, trace := t.trace }

/-- PINSET drives its pin, which then carries the level, and does nothing else (R36); it is an event of the trace
whether or not the level changes. -/
def Obligations.PinSetDrivesThePin : Prop :=
  ∀ (s : State) (p : Pin) (l : Level), pinExists s.cfg p = true → s.dirOf p = some .output →
    ∃ t, exec (.pinset p l) s = .next t ∧ t.outOf p = some l ∧ t.driven p = some l ∧
      (∀ q, q ≠ p → t.outOf q = s.outOf q ∧ t.driven q = s.driven q) ∧
      t.trace = s.trace ++ [.pinSet p l] ∧ t = { s with outs := t.outs, trace := t.trace }

/-- PINGET answers one level, the environment's, takes exactly that one from it, and changes no controller state but the
port's answer (R37, R31). -/
def Obligations.PinGetAnswersTheEnvironmentsLevel : Prop :=
  ∀ (s : State) (p : Pin), s.cfg.hasReadLevel = true → pinExists s.cfg p = true → s.dirOf p = some .input →
    ∃ t l, exec (.pinget p) s = .next t ∧ t.answer = some l ∧ t.trace = s.trace ++ [.pinGet p l] ∧
      (∀ l' rest, s.levelsIn = l' :: rest → l = l' ∧ t.levelsIn = rest ∧ t.draws = s.draws) ∧
      (s.levelsIn = [] → t.levelsIn = [] ∧ t.draws = s.draws + 1) ∧
      t = { s with answer := t.answer, trace := t.trace, levelsIn := t.levelsIn, draws := t.draws }

/-- The pin layer's failures are refused: a pin in the wrong direction, or one the environment does not have (R38). -/
def Obligations.PinLayerFailuresAreRefused : Prop :=
  ∀ (s : State) (p : Pin) (d : Dir) (l : Level),
    (pinExists s.cfg p = false → Refuses (.pindir p d) s ∧ Refuses (.pinset p l) s ∧ Refuses (.pinget p) s) ∧
    (s.dirOf p ≠ some .output → Refuses (.pinset p l) s) ∧
    (s.dirOf p ≠ some .input → Refuses (.pinget p) s)

/-! The delay engine. -/

/-- A WAIT that ends ok asks the engine for its duration, is recorded, takes exactly its own outcome from the
environment, and does nothing else; the engine then holds nothing (R69, R30, R31). A duration of 0 is no exception
(R70). -/
def Obligations.WaitCompletes : Prop :=
  ∀ (s : State) (d : Nat), (engineOutcome s).1 = .ok →
    ∃ t, exec (.wait d) s = .next t ∧ t.engine = none ∧
      t.trace = s.trace ++ [.wait d .ok] ∧ t.engineLog = s.engineLog ++ [(waitRequest s.cfg d, .ok)] ∧
      (s.cfg.strategy = .spin → t.outcomesIn = s.outcomesIn ∧ t.draws = s.draws) ∧
      (∀ rest, s.cfg.strategy = .sleep → s.outcomesIn = .ok :: rest → t.outcomesIn = rest ∧ t.draws = s.draws) ∧
      t = { s with
        engine := none
        trace := t.trace
        engineLog := t.engineLog
        outcomesIn := t.outcomesIn
        draws := t.draws }

/-- A WAIT of a transaction that fails, with whichever kind the environment answers, goes to ABORT_CS with the kind
kept; the run leads on to a state in which chip-select has been driven high by the command's last micro-operation, ERR
holds the kind, BUSY is 0 and the sequencer is idle; the other pins, the buffer, the contexts and the operand registers
are as they were (R125). -/
def Obligations.FailedWaitAbortsTheTransaction : Prop :=
  ∀ (s : State) (c : Context) (d : Nat) (k : WaitOutcome),
    s.inTransaction = true → s.resetLine = false → s.answer = none → s.ctx[s.tBus]? = some c →
    pinExists s.cfg c.cs = true → s.dirOf c.cs = some .output →
    s.cfg.strategy = .sleep → (drawOutcome s).1 = k → k ≠ .ok →
    ∃ t u, exec (.wait d) s = .next t ∧ t.seq.phase = .abortCs ∧ t.busy = true ∧
      t.port = [encode (.pinset c.cs high)] ∧ Leads t u ∧
      u.trace = s.trace ++ [.wait d k, .pinSet c.cs high] ∧
      u.err = k ∧ u.busy = false ∧ u.seq.phase = .idle ∧ u.port = [] ∧ u.engine = none ∧
      u.outOf c.cs = some high ∧ (∀ q, q ≠ c.cs → u.outOf q = s.outOf q) ∧
      u.dirs = s.dirs ∧ u.buf = s.buf ∧ u.ctx = s.ctx ∧ u.x = s.x ∧ u.hostQueue = s.hostQueue

/-- A WAIT that fails outside a transaction, as in WAITNS, ends the command at once with its kind in ERR; no pin is
touched (R126). -/
def Obligations.FailedWaitEndsWaitNs : Prop :=
  ∀ (s : State) (d : Nat) (k : WaitOutcome),
    s.inTransaction = false → s.cfg.strategy = .sleep → (drawOutcome s).1 = k → k ≠ .ok →
    ∃ t, exec (.wait d) s = .next t ∧ t.err = k ∧ t.busy = false ∧ t.seq.phase = .idle ∧ t.port = [] ∧
      t.engine = none ∧ t.trace = s.trace ++ [.wait d k] ∧
      t = { s with
        err := k
        busy := false
        seq := t.seq
        port := []
        engine := none
        trace := t.trace
        engineLog := t.engineLog
        outcomesIn := t.outcomesIn
        draws := t.draws }

/-! The host commands. -/

/-- Every command that is launched has BUSY 1, ERR 0 and its opcode in T_OP; a transaction has its operands copied; no
pin, buffer byte, operand register or event is touched by the launch (R108, R25). -/
def Obligations.LaunchSetsStatus : Prop :=
  ∀ (s t : State) (i : Instr) (op : Opcode), opcodeOf i = some op → exec i s = .next t →
    s.busy = false ∧ t.busy = true ∧ t.err = .ok ∧ t.tOp = op ∧
    ((op = .write ∨ op = .read) → t.tBus = s.reg .aBus ∧ t.tSize = s.reg .aSize) ∧
    (op ≠ .construct → op ≠ .derive → t.ctx = s.ctx) ∧
    t.cfg = s.cfg ∧ t.x = s.x ∧ t.buf = s.buf ∧ t.dirs = s.dirs ∧ t.outs = s.outs ∧ t.trace = s.trace ∧
    t.hostQueue = s.hostQueue

/-- A command that reads an operand register holding no value is refused (R23). -/
def Obligations.UnwrittenOperandIsRefused : Prop :=
  ∀ s : State,
    (∀ r ∈ [RegName.aBus, .aMosi, .aMiso, .aClk, .aCs, .aMode, .aOrder, .aSpeed],
      s.written r = false → Refuses .construct s) ∧
    (∀ r ∈ [RegName.aBus, .aSrc, .aCs], s.written r = false → Refuses .derive s) ∧
    (∀ r ∈ [RegName.aBus, .aSize], s.written r = false → Refuses .write s ∧ Refuses .read s) ∧
    (s.written .aDur = false → Refuses .waitns s ∧ Refuses .waitms s)

/-- CONSTRUCT with legal operands completes: the context is the record of its operands with the mode decoded, the pins
are initialised by exactly the six operations of `INIT_ORDER`, and nothing else changes (R113, R114). That the level
recorded for MOSI stays is the model's choice (log 20): what is on that wire is unspecified (R115). -/
def Obligations.ConstructCompletes : Prop :=
  ∀ s : State, Ready s → s.cfg.wf = true → s.ctx.length = s.cfg.nBus →
    Holds [.aBus, .aMosi, .aMiso, .aClk, .aCs, .aMode, .aOrder, .aSpeed] s →
    s.reg .aBus < s.cfg.nBus → 1 ≤ s.reg .aMode → s.reg .aMode ≤ 4 →
    1 ≤ s.reg .aSpeed → s.reg .aSpeed ≤ 2 ^ 30 - 1 →
    pinsDiffer (s.reg .aMosi) (s.reg .aMiso) (s.reg .aClk) (s.reg .aCs) = true →
    (∀ r ∈ [RegName.aMosi, .aMiso, .aClk, .aCs], pinExists s.cfg (s.reg r) = true) →
    ∃ (c : Context) (t u : State),
      c = { valid := true
            mosi := s.reg .aMosi
            miso := s.reg .aMiso
            clk := s.reg .aClk
            cs := s.reg .aCs
            cpol := BitVec.ofBool ((s.reg .aMode - 1).testBit 1)
            cpha := BitVec.ofBool ((s.reg .aMode - 1).testBit 0)
            order := if s.reg .aOrder = 0 then .msbFirst else .lsbFirst
            freq := s.reg .aSpeed } ∧
      exec .construct s = .next t ∧ t.seq.phase = .init ∧ Leads t u ∧
      u.ctx[s.reg .aBus]? = some c ∧ (∀ b, b ≠ s.reg .aBus → u.ctx[b]? = s.ctx[b]?) ∧
      u.ctx.length = s.ctx.length ∧
      u.trace = s.trace ++ s.cfg.initOrder.map (initEvent c) ∧
      u.dirOf c.mosi = some .output ∧ u.dirOf c.miso = some .input ∧ u.dirOf c.clk = some .output ∧
      u.dirOf c.cs = some .output ∧ u.outOf c.cs = some high ∧ u.outOf c.clk = some c.cpol ∧
      u.outOf c.mosi = s.outOf c.mosi ∧
      (∀ p, c.hasPin p = false → u.dirOf p = s.dirOf p ∧ u.outOf p = s.outOf p) ∧
      u.busy = false ∧ u.err = .ok ∧ u.seq.phase = .idle ∧ u.buf = s.buf ∧ u.x = s.x ∧ u.hostQueue = s.hostQueue

/-- CONSTRUCT is refused, before anything is written, in each case R116 lists. -/
def Obligations.ConstructIsRefused : Prop :=
  ∀ s : State,
    (s.cfg.nBus ≤ s.reg .aBus ∨
      (∃ r ∈ [RegName.aMosi, .aMiso, .aClk, .aCs, .aMode], s.written r = false) ∨
      ¬(1 ≤ s.reg .aMode ∧ s.reg .aMode ≤ 4) ∨ s.reg .aSpeed = 0 ∨ 2 ^ 30 - 1 < s.reg .aSpeed ∨
      s.reg .aMosi = s.reg .aMiso ∨ s.reg .aMosi = s.reg .aClk ∨ s.reg .aMosi = s.reg .aCs ∨
      s.reg .aMiso = s.reg .aClk ∨ s.reg .aMiso = s.reg .aCs ∨ s.reg .aClk = s.reg .aCs) →
    Refuses .construct s

/-- DERIVE with legal operands completes: the new context is a copy of its source with the new chip-select, only that
pin is initialised, and the source and every other context stay bit for bit (R118, R119, R120). -/
def Obligations.DeriveCompletes : Prop :=
  ∀ (s : State) (src : Context), Ready s → s.ctx.length = s.cfg.nBus → Holds [.aBus, .aSrc, .aCs] s →
    s.reg .aBus < s.cfg.nBus → s.reg .aSrc < s.cfg.nBus → s.reg .aBus ≠ s.reg .aSrc →
    s.ctx[s.reg .aSrc]? = some src → src.valid = true → src.hasPin (s.reg .aCs) = false →
    pinExists s.cfg (s.reg .aCs) = true →
    ∃ t u, exec .derive s = .next t ∧ t.seq.phase = .init ∧ Leads t u ∧
      u.ctx[s.reg .aBus]? = some
        { valid := true
          mosi := src.mosi
          miso := src.miso
          clk := src.clk
          cs := s.reg .aCs
          cpol := src.cpol
          cpha := src.cpha
          order := src.order
          freq := src.freq } ∧
      u.ctx[s.reg .aSrc]? = some src ∧ (∀ b, b ≠ s.reg .aBus → u.ctx[b]? = s.ctx[b]?) ∧
      u.trace = s.trace ++ [.pinDir (s.reg .aCs) .output, .pinSet (s.reg .aCs) high] ∧
      u.dirOf (s.reg .aCs) = some .output ∧ u.outOf (s.reg .aCs) = some high ∧
      (∀ p, p ≠ s.reg .aCs → u.dirOf p = s.dirOf p ∧ u.outOf p = s.outOf p) ∧
      u.busy = false ∧ u.err = .ok ∧ u.seq.phase = .idle ∧ u.buf = s.buf ∧ u.x = s.x ∧ u.hostQueue = s.hostQueue

/-- DERIVE is refused, before anything is written, in each case R121 lists. -/
def Obligations.DeriveIsRefused : Prop :=
  ∀ s : State,
    (s.cfg.nBus ≤ s.reg .aBus ∨ s.cfg.nBus ≤ s.reg .aSrc ∨
      (∀ c, s.ctx[s.reg .aSrc]? = some c → c.valid = false) ∨ s.reg .aBus = s.reg .aSrc ∨
      s.written .aCs = false ∨
      (∃ c, s.ctx[s.reg .aSrc]? = some c ∧
        (s.reg .aCs = c.mosi ∨ s.reg .aCs = c.miso ∨ s.reg .aCs = c.clk ∨ s.reg .aCs = c.cs))) →
    Refuses .derive s

/-- WRITE and READ are refused, before any micro-operation, in each case R111 lists. -/
def Obligations.TransferIsRefused : Prop :=
  ∀ s : State,
    ((s.cfg.nBus ≤ s.reg .aBus ∨ (∀ c, s.ctx[s.reg .aBus]? = some c → c.valid = false) ∨
        s.written .aSize = false ∨ s.cfg.bufLen < s.reg .aSize) →
      Refuses .write s ∧ Refuses .read s) ∧
    ((∃ i, i < s.reg .aSize ∧ s.buf.read i = none) → Refuses .write s) ∧
    (s.cfg.hasReadLevel = false → Refuses .read s)

/-- WRITE completes: from its launch, if its `3 + 32n` waits end ok, the machine comes to rest having issued exactly the
sequence of R83 for the `n` bytes of the buffer in ascending order; the buffer, the contexts, the operand registers and
every other pin are as they were. -/
def Obligations.WriteCompletes : Prop :=
  ∀ (s : State) (c : Context) (bytes : List Byte), TransferReady c s → bytes.length = s.reg .aSize →
    (∀ i, i < s.reg .aSize → s.buf.read i = bytes[i]?) → WaitsOk (3 + 32 * s.reg .aSize) s →
    ∃ t u, exec .write s = .next t ∧ t.seq.phase = .preMosi ∧ Leads t u ∧
      u.trace = s.trace ++ writeEvents c bytes ∧
      u.busy = false ∧ u.err = .ok ∧ u.seq.phase = .idle ∧
      u.buf = s.buf ∧ u.ctx = s.ctx ∧ u.x = s.x ∧ u.dirs = s.dirs ∧ u.levelsIn = s.levelsIn ∧
      u.hostQueue = s.hostQueue ∧
      (∀ p, p ≠ c.mosi → p ≠ c.clk → p ≠ c.cs → u.outOf p = s.outOf p)

/-- READ completes: from its launch, if its waits end ok and the environment answers `levels`, the machine comes to rest
having issued exactly the sequence of R96, and bit `BITPOS(ORDER, j)` of byte `i` of the buffer is the answer to the PINGET
of byte `i`, bit `j`; the rest of the buffer and everything else is as it was (R103). -/
def Obligations.ReadCompletes : Prop :=
  ∀ (s : State) (c : Context) (levels rest : List Level), TransferReady c s → s.cfg.hasReadLevel = true →
    s.levelsIn = levels ++ rest → levels.length = 8 * s.reg .aSize → WaitsOk (3 + 32 * s.reg .aSize) s →
    ∃ t u, exec .read s = .next t ∧ t.seq.phase = .preMosi ∧ Leads t u ∧
      u.trace = s.trace ++ readEvents s.cfg.readPresetsMosi c levels ∧
      (∀ i, i < s.reg .aSize → ∃ b, u.buf.read i = some b ∧
        ∀ j : Fin 8, levels[8 * i + j.val]? = some (BitVec.ofBool (b.getLsbD (bitPos c.order j)))) ∧
      (∀ i, s.reg .aSize ≤ i → u.buf.read i = s.buf.read i) ∧
      u.busy = false ∧ u.err = .ok ∧ u.seq.phase = .idle ∧
      u.ctx = s.ctx ∧ u.x = s.x ∧ u.dirs = s.dirs ∧ u.levelsIn = rest ∧ u.hostQueue = s.hostQueue ∧
      (∀ p, p ≠ c.mosi → p ≠ c.clk → p ≠ c.cs → u.outOf p = s.outOf p)

/-- The events a completed WRITE adds to the trace: `4 + 24n` PINSETs, `3 + 32n` WAITs, no PINGET and no PINDIR, requested
durations that sum to `(32n + 6) * ct` (R92). -/
def Obligations.WriteEventCounts : Prop :=
  ∀ (s : State) (c : Context) (bytes : List Byte), TransferReady c s → bytes.length = s.reg .aSize →
    (∀ i, i < s.reg .aSize → s.buf.read i = bytes[i]?) → WaitsOk (3 + 32 * s.reg .aSize) s →
    ∃ t u events, exec .write s = .next t ∧ Leads t u ∧ u.busy = false ∧ u.trace = s.trace ++ events ∧
      events.countP Event.isPinSet = 4 + 24 * s.reg .aSize ∧ events.countP Event.isWait = 3 + 32 * s.reg .aSize ∧
      events.countP Event.isPinGet = 0 ∧ events.length = 7 + 56 * s.reg .aSize ∧
      (events.map Event.requested).sum = (32 * s.reg .aSize + 6) * (1000000000 / (c.freq * 4))

/-- Chip-select frames a completed WRITE: of the events it adds, exactly two set CS_PIN, low before every bit and high
after the last, with all `16n` clock edges and `8n` data drives between them (R93). -/
def Obligations.ChipSelectFramesTheWrite : Prop :=
  ∀ (s : State) (c : Context) (bytes : List Byte), TransferReady c s →
    pinsDiffer c.mosi c.miso c.clk c.cs = true → bytes.length = s.reg .aSize →
    (∀ i, i < s.reg .aSize → s.buf.read i = bytes[i]?) → WaitsOk (3 + 32 * s.reg .aSize) s →
    ∃ t u before frame after, exec .write s = .next t ∧ Leads t u ∧ u.busy = false ∧
      u.trace = s.trace ++ before ++ [.pinSet c.cs low] ++ frame ++ [.pinSet c.cs high] ++ after ∧
      before.countP (Event.sets c.cs) = 0 ∧ frame.countP (Event.sets c.cs) = 0 ∧
      after.countP (Event.sets c.cs) = 0 ∧
      frame.countP (Event.sets c.clk) = 16 * s.reg .aSize ∧
      frame.countP (Event.sets c.mosi) = 8 * s.reg .aSize ∧
      after.countP Event.isPinSet = 0 ∧ u.outOf c.cs = some high

/-- The events a completed READ adds to the trace: `8n` PINGETs, `3 + 16n` PINSETs or one more where MOSI is preset,
`3 + 32n` WAITs, which are all of them, so no PINDIR (R106). -/
def Obligations.ReadEventCounts : Prop :=
  ∀ (s : State) (c : Context) (levels rest : List Level), TransferReady c s → s.cfg.hasReadLevel = true →
    s.levelsIn = levels ++ rest → levels.length = 8 * s.reg .aSize → WaitsOk (3 + 32 * s.reg .aSize) s →
    ∃ t u events, exec .read s = .next t ∧ Leads t u ∧ u.busy = false ∧ u.trace = s.trace ++ events ∧
      events.length = (if s.cfg.readPresetsMosi then 7 else 6) + 56 * s.reg .aSize ∧
      events.countP Event.isPinGet = 8 * s.reg .aSize ∧
      events.countP Event.isPinSet = (if s.cfg.readPresetsMosi then 4 else 3) + 16 * s.reg .aSize ∧
      events.countP Event.isWait = 3 + 32 * s.reg .aSize ∧
      (events.map Event.requested).sum = (32 * s.reg .aSize + 6) * (1000000000 / (c.freq * 4))

/-- The bytes a READ returns are a function of the levels the environment answers and of ORDER, and of nothing else: two
READs of one length that are answered alike under one ORDER return the same bytes, whatever their modes, frequencies,
pins and instances (R103). -/
def Obligations.ReadBytesDependOnlyOnAnswersAndOrder : Prop :=
  ∀ (s₁ s₂ : State) (c₁ c₂ : Context) (levels rest₁ rest₂ : List Level),
    TransferReady c₁ s₁ → s₁.cfg.hasReadLevel = true → s₁.levelsIn = levels ++ rest₁ →
    WaitsOk (3 + 32 * s₁.reg .aSize) s₁ →
    TransferReady c₂ s₂ → s₂.cfg.hasReadLevel = true → s₂.levelsIn = levels ++ rest₂ →
    WaitsOk (3 + 32 * s₂.reg .aSize) s₂ →
    levels.length = 8 * s₁.reg .aSize → s₁.reg .aSize = s₂.reg .aSize → c₁.order = c₂.order →
    ∃ t₁ u₁ t₂ u₂, exec .read s₁ = .next t₁ ∧ Leads t₁ u₁ ∧ u₁.busy = false ∧ u₁.err = .ok ∧
      exec .read s₂ = .next t₂ ∧ Leads t₂ u₂ ∧ u₂.busy = false ∧ u₂.err = .ok ∧
      ∀ i, i < s₁.reg .aSize → u₁.buf.read i = u₂.buf.read i ∧ (u₁.buf.read i).isSome = true

/-- After every transaction that completes, the clock is driven to the bus's idle level and chip-select is high (R66). -/
def Obligations.ClockIsIdleAfterATransaction : Prop :=
  ∀ (s : State) (c : Context), TransferReady c s → pinsDiffer c.mosi c.miso c.clk c.cs = true →
    WaitsOk (3 + 32 * s.reg .aSize) s →
    (s.buf.allWritten (s.reg .aSize) = true →
      ∃ t u, exec .write s = .next t ∧ Leads t u ∧ u.busy = false ∧ u.err = .ok ∧
        u.outOf c.clk = some c.cpol ∧ u.outOf c.cs = some high) ∧
    (s.cfg.hasReadLevel = true → 8 * s.reg .aSize ≤ s.levelsIn.length →
      ∃ t u, exec .read s = .next t ∧ Leads t u ∧ u.busy = false ∧ u.err = .ok ∧
        u.outOf c.clk = some c.cpol ∧ u.outOf c.cs = some high)

/-- WAITNS, in whichever way its wait ends: one WAIT of `A_DUR` nanoseconds with the outcome the environment answers, which
ERR then holds (0 where it is ok, the kind of the failure otherwise); exactly that outcome is taken, and no pin, no
context and no buffer byte is touched (R78, R126). -/
def Obligations.WaitNsCompletes : Prop :=
  ∀ s : State, Ready s → Holds [.aDur] s → s.reg .aDur < 2 ^ durW →
    ∃ t u, exec .waitns s = .next t ∧ t.seq.phase = .dly ∧ t.busy = true ∧ Leads t u ∧
      u.err = (engineOutcome s).1 ∧ u.busy = false ∧ u.seq.phase = .idle ∧ u.engine = none ∧ u.port = [] ∧
      u.trace = s.trace ++ [.wait (s.reg .aDur) (engineOutcome s).1] ∧
      u.engineLog = s.engineLog ++ [(waitRequest s.cfg (s.reg .aDur), (engineOutcome s).1)] ∧
      u.outcomesIn = (engineOutcome s).2.outcomesIn ∧ u.draws = (engineOutcome s).2.draws ∧
      u.dirs = s.dirs ∧ u.outs = s.outs ∧ u.ctx = s.ctx ∧ u.buf = s.buf ∧ u.x = s.x ∧ u.hostQueue = s.hostQueue

/-- WAITMS up to 4,294,967 ms, in whichever way its wait ends: the engine is asked for `A_DUR * 1000` microseconds of sleep,
or spins `spinCount(A_DUR * 1,000,000)` iterations; ERR then holds the outcome the environment answers (0 where it is ok,
the kind of the failure otherwise); exactly that outcome is taken, and no pin, no context and no buffer byte is touched.
Above the bound it is refused (R79, R126). That its wait is no event of the trace is the model's reading (log 14). -/
def Obligations.WaitMsCompletes : Prop :=
  ∀ s : State, Ready s → Holds [.aDur] s →
    (s.reg .aDur ≤ 4294967 →
      ∃ t u req, exec .waitms s = .next t ∧ t.seq.phase = .dly ∧ t.busy = true ∧ t.engine = some req ∧
        (s.cfg.strategy = .sleep → req = .usleep (s.reg .aDur * 1000)) ∧
        (s.cfg.strategy = .spin → req = .spin (spinCount s.cfg (s.reg .aDur * 1000000))) ∧
        Leads t u ∧ u.err = (engineOutcome s).1 ∧ u.busy = false ∧ u.seq.phase = .idle ∧ u.engine = none ∧
        u.port = [] ∧ u.engineLog = s.engineLog ++ [(req, (engineOutcome s).1)] ∧ u.trace = s.trace ∧
        u.outcomesIn = (engineOutcome s).2.outcomesIn ∧ u.draws = (engineOutcome s).2.draws ∧
        u.dirs = s.dirs ∧ u.outs = s.outs ∧ u.ctx = s.ctx ∧ u.buf = s.buf ∧ u.x = s.x ∧
        u.hostQueue = s.hostQueue) ∧
    (4294967 < s.reg .aDur → exec .waitms s = .refused .durationTooLarge)

/-! The whole machine. -/

/-- Reset leaves what R32 says, for every instance. -/
def Obligations.ResetValues : Prop :=
  ∀ cfg : Config, ∃ s, s = State.resetOf cfg ∧
    s.ctx.length = cfg.nBus ∧ (∀ c ∈ s.ctx, c.valid = false) ∧
    (∀ r ∈ [RegName.aBus, .aSrc, .aOrder], s.written r = true ∧ s.reg r = 0) ∧
    s.written .aSpeed = true ∧ s.reg .aSpeed = 1000000 ∧
    (∀ r ∈ [RegName.aMosi, .aMiso, .aClk, .aCs, .aMode, .aSize, .aDur], s.written r = false) ∧
    s.busy = false ∧ s.err = .ok ∧ s.seq.phase = .idle ∧ (∀ i, s.buf.read i = none) ∧
    (∀ p, s.dirOf p = none ∧ s.outOf p = none) ∧ s.engine = none

/-- The reset input puts an idle controller into the reset state of its instance with no pin operation, and has no
meaning while a command runs (R141). -/
def Obligations.ResetInputOnlyWhenIdle : Prop :=
  ∀ s : State, s.resetLine = true →
    (s.busy = true → step s = .refused .resetWhileBusy) ∧
    (s.busy = false → ∃ t, step s = .next t ∧ t.trace = s.trace ∧ t.resetLine = false ∧
      t = { State.resetOf s.cfg with
        hostQueue := s.hostQueue
        hostReads := s.hostReads
        levelsIn := s.levelsIn
        outcomesIn := s.outcomesIn
        draws := s.draws
        trace := s.trace
        engineLog := s.engineLog })

/-- A free host writes an operand register: the register holds the value, every other register and everything else is
as it was (R22). -/
def Obligations.HostWritesARegister : Prop :=
  ∀ (s : State) (r : RegName) (v : Nat) (rest : List HostAction),
    s.busy = false → s.resetLine = false → s.hostQueue = .writeReg r v :: rest → v < 2 ^ regWidth s.cfg r →
    ∃ t, step s = .next t ∧ t.reg r = v ∧ t.written r = true ∧
      (∀ q, q ≠ r → t.reg q = s.reg q ∧ t.written q = s.written q) ∧
      t = { s with x := t.x, hostQueue := rest }

/-- A free host writes a byte of the buffer, whatever it does next: the byte is written, every other byte and everything
else is as it was (R28, R33). That an index outside the buffer faults is the model's choice (log 16). -/
def Obligations.HostWritesABufferByte : Prop :=
  ∀ (s : State) (i : Nat) (b : Byte) (rest : List HostAction),
    s.busy = false → s.resetLine = false → s.hostQueue = .writeBuf i b :: rest →
    (i < s.cfg.bufLen → ∃ t, step s = .next t ∧ t.buf.read i = some b ∧
      (∀ k, k ≠ i → t.buf.read k = s.buf.read k) ∧ t = { s with buf := t.buf, hostQueue := rest }) ∧
    (s.cfg.bufLen ≤ i → step s = .fault .noSuchBufferByte)

/-- STATUS as a free host reads it: BUSY in bit 0, ERR in bits 2..1 by the codes of R54 (R25). -/
def Obligations.StatusWordLayout : Prop :=
  ∀ (s : State) (rest : List HostAction), s.busy = false → s.resetLine = false → s.hostQueue = .readStatus :: rest →
    ∃ t code, step s = .next t ∧ t.hostReads = s.hostReads ++ [some (2 * code)] ∧
      (code = 0 ↔ s.err = .ok) ∧ (code = 1 ↔ s.err = .interruptedBySignal) ∧
      (code = 2 ↔ s.err = .invalidDuration) ∧ (code = 3 ↔ s.err = .copyFault) ∧ code ≤ 3 ∧
      t = { s with hostQueue := rest, hostReads := t.hostReads }

/-- No step changes the parameters of the instance (R11). -/
def Obligations.NoStepChangesTheConfiguration : Prop :=
  ∀ s t : State, step s = .next t → t.cfg = s.cfg

/-- While a command runs the host is held: no step takes an action of the host, answers one, or changes an operand
register, and only the store of a READ changes the buffer (R109, R48). -/
def Obligations.TheHostIsHeldWhileBusy : Prop :=
  ∀ s t : State, s.busy = true → step s = .next t →
    t.hostQueue = s.hostQueue ∧ t.hostReads = s.hostReads ∧ t.x = s.x ∧
    (t.buf ≠ s.buf → s.tOp = .read ∧ s.seq.phase = .dAct ∧ s.seq.bitIdx = 7 ∧
      ∀ k, k ≠ s.seq.byteIdx → t.buf.read k = s.buf.read k)

/-- A context is immutable once constructed: apart from reset, only the launch of a CONSTRUCT or a DERIVE changes the
bank, only in the context A_BUS names, and as a whole record (R17, R19). -/
def Obligations.OnlyConstructAndDeriveChangeContexts : Prop :=
  ∀ s t : State, step s = .next t → t.ctx ≠ s.ctx → s.resetLine = false →
    s.busy = false ∧ (∃ w rest, s.hostQueue = .writeCmd w :: rest ∧ (w = 0 ∨ w = 1)) ∧
      ∀ b, b ≠ s.reg .aBus → t.ctx[b]? = s.ctx[b]?

/-- Every step keeps the maps of the state canonical: the buffer's bytes exist and are listed in rising order, and so
are the pins' directions and levels. -/
def Obligations.StepKeepsMapsCanonical : Prop :=
  ∀ s t : State, MapsCanonical s → step s = .next t → MapsCanonical t

/-- Every step keeps the bank legal and the operand registers within their widths: every valid context has a frequency
from 1 to `FREQ_MAX` and four different pins that fit `PIN_W` (R18, R22). -/
def Obligations.StepKeepsTheBankLegal : Prop :=
  ∀ s t : State, BankLegal s → OperandsFit s → step s = .next t → BankLegal t ∧ OperandsFit t

/-- Every step keeps the controller quiet while BUSY is 0: the sequencer is idle, no request, wait or answer is in
progress (R25, R27, R30). -/
def Obligations.StepKeepsIdleQuiet : Prop :=
  ∀ s t : State, Quiet s → step s = .next t → Quiet t

/-- Under SPIN every step keeps ERR 0 and never begins an abort: no TimingError is ever raised (R73). -/
def Obligations.SpinNeverFails : Prop :=
  ∀ s t : State, NoFailureUnderSpin s → step s = .next t → NoFailureUnderSpin t

/-- The reset state of every instance with legal parameters has the invariants. -/
def Obligations.ResetHasTheInvariants : Prop :=
  ∀ cfg : Config, cfg.wf = true →
    MapsCanonical (State.resetOf cfg) ∧ BankLegal (State.resetOf cfg) ∧ OperandsFit (State.resetOf cfg) ∧
    Quiet (State.resetOf cfg) ∧ NoFailureUnderSpin (State.resetOf cfg)

/-- The launch of a WRITE or READ begins a running transaction. -/
def Obligations.LaunchBeginsARunningTransfer : Prop :=
  ∀ (s : State) (c : Context), TransferReady c s →
    (s.buf.allWritten (s.reg .aSize) = true → ∃ t, exec .write s = .next t ∧ TransferRunning c t) ∧
    (s.cfg.hasReadLevel = true → ∃ t, exec .read s = .next t ∧ TransferRunning c t)

/-- A running transaction never stops: each step answers a next state in which it still runs or is over, whatever the
environment answers, and changes no context, no direction and no operand register (R90, R104, R35). -/
def Obligations.RunningTransferNeverStops : Prop :=
  ∀ (s : State) (c : Context), TransferRunning c s →
    ∃ t, step s = .next t ∧ (TransferRunning c t ∨ (t.busy = false ∧ t.seq.phase = .idle)) ∧
      t.ctx = s.ctx ∧ t.dirs = s.dirs ∧ t.x = s.x

/-- The hold on the host always lifts, for every command and whatever the environment answers: a running transaction, and
so a launched WRITE or READ, and a launched CONSTRUCT, DERIVE, WAITNS or WAITMS, comes to BUSY 0 and IDLE after finitely
many steps (R109). The pins a command initialises or uses are those of the environment, used as CONSTRUCT left them. -/
def Obligations.TheHoldAlwaysLifts : Prop :=
  (∀ (s : State) (c : Context), TransferRunning c s → HoldLifts s) ∧
  ∀ s t : State, Ready s → s.cfg.wf = true → s.ctx.length = s.cfg.nBus →
    (exec .construct s = .next t → (∀ r ∈ [RegName.aMosi, .aMiso, .aClk, .aCs], pinExists s.cfg (s.reg r) = true) →
      HoldLifts t) ∧
    (exec .derive s = .next t → pinExists s.cfg (s.reg .aCs) = true → HoldLifts t) ∧
    (∀ c, TransferReady c s → exec .write s = .next t ∨ exec .read s = .next t → HoldLifts t) ∧
    (exec .waitns s = .next t → s.reg .aDur < 2 ^ durW → HoldLifts t) ∧
    (exec .waitms s = .next t → HoldLifts t)

/-- Chip-select is deasserted on every exit path: whatever the environment answers, when a launched WRITE or READ is over
its chip-select is driven high, whether or not a wait failed (R124, R125). -/
def Obligations.ChipSelectIsReleasedOnEveryExit : Prop :=
  ∀ (s t u : State) (c : Context), TransferReady c s → s.hostQueue = [] →
    (exec .write s = .next t ∨ exec .read s = .next t) → Leads t u → u.busy = false →
    u.outOf c.cs = some high ∧ u.driven c.cs = some high

/-- A transaction touches only its own bytes, whatever the environment answers and whether or not it is aborted: at every
point of a run from its launch a WRITE has changed no byte of the buffer, and a READ none at or above its size (R28,
R129). -/
def Obligations.TransfersTouchOnlyTheirBytes : Prop :=
  ∀ (s t u : State) (c : Context), TransferReady c s → s.hostQueue = [] → Leads t u →
    (exec .write s = .next t → u.buf = s.buf) ∧
    (exec .read s = .next t → ∀ i, s.reg .aSize ≤ i → u.buf.read i = s.buf.read i)

/-- A free host's read of an operand register or of a buffer byte answers what it holds, and changes nothing else (R22,
R28). What a read of one that holds no value answers, and the fault of a read outside the buffer, are the model's choice
(log 9, log 16). -/
def Obligations.HostReadsAreAnswered : Prop :=
  ∀ (s : State) (rest : List HostAction), s.busy = false → s.resetLine = false →
    (∀ r, s.hostQueue = .readReg r :: rest → ∃ t v, step s = .next t ∧ t.hostReads = s.hostReads ++ [v] ∧
      (s.written r = true → v = some (s.reg r)) ∧ (s.written r = false → v = none) ∧
      t = { s with hostQueue := rest, hostReads := t.hostReads }) ∧
    (∀ i, s.hostQueue = .readBuf i :: rest →
      (i < s.cfg.bufLen → ∃ t v, step s = .next t ∧ t.hostReads = s.hostReads ++ [v] ∧
        (∀ b, s.buf.read i = some b → v = some b.toNat) ∧ (s.buf.read i = none → v = none) ∧
        t = { s with hostQueue := rest, hostReads := t.hostReads }) ∧
      (s.cfg.bufLen ≤ i → step s = .fault .noSuchBufferByte))

/-- Under SPIN with the default `spinCount` a wait of `d` nanoseconds takes `ceil(d * CYCLES_PER_US / 1000)` iterations,
the least number that at one cycle each lasts at least `d`, and WAITMS that many for its nanoseconds (R72, R79). -/
def Obligations.SpinTakesTheDefaultCount : Prop :=
  ∀ (cfg : Config) (d : Nat), cfg.strategy = .spin → cfg.spinModel = .ceilFormula →
    waitRequest cfg d = .spin ((d * cfg.cyclesPerUs + 999) / 1000) ∧
    (∃ n, waitRequest cfg d = .spin n ∧ d * cfg.cyclesPerUs ≤ n * 1000 ∧ n * 1000 < d * cfg.cyclesPerUs + 1000) ∧
    waitMsRequest cfg d = .spin ((d * 1000000 * cfg.cyclesPerUs + 999) / 1000)

/-- Whatever its outcome, a WAIT takes exactly one from the environment under SLEEP, the next scripted one or one free
value, and none under SPIN; its request is recorded with that outcome (R31, R73, R75). -/
def Obligations.WaitTakesItsOwnOutcome : Prop :=
  ∀ (s t : State) (d : Nat), exec (.wait d) s = .next t →
    t.engineLog = s.engineLog ++ [(waitRequest s.cfg d, (engineOutcome s).1)] ∧
    t.trace = s.trace ++ [.wait d (engineOutcome s).1] ∧ t.levelsIn = s.levelsIn ∧
    (s.cfg.strategy = .spin → (engineOutcome s).1 = .ok ∧ t.outcomesIn = s.outcomesIn ∧ t.draws = s.draws) ∧
    (∀ o rest, s.cfg.strategy = .sleep → s.outcomesIn = o :: rest →
      (engineOutcome s).1 = o ∧ t.outcomesIn = rest ∧ t.draws = s.draws) ∧
    (s.cfg.strategy = .sleep → s.outcomesIn = [] → t.outcomesIn = [] ∧ t.draws = s.draws + 1)
end

