-- ==== Sys2Proof/Laws/Maps.lean ====
section
/-! SUPPORT. Maps, the transfer buffer and the operand register file: a read after a write gives the value written, other
keys are left alone, and the canonical form is kept. -/

namespace Sys2Proof.Machine

variable {α : Type}

@[simp] theorem assocGet_set_self (k : Nat) (v : α) (m : List (Nat × α)) :
    assocGet k (assocSet k v m) = some v := by
  induction m with
  | nil => simp [assocSet, assocGet]
  | cons e m ih =>
    obtain ⟨a, w⟩ := e
    by_cases h₁ : k < a
    · simp [assocSet, assocGet, h₁]
    · by_cases h₂ : k = a <;> simp [assocSet, assocGet, h₁, h₂, ih]

theorem assocGet_set_other {j k : Nat} (v : α) (m : List (Nat × α)) (h : j ≠ k) :
    assocGet j (assocSet k v m) = assocGet j m := by
  induction m with
  | nil => simp [assocSet, assocGet, h]
  | cons e m ih =>
    obtain ⟨a, w⟩ := e
    by_cases h₁ : k < a
    · simp [assocSet, assocGet, h₁, h]
    · by_cases h₂ : k = a
      · subst h₂; simp [assocSet, assocGet, h]
      · simp [assocSet, assocGet, h₁, h₂, ih]

/-- The first key of a map with one more entry is the entry's or the old first key. -/
theorem assocRising_cons_iff (a : Nat) (v : α) (m : List (Nat × α)) :
    assocRising ((a, v) :: m) = true ↔ assocRising m = true ∧ ∀ e ∈ m.head?, a < e.1 := by
  cases m with
  | nil => simp [assocRising]
  | cons e m => obtain ⟨b, w⟩ := e; simp [assocRising, and_comm]

theorem assocSet_head (a k : Nat) (v : α) (m : List (Nat × α)) (h : ∀ e ∈ m.head?, a < e.1) (hk : a < k) :
    ∀ e ∈ (assocSet k v m).head?, a < e.1 := by
  cases m with
  | nil => simpa [assocSet] using hk
  | cons e m =>
    obtain ⟨b, w⟩ := e
    simp only [assocSet]
    split
    · simpa using hk
    · split
      · simpa using hk
      · simpa using h

/-- Setting a key keeps the keys strictly rising. -/
theorem assocRising_set (k : Nat) (v : α) (m : List (Nat × α)) (h : assocRising m = true) :
    assocRising (assocSet k v m) = true := by
  induction m with
  | nil => rfl
  | cons e m ih =>
    obtain ⟨a, w⟩ := e
    obtain ⟨hm, ha⟩ := (assocRising_cons_iff a w m).1 h
    simp only [assocSet]
    split
    · next hlt => exact (assocRising_cons_iff k v _).2 ⟨h, by simpa using hlt⟩
    · split
      · next heq => subst heq; exact (assocRising_cons_iff k v m).2 ⟨hm, ha⟩
      · exact (assocRising_cons_iff a w _).2 ⟨ih hm, assocSet_head a k v m ha (by omega)⟩

/-- The keys of a map with one key set are that key and the old ones. -/
theorem mem_assocSet {k : Nat} {v : α} {m : List (Nat × α)} {e : Nat × α} (h : e ∈ assocSet k v m) :
    e = (k, v) ∨ e ∈ m := by
  induction m with
  | nil => simpa [assocSet] using h
  | cons b m ih =>
    obtain ⟨a, w⟩ := b
    simp only [assocSet] at h
    split at h
    · simpa using h
    · split at h
      · simp only [List.mem_cons] at h ⊢; tauto
      · simp only [List.mem_cons] at h ⊢
        rcases h with h | h
        · exact .inr (.inl h)
        · rcases ih h with h | h
          · exact .inl h
          · exact .inr (.inr h)

@[simp] theorem Memory.read_write_self (m : Memory) (i : Nat) (b : Byte) : (m.write i b).read i = some b :=
  assocGet_set_self i b m

theorem Memory.read_write_other {m : Memory} {i j : Nat} (b : Byte) (h : j ≠ i) :
    (m.write i b).read j = m.read j :=
  assocGet_set_other b m h

/-- A write keeps the buffer's canonical form. -/
theorem Memory.wf_write (m : Memory) (i : Nat) (b : Byte) (h : m.wf = true) : (m.write i b).wf = true :=
  assocRising_set i b m h

/-- The reset buffer is canonical. -/
theorem Memory.wf_nil : Memory.wf [] = true := rfl

theorem Memory.allWritten_iff (m : Memory) (n : Nat) :
    m.allWritten n = true ↔ ∀ i, i < n → ∃ b, m.read i = some b := by
  simp [Memory.allWritten, Option.isSome_iff_exists]

/-- A store into the buffer: the byte exists and is written, and nothing else changes. -/
theorem storeBuf_next {i : Nat} {b : Byte} {s t : State} (h : storeBuf i b s = .next t) :
    i < s.cfg.bufLen ∧ t = { s with buf := s.buf.write i b } := by
  unfold storeBuf at h
  split at h
  · exact ⟨‹_›, by simpa using h.symm⟩
  · cases h

@[simp] theorem Operands.get_set_self (x : Operands) (r : RegName) (v : OpReg) : (x.set r v).get r = v := by
  cases r <;> rfl

theorem Operands.get_set_other {x : Operands} {q r : RegName} (v : OpReg) (h : q ≠ r) :
    (x.set r v).get q = x.get q := by
  cases r <;> cases q <;> first | rfl | exact absurd rfl h

end Sys2Proof.Machine
end

