-- ==== Sys2Proof/Laws/State.lean ====
section
/-! SUPPORT. What each named update of the state does to each field: one lemma per field per update, for simp. -/

namespace Sys2Proof.Machine

variable (s : State)

/-! emit -/

@[simp] theorem emit_cfg (e : Event) : (emit e s).cfg = s.cfg := rfl
@[simp] theorem emit_ctx (e : Event) : (emit e s).ctx = s.ctx := rfl
@[simp] theorem emit_x (e : Event) : (emit e s).x = s.x := rfl
@[simp] theorem emit_busy (e : Event) : (emit e s).busy = s.busy := rfl
@[simp] theorem emit_err (e : Event) : (emit e s).err = s.err := rfl
@[simp] theorem emit_tOp (e : Event) : (emit e s).tOp = s.tOp := rfl
@[simp] theorem emit_tBus (e : Event) : (emit e s).tBus = s.tBus := rfl
@[simp] theorem emit_tSize (e : Event) : (emit e s).tSize = s.tSize := rfl
@[simp] theorem emit_curByte (e : Event) : (emit e s).curByte = s.curByte := rfl
@[simp] theorem emit_seq (e : Event) : (emit e s).seq = s.seq := rfl
@[simp] theorem emit_buf (e : Event) : (emit e s).buf = s.buf := rfl
@[simp] theorem emit_dirs (e : Event) : (emit e s).dirs = s.dirs := rfl
@[simp] theorem emit_outs (e : Event) : (emit e s).outs = s.outs := rfl
@[simp] theorem emit_engine (e : Event) : (emit e s).engine = s.engine := rfl
@[simp] theorem emit_port (e : Event) : (emit e s).port = s.port := rfl
@[simp] theorem emit_answer (e : Event) : (emit e s).answer = s.answer := rfl
@[simp] theorem emit_abortKind (e : Event) : (emit e s).abortKind = s.abortKind := rfl
@[simp] theorem emit_hostQueue (e : Event) : (emit e s).hostQueue = s.hostQueue := rfl
@[simp] theorem emit_hostReads (e : Event) : (emit e s).hostReads = s.hostReads := rfl
@[simp] theorem emit_resetLine (e : Event) : (emit e s).resetLine = s.resetLine := rfl
@[simp] theorem emit_levelsIn (e : Event) : (emit e s).levelsIn = s.levelsIn := rfl
@[simp] theorem emit_outcomesIn (e : Event) : (emit e s).outcomesIn = s.outcomesIn := rfl
@[simp] theorem emit_draws (e : Event) : (emit e s).draws = s.draws := rfl
@[simp] theorem emit_trace (e : Event) : (emit e s).trace = s.trace ++ [e] := rfl
@[simp] theorem emit_engineLog (e : Event) : (emit e s).engineLog = s.engineLog := rfl

/-! setDir -/

@[simp] theorem setDir_cfg (p : Pin) (d : Dir) : (setDir p d s).cfg = s.cfg := rfl
@[simp] theorem setDir_ctx (p : Pin) (d : Dir) : (setDir p d s).ctx = s.ctx := rfl
@[simp] theorem setDir_x (p : Pin) (d : Dir) : (setDir p d s).x = s.x := rfl
@[simp] theorem setDir_busy (p : Pin) (d : Dir) : (setDir p d s).busy = s.busy := rfl
@[simp] theorem setDir_err (p : Pin) (d : Dir) : (setDir p d s).err = s.err := rfl
@[simp] theorem setDir_tOp (p : Pin) (d : Dir) : (setDir p d s).tOp = s.tOp := rfl
@[simp] theorem setDir_tBus (p : Pin) (d : Dir) : (setDir p d s).tBus = s.tBus := rfl
@[simp] theorem setDir_tSize (p : Pin) (d : Dir) : (setDir p d s).tSize = s.tSize := rfl
@[simp] theorem setDir_curByte (p : Pin) (d : Dir) : (setDir p d s).curByte = s.curByte := rfl
@[simp] theorem setDir_seq (p : Pin) (d : Dir) : (setDir p d s).seq = s.seq := rfl
@[simp] theorem setDir_buf (p : Pin) (d : Dir) : (setDir p d s).buf = s.buf := rfl
@[simp] theorem setDir_dirs (p : Pin) (d : Dir) : (setDir p d s).dirs = assocSet p d s.dirs := rfl
@[simp] theorem setDir_outs (p : Pin) (d : Dir) : (setDir p d s).outs = s.outs := rfl
@[simp] theorem setDir_engine (p : Pin) (d : Dir) : (setDir p d s).engine = s.engine := rfl
@[simp] theorem setDir_port (p : Pin) (d : Dir) : (setDir p d s).port = s.port := rfl
@[simp] theorem setDir_answer (p : Pin) (d : Dir) : (setDir p d s).answer = s.answer := rfl
@[simp] theorem setDir_abortKind (p : Pin) (d : Dir) : (setDir p d s).abortKind = s.abortKind := rfl
@[simp] theorem setDir_hostQueue (p : Pin) (d : Dir) : (setDir p d s).hostQueue = s.hostQueue := rfl
@[simp] theorem setDir_hostReads (p : Pin) (d : Dir) : (setDir p d s).hostReads = s.hostReads := rfl
@[simp] theorem setDir_resetLine (p : Pin) (d : Dir) : (setDir p d s).resetLine = s.resetLine := rfl
@[simp] theorem setDir_levelsIn (p : Pin) (d : Dir) : (setDir p d s).levelsIn = s.levelsIn := rfl
@[simp] theorem setDir_outcomesIn (p : Pin) (d : Dir) : (setDir p d s).outcomesIn = s.outcomesIn := rfl
@[simp] theorem setDir_draws (p : Pin) (d : Dir) : (setDir p d s).draws = s.draws := rfl
@[simp] theorem setDir_trace (p : Pin) (d : Dir) : (setDir p d s).trace = s.trace := rfl
@[simp] theorem setDir_engineLog (p : Pin) (d : Dir) : (setDir p d s).engineLog = s.engineLog := rfl

/-! setOut -/

@[simp] theorem setOut_cfg (p : Pin) (l : Level) : (setOut p l s).cfg = s.cfg := rfl
@[simp] theorem setOut_ctx (p : Pin) (l : Level) : (setOut p l s).ctx = s.ctx := rfl
@[simp] theorem setOut_x (p : Pin) (l : Level) : (setOut p l s).x = s.x := rfl
@[simp] theorem setOut_busy (p : Pin) (l : Level) : (setOut p l s).busy = s.busy := rfl
@[simp] theorem setOut_err (p : Pin) (l : Level) : (setOut p l s).err = s.err := rfl
@[simp] theorem setOut_tOp (p : Pin) (l : Level) : (setOut p l s).tOp = s.tOp := rfl
@[simp] theorem setOut_tBus (p : Pin) (l : Level) : (setOut p l s).tBus = s.tBus := rfl
@[simp] theorem setOut_tSize (p : Pin) (l : Level) : (setOut p l s).tSize = s.tSize := rfl
@[simp] theorem setOut_curByte (p : Pin) (l : Level) : (setOut p l s).curByte = s.curByte := rfl
@[simp] theorem setOut_seq (p : Pin) (l : Level) : (setOut p l s).seq = s.seq := rfl
@[simp] theorem setOut_buf (p : Pin) (l : Level) : (setOut p l s).buf = s.buf := rfl
@[simp] theorem setOut_dirs (p : Pin) (l : Level) : (setOut p l s).dirs = s.dirs := rfl
@[simp] theorem setOut_outs (p : Pin) (l : Level) : (setOut p l s).outs = assocSet p l s.outs := rfl
@[simp] theorem setOut_engine (p : Pin) (l : Level) : (setOut p l s).engine = s.engine := rfl
@[simp] theorem setOut_port (p : Pin) (l : Level) : (setOut p l s).port = s.port := rfl
@[simp] theorem setOut_answer (p : Pin) (l : Level) : (setOut p l s).answer = s.answer := rfl
@[simp] theorem setOut_abortKind (p : Pin) (l : Level) : (setOut p l s).abortKind = s.abortKind := rfl
@[simp] theorem setOut_hostQueue (p : Pin) (l : Level) : (setOut p l s).hostQueue = s.hostQueue := rfl
@[simp] theorem setOut_hostReads (p : Pin) (l : Level) : (setOut p l s).hostReads = s.hostReads := rfl
@[simp] theorem setOut_resetLine (p : Pin) (l : Level) : (setOut p l s).resetLine = s.resetLine := rfl
@[simp] theorem setOut_levelsIn (p : Pin) (l : Level) : (setOut p l s).levelsIn = s.levelsIn := rfl
@[simp] theorem setOut_outcomesIn (p : Pin) (l : Level) : (setOut p l s).outcomesIn = s.outcomesIn := rfl
@[simp] theorem setOut_draws (p : Pin) (l : Level) : (setOut p l s).draws = s.draws := rfl
@[simp] theorem setOut_trace (p : Pin) (l : Level) : (setOut p l s).trace = s.trace := rfl
@[simp] theorem setOut_engineLog (p : Pin) (l : Level) : (setOut p l s).engineLog = s.engineLog := rfl

/-! launch -/

@[simp] theorem launch_cfg (op : Opcode) : (launch op s).cfg = s.cfg := rfl
@[simp] theorem launch_ctx (op : Opcode) : (launch op s).ctx = s.ctx := rfl
@[simp] theorem launch_x (op : Opcode) : (launch op s).x = s.x := rfl
@[simp] theorem launch_busy (op : Opcode) : (launch op s).busy = true := rfl
@[simp] theorem launch_err (op : Opcode) : (launch op s).err = .ok := rfl
@[simp] theorem launch_tOp (op : Opcode) : (launch op s).tOp = op := rfl
@[simp] theorem launch_tBus (op : Opcode) : (launch op s).tBus = s.tBus := rfl
@[simp] theorem launch_tSize (op : Opcode) : (launch op s).tSize = s.tSize := rfl
@[simp] theorem launch_curByte (op : Opcode) : (launch op s).curByte = s.curByte := rfl
@[simp] theorem launch_seq (op : Opcode) : (launch op s).seq = s.seq := rfl
@[simp] theorem launch_buf (op : Opcode) : (launch op s).buf = s.buf := rfl
@[simp] theorem launch_dirs (op : Opcode) : (launch op s).dirs = s.dirs := rfl
@[simp] theorem launch_outs (op : Opcode) : (launch op s).outs = s.outs := rfl
@[simp] theorem launch_engine (op : Opcode) : (launch op s).engine = s.engine := rfl
@[simp] theorem launch_port (op : Opcode) : (launch op s).port = s.port := rfl
@[simp] theorem launch_answer (op : Opcode) : (launch op s).answer = s.answer := rfl
@[simp] theorem launch_abortKind (op : Opcode) : (launch op s).abortKind = s.abortKind := rfl
@[simp] theorem launch_hostQueue (op : Opcode) : (launch op s).hostQueue = s.hostQueue := rfl
@[simp] theorem launch_hostReads (op : Opcode) : (launch op s).hostReads = s.hostReads := rfl
@[simp] theorem launch_resetLine (op : Opcode) : (launch op s).resetLine = s.resetLine := rfl
@[simp] theorem launch_levelsIn (op : Opcode) : (launch op s).levelsIn = s.levelsIn := rfl
@[simp] theorem launch_outcomesIn (op : Opcode) : (launch op s).outcomesIn = s.outcomesIn := rfl
@[simp] theorem launch_draws (op : Opcode) : (launch op s).draws = s.draws := rfl
@[simp] theorem launch_trace (op : Opcode) : (launch op s).trace = s.trace := rfl
@[simp] theorem launch_engineLog (op : Opcode) : (launch op s).engineLog = s.engineLog := rfl

/-! finish -/

@[simp] theorem finish_cfg : (finish s).cfg = s.cfg := rfl
@[simp] theorem finish_ctx : (finish s).ctx = s.ctx := rfl
@[simp] theorem finish_x : (finish s).x = s.x := rfl
@[simp] theorem finish_busy : (finish s).busy = false := rfl
@[simp] theorem finish_err : (finish s).err = s.err := rfl
@[simp] theorem finish_tOp : (finish s).tOp = s.tOp := rfl
@[simp] theorem finish_tBus : (finish s).tBus = s.tBus := rfl
@[simp] theorem finish_tSize : (finish s).tSize = s.tSize := rfl
@[simp] theorem finish_curByte : (finish s).curByte = s.curByte := rfl
@[simp] theorem finish_seq : (finish s).seq = { s.seq with phase := .idle } := rfl
@[simp] theorem finish_buf : (finish s).buf = s.buf := rfl
@[simp] theorem finish_dirs : (finish s).dirs = s.dirs := rfl
@[simp] theorem finish_outs : (finish s).outs = s.outs := rfl
@[simp] theorem finish_engine : (finish s).engine = s.engine := rfl
@[simp] theorem finish_port : (finish s).port = s.port := rfl
@[simp] theorem finish_answer : (finish s).answer = s.answer := rfl
@[simp] theorem finish_abortKind : (finish s).abortKind = s.abortKind := rfl
@[simp] theorem finish_hostQueue : (finish s).hostQueue = s.hostQueue := rfl
@[simp] theorem finish_hostReads : (finish s).hostReads = s.hostReads := rfl
@[simp] theorem finish_resetLine : (finish s).resetLine = s.resetLine := rfl
@[simp] theorem finish_levelsIn : (finish s).levelsIn = s.levelsIn := rfl
@[simp] theorem finish_outcomesIn : (finish s).outcomesIn = s.outcomesIn := rfl
@[simp] theorem finish_draws : (finish s).draws = s.draws := rfl
@[simp] theorem finish_trace : (finish s).trace = s.trace := rfl
@[simp] theorem finish_engineLog : (finish s).engineLog = s.engineLog := rfl

/-! finishWithError -/

@[simp] theorem finishWithError_cfg (k : WaitOutcome) : (finishWithError k s).cfg = s.cfg := rfl
@[simp] theorem finishWithError_ctx (k : WaitOutcome) : (finishWithError k s).ctx = s.ctx := rfl
@[simp] theorem finishWithError_x (k : WaitOutcome) : (finishWithError k s).x = s.x := rfl
@[simp] theorem finishWithError_busy (k : WaitOutcome) : (finishWithError k s).busy = false := rfl
@[simp] theorem finishWithError_err (k : WaitOutcome) : (finishWithError k s).err = k := rfl
@[simp] theorem finishWithError_tOp (k : WaitOutcome) : (finishWithError k s).tOp = s.tOp := rfl
@[simp] theorem finishWithError_tBus (k : WaitOutcome) : (finishWithError k s).tBus = s.tBus := rfl
@[simp] theorem finishWithError_tSize (k : WaitOutcome) : (finishWithError k s).tSize = s.tSize := rfl
@[simp] theorem finishWithError_curByte (k : WaitOutcome) : (finishWithError k s).curByte = s.curByte := rfl
@[simp] theorem finishWithError_seq (k : WaitOutcome) : (finishWithError k s).seq = { s.seq with phase := .idle } := rfl
@[simp] theorem finishWithError_buf (k : WaitOutcome) : (finishWithError k s).buf = s.buf := rfl
@[simp] theorem finishWithError_dirs (k : WaitOutcome) : (finishWithError k s).dirs = s.dirs := rfl
@[simp] theorem finishWithError_outs (k : WaitOutcome) : (finishWithError k s).outs = s.outs := rfl
@[simp] theorem finishWithError_engine (k : WaitOutcome) : (finishWithError k s).engine = s.engine := rfl
@[simp] theorem finishWithError_port (k : WaitOutcome) : (finishWithError k s).port = s.port := rfl
@[simp] theorem finishWithError_answer (k : WaitOutcome) : (finishWithError k s).answer = s.answer := rfl
@[simp] theorem finishWithError_abortKind (k : WaitOutcome) : (finishWithError k s).abortKind = s.abortKind := rfl
@[simp] theorem finishWithError_hostQueue (k : WaitOutcome) : (finishWithError k s).hostQueue = s.hostQueue := rfl
@[simp] theorem finishWithError_hostReads (k : WaitOutcome) : (finishWithError k s).hostReads = s.hostReads := rfl
@[simp] theorem finishWithError_resetLine (k : WaitOutcome) : (finishWithError k s).resetLine = s.resetLine := rfl
@[simp] theorem finishWithError_levelsIn (k : WaitOutcome) : (finishWithError k s).levelsIn = s.levelsIn := rfl
@[simp] theorem finishWithError_outcomesIn (k : WaitOutcome) : (finishWithError k s).outcomesIn = s.outcomesIn := rfl
@[simp] theorem finishWithError_draws (k : WaitOutcome) : (finishWithError k s).draws = s.draws := rfl
@[simp] theorem finishWithError_trace (k : WaitOutcome) : (finishWithError k s).trace = s.trace := rfl
@[simp] theorem finishWithError_engineLog (k : WaitOutcome) : (finishWithError k s).engineLog = s.engineLog := rfl

/-! issue -/

@[simp] theorem issue_cfg (is : List Instr) : (issue is s).cfg = s.cfg := rfl
@[simp] theorem issue_ctx (is : List Instr) : (issue is s).ctx = s.ctx := rfl
@[simp] theorem issue_x (is : List Instr) : (issue is s).x = s.x := rfl
@[simp] theorem issue_busy (is : List Instr) : (issue is s).busy = s.busy := rfl
@[simp] theorem issue_err (is : List Instr) : (issue is s).err = s.err := rfl
@[simp] theorem issue_tOp (is : List Instr) : (issue is s).tOp = s.tOp := rfl
@[simp] theorem issue_tBus (is : List Instr) : (issue is s).tBus = s.tBus := rfl
@[simp] theorem issue_tSize (is : List Instr) : (issue is s).tSize = s.tSize := rfl
@[simp] theorem issue_curByte (is : List Instr) : (issue is s).curByte = s.curByte := rfl
@[simp] theorem issue_seq (is : List Instr) : (issue is s).seq = s.seq := rfl
@[simp] theorem issue_buf (is : List Instr) : (issue is s).buf = s.buf := rfl
@[simp] theorem issue_dirs (is : List Instr) : (issue is s).dirs = s.dirs := rfl
@[simp] theorem issue_outs (is : List Instr) : (issue is s).outs = s.outs := rfl
@[simp] theorem issue_engine (is : List Instr) : (issue is s).engine = s.engine := rfl
@[simp] theorem issue_port (is : List Instr) : (issue is s).port = is.map encode := rfl
@[simp] theorem issue_answer (is : List Instr) : (issue is s).answer = s.answer := rfl
@[simp] theorem issue_abortKind (is : List Instr) : (issue is s).abortKind = s.abortKind := rfl
@[simp] theorem issue_hostQueue (is : List Instr) : (issue is s).hostQueue = s.hostQueue := rfl
@[simp] theorem issue_hostReads (is : List Instr) : (issue is s).hostReads = s.hostReads := rfl
@[simp] theorem issue_resetLine (is : List Instr) : (issue is s).resetLine = s.resetLine := rfl
@[simp] theorem issue_levelsIn (is : List Instr) : (issue is s).levelsIn = s.levelsIn := rfl
@[simp] theorem issue_outcomesIn (is : List Instr) : (issue is s).outcomesIn = s.outcomesIn := rfl
@[simp] theorem issue_draws (is : List Instr) : (issue is s).draws = s.draws := rfl
@[simp] theorem issue_trace (is : List Instr) : (issue is s).trace = s.trace := rfl
@[simp] theorem issue_engineLog (is : List Instr) : (issue is s).engineLog = s.engineLog := rfl

/-! goto -/

@[simp] theorem goto_cfg (ph : Phase) : (goto ph s).cfg = s.cfg := rfl
@[simp] theorem goto_ctx (ph : Phase) : (goto ph s).ctx = s.ctx := rfl
@[simp] theorem goto_x (ph : Phase) : (goto ph s).x = s.x := rfl
@[simp] theorem goto_busy (ph : Phase) : (goto ph s).busy = s.busy := rfl
@[simp] theorem goto_err (ph : Phase) : (goto ph s).err = s.err := rfl
@[simp] theorem goto_tOp (ph : Phase) : (goto ph s).tOp = s.tOp := rfl
@[simp] theorem goto_tBus (ph : Phase) : (goto ph s).tBus = s.tBus := rfl
@[simp] theorem goto_tSize (ph : Phase) : (goto ph s).tSize = s.tSize := rfl
@[simp] theorem goto_curByte (ph : Phase) : (goto ph s).curByte = s.curByte := rfl
@[simp] theorem goto_seq (ph : Phase) : (goto ph s).seq = { s.seq with phase := ph } := rfl
@[simp] theorem goto_buf (ph : Phase) : (goto ph s).buf = s.buf := rfl
@[simp] theorem goto_dirs (ph : Phase) : (goto ph s).dirs = s.dirs := rfl
@[simp] theorem goto_outs (ph : Phase) : (goto ph s).outs = s.outs := rfl
@[simp] theorem goto_engine (ph : Phase) : (goto ph s).engine = s.engine := rfl
@[simp] theorem goto_port (ph : Phase) : (goto ph s).port = s.port := rfl
@[simp] theorem goto_answer (ph : Phase) : (goto ph s).answer = s.answer := rfl
@[simp] theorem goto_abortKind (ph : Phase) : (goto ph s).abortKind = s.abortKind := rfl
@[simp] theorem goto_hostQueue (ph : Phase) : (goto ph s).hostQueue = s.hostQueue := rfl
@[simp] theorem goto_hostReads (ph : Phase) : (goto ph s).hostReads = s.hostReads := rfl
@[simp] theorem goto_resetLine (ph : Phase) : (goto ph s).resetLine = s.resetLine := rfl
@[simp] theorem goto_levelsIn (ph : Phase) : (goto ph s).levelsIn = s.levelsIn := rfl
@[simp] theorem goto_outcomesIn (ph : Phase) : (goto ph s).outcomesIn = s.outcomesIn := rfl
@[simp] theorem goto_draws (ph : Phase) : (goto ph s).draws = s.draws := rfl
@[simp] theorem goto_trace (ph : Phase) : (goto ph s).trace = s.trace := rfl
@[simp] theorem goto_engineLog (ph : Phase) : (goto ph s).engineLog = s.engineLog := rfl

/-! beginWait -/

@[simp] theorem beginWait_cfg (r : EngineReq) : (beginWait r s).cfg = s.cfg := rfl
@[simp] theorem beginWait_ctx (r : EngineReq) : (beginWait r s).ctx = s.ctx := rfl
@[simp] theorem beginWait_x (r : EngineReq) : (beginWait r s).x = s.x := rfl
@[simp] theorem beginWait_busy (r : EngineReq) : (beginWait r s).busy = s.busy := rfl
@[simp] theorem beginWait_err (r : EngineReq) : (beginWait r s).err = s.err := rfl
@[simp] theorem beginWait_tOp (r : EngineReq) : (beginWait r s).tOp = s.tOp := rfl
@[simp] theorem beginWait_tBus (r : EngineReq) : (beginWait r s).tBus = s.tBus := rfl
@[simp] theorem beginWait_tSize (r : EngineReq) : (beginWait r s).tSize = s.tSize := rfl
@[simp] theorem beginWait_curByte (r : EngineReq) : (beginWait r s).curByte = s.curByte := rfl
@[simp] theorem beginWait_seq (r : EngineReq) : (beginWait r s).seq = s.seq := rfl
@[simp] theorem beginWait_buf (r : EngineReq) : (beginWait r s).buf = s.buf := rfl
@[simp] theorem beginWait_dirs (r : EngineReq) : (beginWait r s).dirs = s.dirs := rfl
@[simp] theorem beginWait_outs (r : EngineReq) : (beginWait r s).outs = s.outs := rfl
@[simp] theorem beginWait_engine (r : EngineReq) : (beginWait r s).engine = some r := rfl
@[simp] theorem beginWait_port (r : EngineReq) : (beginWait r s).port = s.port := rfl
@[simp] theorem beginWait_answer (r : EngineReq) : (beginWait r s).answer = s.answer := rfl
@[simp] theorem beginWait_abortKind (r : EngineReq) : (beginWait r s).abortKind = s.abortKind := rfl
@[simp] theorem beginWait_hostQueue (r : EngineReq) : (beginWait r s).hostQueue = s.hostQueue := rfl
@[simp] theorem beginWait_hostReads (r : EngineReq) : (beginWait r s).hostReads = s.hostReads := rfl
@[simp] theorem beginWait_resetLine (r : EngineReq) : (beginWait r s).resetLine = s.resetLine := rfl
@[simp] theorem beginWait_levelsIn (r : EngineReq) : (beginWait r s).levelsIn = s.levelsIn := rfl
@[simp] theorem beginWait_outcomesIn (r : EngineReq) : (beginWait r s).outcomesIn = s.outcomesIn := rfl
@[simp] theorem beginWait_draws (r : EngineReq) : (beginWait r s).draws = s.draws := rfl
@[simp] theorem beginWait_trace (r : EngineReq) : (beginWait r s).trace = s.trace := rfl
@[simp] theorem beginWait_engineLog (r : EngineReq) : (beginWait r s).engineLog = s.engineLog := rfl

/-! answerHost -/

@[simp] theorem answerHost_cfg (v : Option Nat) : (answerHost v s).cfg = s.cfg := rfl
@[simp] theorem answerHost_ctx (v : Option Nat) : (answerHost v s).ctx = s.ctx := rfl
@[simp] theorem answerHost_x (v : Option Nat) : (answerHost v s).x = s.x := rfl
@[simp] theorem answerHost_busy (v : Option Nat) : (answerHost v s).busy = s.busy := rfl
@[simp] theorem answerHost_err (v : Option Nat) : (answerHost v s).err = s.err := rfl
@[simp] theorem answerHost_tOp (v : Option Nat) : (answerHost v s).tOp = s.tOp := rfl
@[simp] theorem answerHost_tBus (v : Option Nat) : (answerHost v s).tBus = s.tBus := rfl
@[simp] theorem answerHost_tSize (v : Option Nat) : (answerHost v s).tSize = s.tSize := rfl
@[simp] theorem answerHost_curByte (v : Option Nat) : (answerHost v s).curByte = s.curByte := rfl
@[simp] theorem answerHost_seq (v : Option Nat) : (answerHost v s).seq = s.seq := rfl
@[simp] theorem answerHost_buf (v : Option Nat) : (answerHost v s).buf = s.buf := rfl
@[simp] theorem answerHost_dirs (v : Option Nat) : (answerHost v s).dirs = s.dirs := rfl
@[simp] theorem answerHost_outs (v : Option Nat) : (answerHost v s).outs = s.outs := rfl
@[simp] theorem answerHost_engine (v : Option Nat) : (answerHost v s).engine = s.engine := rfl
@[simp] theorem answerHost_port (v : Option Nat) : (answerHost v s).port = s.port := rfl
@[simp] theorem answerHost_answer (v : Option Nat) : (answerHost v s).answer = s.answer := rfl
@[simp] theorem answerHost_abortKind (v : Option Nat) : (answerHost v s).abortKind = s.abortKind := rfl
@[simp] theorem answerHost_hostQueue (v : Option Nat) : (answerHost v s).hostQueue = s.hostQueue := rfl
@[simp] theorem answerHost_hostReads (v : Option Nat) : (answerHost v s).hostReads = s.hostReads ++ [v] := rfl
@[simp] theorem answerHost_resetLine (v : Option Nat) : (answerHost v s).resetLine = s.resetLine := rfl
@[simp] theorem answerHost_levelsIn (v : Option Nat) : (answerHost v s).levelsIn = s.levelsIn := rfl
@[simp] theorem answerHost_outcomesIn (v : Option Nat) : (answerHost v s).outcomesIn = s.outcomesIn := rfl
@[simp] theorem answerHost_draws (v : Option Nat) : (answerHost v s).draws = s.draws := rfl
@[simp] theorem answerHost_trace (v : Option Nat) : (answerHost v s).trace = s.trace := rfl
@[simp] theorem answerHost_engineLog (v : Option Nat) : (answerHost v s).engineLog = s.engineLog := rfl

/-! The draws of the environment's answers and the end of a wait change only their own fields. -/

@[simp] theorem drawLevel_cfg : (drawLevel s).2.cfg = s.cfg := by unfold drawLevel; split <;> rfl
@[simp] theorem drawLevel_ctx : (drawLevel s).2.ctx = s.ctx := by unfold drawLevel; split <;> rfl
@[simp] theorem drawLevel_x : (drawLevel s).2.x = s.x := by unfold drawLevel; split <;> rfl
@[simp] theorem drawLevel_busy : (drawLevel s).2.busy = s.busy := by unfold drawLevel; split <;> rfl
@[simp] theorem drawLevel_err : (drawLevel s).2.err = s.err := by unfold drawLevel; split <;> rfl
@[simp] theorem drawLevel_tOp : (drawLevel s).2.tOp = s.tOp := by unfold drawLevel; split <;> rfl
@[simp] theorem drawLevel_tBus : (drawLevel s).2.tBus = s.tBus := by unfold drawLevel; split <;> rfl
@[simp] theorem drawLevel_tSize : (drawLevel s).2.tSize = s.tSize := by unfold drawLevel; split <;> rfl
@[simp] theorem drawLevel_curByte : (drawLevel s).2.curByte = s.curByte := by unfold drawLevel; split <;> rfl
@[simp] theorem drawLevel_seq : (drawLevel s).2.seq = s.seq := by unfold drawLevel; split <;> rfl
@[simp] theorem drawLevel_buf : (drawLevel s).2.buf = s.buf := by unfold drawLevel; split <;> rfl
@[simp] theorem drawLevel_dirs : (drawLevel s).2.dirs = s.dirs := by unfold drawLevel; split <;> rfl
@[simp] theorem drawLevel_outs : (drawLevel s).2.outs = s.outs := by unfold drawLevel; split <;> rfl
@[simp] theorem drawLevel_engine : (drawLevel s).2.engine = s.engine := by unfold drawLevel; split <;> rfl
@[simp] theorem drawLevel_port : (drawLevel s).2.port = s.port := by unfold drawLevel; split <;> rfl
@[simp] theorem drawLevel_answer : (drawLevel s).2.answer = s.answer := by unfold drawLevel; split <;> rfl
@[simp] theorem drawLevel_abortKind : (drawLevel s).2.abortKind = s.abortKind := by unfold drawLevel; split <;> rfl
@[simp] theorem drawLevel_hostQueue : (drawLevel s).2.hostQueue = s.hostQueue := by unfold drawLevel; split <;> rfl
@[simp] theorem drawLevel_hostReads : (drawLevel s).2.hostReads = s.hostReads := by unfold drawLevel; split <;> rfl
@[simp] theorem drawLevel_resetLine : (drawLevel s).2.resetLine = s.resetLine := by unfold drawLevel; split <;> rfl
@[simp] theorem drawLevel_outcomesIn : (drawLevel s).2.outcomesIn = s.outcomesIn := by unfold drawLevel; split <;> rfl
@[simp] theorem drawLevel_trace : (drawLevel s).2.trace = s.trace := by unfold drawLevel; split <;> rfl
@[simp] theorem drawLevel_engineLog : (drawLevel s).2.engineLog = s.engineLog := by unfold drawLevel; split <;> rfl

@[simp] theorem drawOutcome_cfg : (drawOutcome s).2.cfg = s.cfg := by unfold drawOutcome; split <;> rfl
@[simp] theorem drawOutcome_ctx : (drawOutcome s).2.ctx = s.ctx := by unfold drawOutcome; split <;> rfl
@[simp] theorem drawOutcome_x : (drawOutcome s).2.x = s.x := by unfold drawOutcome; split <;> rfl
@[simp] theorem drawOutcome_busy : (drawOutcome s).2.busy = s.busy := by unfold drawOutcome; split <;> rfl
@[simp] theorem drawOutcome_err : (drawOutcome s).2.err = s.err := by unfold drawOutcome; split <;> rfl
@[simp] theorem drawOutcome_tOp : (drawOutcome s).2.tOp = s.tOp := by unfold drawOutcome; split <;> rfl
@[simp] theorem drawOutcome_tBus : (drawOutcome s).2.tBus = s.tBus := by unfold drawOutcome; split <;> rfl
@[simp] theorem drawOutcome_tSize : (drawOutcome s).2.tSize = s.tSize := by unfold drawOutcome; split <;> rfl
@[simp] theorem drawOutcome_curByte : (drawOutcome s).2.curByte = s.curByte := by unfold drawOutcome; split <;> rfl
@[simp] theorem drawOutcome_seq : (drawOutcome s).2.seq = s.seq := by unfold drawOutcome; split <;> rfl
@[simp] theorem drawOutcome_buf : (drawOutcome s).2.buf = s.buf := by unfold drawOutcome; split <;> rfl
@[simp] theorem drawOutcome_dirs : (drawOutcome s).2.dirs = s.dirs := by unfold drawOutcome; split <;> rfl
@[simp] theorem drawOutcome_outs : (drawOutcome s).2.outs = s.outs := by unfold drawOutcome; split <;> rfl
@[simp] theorem drawOutcome_engine : (drawOutcome s).2.engine = s.engine := by unfold drawOutcome; split <;> rfl
@[simp] theorem drawOutcome_port : (drawOutcome s).2.port = s.port := by unfold drawOutcome; split <;> rfl
@[simp] theorem drawOutcome_answer : (drawOutcome s).2.answer = s.answer := by unfold drawOutcome; split <;> rfl
@[simp] theorem drawOutcome_abortKind : (drawOutcome s).2.abortKind = s.abortKind := by unfold drawOutcome; split <;> rfl
@[simp] theorem drawOutcome_hostQueue : (drawOutcome s).2.hostQueue = s.hostQueue := by unfold drawOutcome; split <;> rfl
@[simp] theorem drawOutcome_hostReads : (drawOutcome s).2.hostReads = s.hostReads := by unfold drawOutcome; split <;> rfl
@[simp] theorem drawOutcome_resetLine : (drawOutcome s).2.resetLine = s.resetLine := by unfold drawOutcome; split <;> rfl
@[simp] theorem drawOutcome_levelsIn : (drawOutcome s).2.levelsIn = s.levelsIn := by unfold drawOutcome; split <;> rfl
@[simp] theorem drawOutcome_trace : (drawOutcome s).2.trace = s.trace := by unfold drawOutcome; split <;> rfl
@[simp] theorem drawOutcome_engineLog : (drawOutcome s).2.engineLog = s.engineLog := by unfold drawOutcome; split <;> rfl

@[simp] theorem engineOutcome_cfg : (engineOutcome s).2.cfg = s.cfg := by
  unfold engineOutcome; split <;> simp
@[simp] theorem engineOutcome_ctx : (engineOutcome s).2.ctx = s.ctx := by
  unfold engineOutcome; split <;> simp
@[simp] theorem engineOutcome_x : (engineOutcome s).2.x = s.x := by
  unfold engineOutcome; split <;> simp
@[simp] theorem engineOutcome_busy : (engineOutcome s).2.busy = s.busy := by
  unfold engineOutcome; split <;> simp
@[simp] theorem engineOutcome_err : (engineOutcome s).2.err = s.err := by
  unfold engineOutcome; split <;> simp
@[simp] theorem engineOutcome_tOp : (engineOutcome s).2.tOp = s.tOp := by
  unfold engineOutcome; split <;> simp
@[simp] theorem engineOutcome_tBus : (engineOutcome s).2.tBus = s.tBus := by
  unfold engineOutcome; split <;> simp
@[simp] theorem engineOutcome_tSize : (engineOutcome s).2.tSize = s.tSize := by
  unfold engineOutcome; split <;> simp
@[simp] theorem engineOutcome_curByte : (engineOutcome s).2.curByte = s.curByte := by
  unfold engineOutcome; split <;> simp
@[simp] theorem engineOutcome_seq : (engineOutcome s).2.seq = s.seq := by
  unfold engineOutcome; split <;> simp
@[simp] theorem engineOutcome_buf : (engineOutcome s).2.buf = s.buf := by
  unfold engineOutcome; split <;> simp
@[simp] theorem engineOutcome_dirs : (engineOutcome s).2.dirs = s.dirs := by
  unfold engineOutcome; split <;> simp
@[simp] theorem engineOutcome_outs : (engineOutcome s).2.outs = s.outs := by
  unfold engineOutcome; split <;> simp
@[simp] theorem engineOutcome_engine : (engineOutcome s).2.engine = s.engine := by
  unfold engineOutcome; split <;> simp
@[simp] theorem engineOutcome_port : (engineOutcome s).2.port = s.port := by
  unfold engineOutcome; split <;> simp
@[simp] theorem engineOutcome_answer : (engineOutcome s).2.answer = s.answer := by
  unfold engineOutcome; split <;> simp
@[simp] theorem engineOutcome_abortKind : (engineOutcome s).2.abortKind = s.abortKind := by
  unfold engineOutcome; split <;> simp
@[simp] theorem engineOutcome_hostQueue : (engineOutcome s).2.hostQueue = s.hostQueue := by
  unfold engineOutcome; split <;> simp
@[simp] theorem engineOutcome_hostReads : (engineOutcome s).2.hostReads = s.hostReads := by
  unfold engineOutcome; split <;> simp
@[simp] theorem engineOutcome_resetLine : (engineOutcome s).2.resetLine = s.resetLine := by
  unfold engineOutcome; split <;> simp
@[simp] theorem engineOutcome_levelsIn : (engineOutcome s).2.levelsIn = s.levelsIn := by
  unfold engineOutcome; split <;> simp
@[simp] theorem engineOutcome_trace : (engineOutcome s).2.trace = s.trace := by
  unfold engineOutcome; split <;> simp
@[simp] theorem engineOutcome_engineLog : (engineOutcome s).2.engineLog = s.engineLog := by
  unfold engineOutcome; split <;> simp

@[simp] theorem endWait_cfg (o : WaitOutcome) : (endWait o s).cfg = s.cfg := by
  unfold endWait; split <;> rfl
@[simp] theorem endWait_ctx (o : WaitOutcome) : (endWait o s).ctx = s.ctx := by
  unfold endWait; split <;> rfl
@[simp] theorem endWait_x (o : WaitOutcome) : (endWait o s).x = s.x := by
  unfold endWait; split <;> rfl
@[simp] theorem endWait_busy (o : WaitOutcome) : (endWait o s).busy = s.busy := by
  unfold endWait; split <;> rfl
@[simp] theorem endWait_err (o : WaitOutcome) : (endWait o s).err = s.err := by
  unfold endWait; split <;> rfl
@[simp] theorem endWait_tOp (o : WaitOutcome) : (endWait o s).tOp = s.tOp := by
  unfold endWait; split <;> rfl
@[simp] theorem endWait_tBus (o : WaitOutcome) : (endWait o s).tBus = s.tBus := by
  unfold endWait; split <;> rfl
@[simp] theorem endWait_tSize (o : WaitOutcome) : (endWait o s).tSize = s.tSize := by
  unfold endWait; split <;> rfl
@[simp] theorem endWait_curByte (o : WaitOutcome) : (endWait o s).curByte = s.curByte := by
  unfold endWait; split <;> rfl
@[simp] theorem endWait_seq (o : WaitOutcome) : (endWait o s).seq = s.seq := by
  unfold endWait; split <;> rfl
@[simp] theorem endWait_buf (o : WaitOutcome) : (endWait o s).buf = s.buf := by
  unfold endWait; split <;> rfl
@[simp] theorem endWait_dirs (o : WaitOutcome) : (endWait o s).dirs = s.dirs := by
  unfold endWait; split <;> rfl
@[simp] theorem endWait_outs (o : WaitOutcome) : (endWait o s).outs = s.outs := by
  unfold endWait; split <;> rfl
@[simp] theorem endWait_port (o : WaitOutcome) : (endWait o s).port = s.port := by
  unfold endWait; split <;> rfl
@[simp] theorem endWait_answer (o : WaitOutcome) : (endWait o s).answer = s.answer := by
  unfold endWait; split <;> rfl
@[simp] theorem endWait_abortKind (o : WaitOutcome) : (endWait o s).abortKind = s.abortKind := by
  unfold endWait; split <;> rfl
@[simp] theorem endWait_hostQueue (o : WaitOutcome) : (endWait o s).hostQueue = s.hostQueue := by
  unfold endWait; split <;> rfl
@[simp] theorem endWait_hostReads (o : WaitOutcome) : (endWait o s).hostReads = s.hostReads := by
  unfold endWait; split <;> rfl
@[simp] theorem endWait_resetLine (o : WaitOutcome) : (endWait o s).resetLine = s.resetLine := by
  unfold endWait; split <;> rfl
@[simp] theorem endWait_levelsIn (o : WaitOutcome) : (endWait o s).levelsIn = s.levelsIn := by
  unfold endWait; split <;> rfl
@[simp] theorem endWait_outcomesIn (o : WaitOutcome) : (endWait o s).outcomesIn = s.outcomesIn := by
  unfold endWait; split <;> rfl
@[simp] theorem endWait_draws (o : WaitOutcome) : (endWait o s).draws = s.draws := by
  unfold endWait; split <;> rfl
@[simp] theorem endWait_trace (o : WaitOutcome) : (endWait o s).trace = s.trace := by
  unfold endWait; split <;> rfl
@[simp] theorem endWait_engine (o : WaitOutcome) : (endWait o s).engine = none := by
  unfold endWait; split <;> simp_all

/-! The views of the state that read pins and operand registers. -/


@[simp] theorem emit_dirOf (e : Event) (q : Pin) : (emit e s).dirOf q = s.dirOf q := rfl
@[simp] theorem emit_outOf (e : Event) (q : Pin) : (emit e s).outOf q = s.outOf q := rfl
@[simp] theorem emit_reg (e : Event) (q : RegName) : (emit e s).reg q = s.reg q := rfl
@[simp] theorem emit_written (e : Event) (q : RegName) : (emit e s).written q = s.written q := rfl
@[simp] theorem setDir_outOf (p : Pin) (d : Dir) (q : Pin) : (setDir p d s).outOf q = s.outOf q := rfl
@[simp] theorem setDir_reg (p : Pin) (d : Dir) (q : RegName) : (setDir p d s).reg q = s.reg q := rfl
@[simp] theorem setDir_written (p : Pin) (d : Dir) (q : RegName) : (setDir p d s).written q = s.written q := rfl
@[simp] theorem setOut_dirOf (p : Pin) (l : Level) (q : Pin) : (setOut p l s).dirOf q = s.dirOf q := rfl
@[simp] theorem setOut_reg (p : Pin) (l : Level) (q : RegName) : (setOut p l s).reg q = s.reg q := rfl
@[simp] theorem setOut_written (p : Pin) (l : Level) (q : RegName) : (setOut p l s).written q = s.written q := rfl
@[simp] theorem launch_dirOf (op : Opcode) (q : Pin) : (launch op s).dirOf q = s.dirOf q := rfl
@[simp] theorem launch_outOf (op : Opcode) (q : Pin) : (launch op s).outOf q = s.outOf q := rfl
@[simp] theorem launch_reg (op : Opcode) (q : RegName) : (launch op s).reg q = s.reg q := rfl
@[simp] theorem launch_written (op : Opcode) (q : RegName) : (launch op s).written q = s.written q := rfl
@[simp] theorem finish_dirOf (q : Pin) : (finish s).dirOf q = s.dirOf q := rfl
@[simp] theorem finish_outOf (q : Pin) : (finish s).outOf q = s.outOf q := rfl
@[simp] theorem finish_reg (q : RegName) : (finish s).reg q = s.reg q := rfl
@[simp] theorem finish_written (q : RegName) : (finish s).written q = s.written q := rfl
@[simp] theorem finishWithError_dirOf (k : WaitOutcome) (q : Pin) : (finishWithError k s).dirOf q = s.dirOf q := rfl
@[simp] theorem finishWithError_outOf (k : WaitOutcome) (q : Pin) : (finishWithError k s).outOf q = s.outOf q := rfl
@[simp] theorem finishWithError_reg (k : WaitOutcome) (q : RegName) : (finishWithError k s).reg q = s.reg q := rfl
@[simp] theorem finishWithError_written (k : WaitOutcome) (q : RegName) : (finishWithError k s).written q = s.written q := rfl
@[simp] theorem issue_dirOf (is : List Instr) (q : Pin) : (issue is s).dirOf q = s.dirOf q := rfl
@[simp] theorem issue_outOf (is : List Instr) (q : Pin) : (issue is s).outOf q = s.outOf q := rfl
@[simp] theorem issue_reg (is : List Instr) (q : RegName) : (issue is s).reg q = s.reg q := rfl
@[simp] theorem issue_written (is : List Instr) (q : RegName) : (issue is s).written q = s.written q := rfl
@[simp] theorem goto_dirOf (ph : Phase) (q : Pin) : (goto ph s).dirOf q = s.dirOf q := rfl
@[simp] theorem goto_outOf (ph : Phase) (q : Pin) : (goto ph s).outOf q = s.outOf q := rfl
@[simp] theorem goto_reg (ph : Phase) (q : RegName) : (goto ph s).reg q = s.reg q := rfl
@[simp] theorem goto_written (ph : Phase) (q : RegName) : (goto ph s).written q = s.written q := rfl
@[simp] theorem beginWait_dirOf (r : EngineReq) (q : Pin) : (beginWait r s).dirOf q = s.dirOf q := rfl
@[simp] theorem beginWait_outOf (r : EngineReq) (q : Pin) : (beginWait r s).outOf q = s.outOf q := rfl
@[simp] theorem beginWait_reg (r : EngineReq) (q : RegName) : (beginWait r s).reg q = s.reg q := rfl
@[simp] theorem beginWait_written (r : EngineReq) (q : RegName) : (beginWait r s).written q = s.written q := rfl
@[simp] theorem answerHost_dirOf (v : Option Nat) (q : Pin) : (answerHost v s).dirOf q = s.dirOf q := rfl
@[simp] theorem answerHost_outOf (v : Option Nat) (q : Pin) : (answerHost v s).outOf q = s.outOf q := rfl
@[simp] theorem answerHost_reg (v : Option Nat) (q : RegName) : (answerHost v s).reg q = s.reg q := rfl
@[simp] theorem answerHost_written (v : Option Nat) (q : RegName) : (answerHost v s).written q = s.written q := rfl

end Sys2Proof.Machine
end

