-- ==== Sys2Proof/Laws/Ops.lean ====
section
/-! SUPPORT. One lemma per shared operation that says everything it can do: if it answers a next state, then which, and under
which conditions. -/

namespace Sys2Proof.Machine

/-! Sequencing. -/

@[simp] theorem andThen_next (s : State) (f : State → Res) : andThen (.next s) f = f s := rfl
@[simp] theorem andThen_fault (e : Fault) (f : State → Res) : andThen (.fault e) f = .fault e := rfl
@[simp] theorem andThen_refused (e : Refusal) (f : State → Res) : andThen (.refused e) f = .refused e := rfl

theorem andThen_eq_next {r : Res} {f : State → Res} {t : State} (h : andThen r f = .next t) :
    ∃ s, r = .next s ∧ f s = .next t := by
  cases r with
  | next s => exact ⟨s, rfl, h⟩
  | fault e => cases h
  | refused e => cases h

/-! Refusals. -/

theorem firstRefusal_none (l : List (Bool × Refusal)) :
    firstRefusal l = none ↔ ∀ e ∈ l, e.1 = false := by
  induction l with
  | nil => simp [firstRefusal]
  | cons e l ih => obtain ⟨b, r⟩ := e; cases b <;> simp [firstRefusal, ih]

/-- One condition that holds refuses the command. -/
theorem firstRefusal_some_of_mem {l : List (Bool × Refusal)} {r : Refusal} (h : (true, r) ∈ l) :
    ∃ r', firstRefusal l = some r' := by
  cases hl : firstRefusal l with
  | some r' => exact ⟨r', rfl⟩
  | none => exact absurd ((firstRefusal_none l).1 hl _ h) (by simp)

theorem readsOperands_clear (rs : List RegName) (s : State) :
    (∀ e ∈ readsOperands rs s, e.1 = false) ↔ ∀ r ∈ rs, s.written r = true := by
  simp [readsOperands]

theorem mem_readsOperands {rs : List RegName} {r : RegName} {s : State} (hr : r ∈ rs)
    (h : s.written r = false) : (true, Refusal.operandUnwritten r) ∈ readsOperands rs s :=
  List.mem_map.2 ⟨r, hr, by simp [h]⟩

/-- The launch of a command answers a next state only if the host is free and nothing refuses the command. -/
theorem launchCommand_next {op : Opcode} {ref : Option Refusal} {body : State → Res} {s t : State}
    (h : launchCommand op ref body s = .next t) :
    s.busy = false ∧ ref = none ∧ body (launch op s) = .next t := by
  unfold launchCommand at h
  split at h
  · cases h
  · cases ref with
    | some r => cases h
    | none => exact ⟨by simpa using ‹¬s.busy = true›, rfl, h⟩

theorem launchCommand_runs {op : Opcode} {ref : Option Refusal} {body : State → Res} {s : State}
    (hb : s.busy = false) (hr : ref = none) : launchCommand op ref body s = body (launch op s) := by
  simp [launchCommand, hb, hr]

theorem launchCommand_refused {op : Opcode} {ref : Option Refusal} {body : State → Res} {s : State}
    (h : ∃ r, ref = some r) : ∃ r, launchCommand op ref body s = .refused r := by
  obtain ⟨r, rfl⟩ := h
  unfold launchCommand
  split
  · exact ⟨_, rfl⟩
  · exact ⟨r, rfl⟩

/-! Pins. -/

@[simp] theorem setDir_dirOf_self (p : Pin) (d : Dir) (s : State) : (setDir p d s).dirOf p = some d := by
  simp [State.dirOf]

theorem setDir_dirOf_other {p q : Pin} (d : Dir) (s : State) (h : q ≠ p) :
    (setDir p d s).dirOf q = s.dirOf q :=
  assocGet_set_other d s.dirs h

@[simp] theorem setOut_outOf_self (p : Pin) (l : Level) (s : State) : (setOut p l s).outOf p = some l := by
  simp [State.outOf]

theorem setOut_outOf_other {p q : Pin} (l : Level) (s : State) (h : q ≠ p) :
    (setOut p l s).outOf q = s.outOf q :=
  assocGet_set_other l s.outs h

theorem execPinDir_next {p : Pin} {d : Dir} {s t : State} (h : execPinDir p d s = .next t) :
    pinExists s.cfg p = true ∧ t = emit (.pinDir p d) (setDir p d s) := by
  unfold execPinDir at h
  split at h
  · exact ⟨‹_›, by simpa using h.symm⟩
  · cases h

theorem execPinSet_next {p : Pin} {l : Level} {s t : State} (h : execPinSet p l s = .next t) :
    pinExists s.cfg p = true ∧ s.dirOf p = some .output ∧ t = emit (.pinSet p l) (setOut p l s) := by
  unfold execPinSet at h
  split at h
  · split at h
    · exact ⟨‹_›, ‹_›, by simpa using h.symm⟩
    · cases h
  · cases h

theorem execPinGet_next {p : Pin} {s t : State} (h : execPinGet p s = .next t) :
    s.cfg.hasReadLevel = true ∧ pinExists s.cfg p = true ∧ s.dirOf p = some .input ∧
    t = emit (.pinGet p (drawLevel s).1) { (drawLevel s).2 with answer := some (drawLevel s).1 } := by
  unfold execPinGet at h
  split at h
  · cases h
  · next hr =>
    split at h
    · split at h
      · exact ⟨by simpa using hr, ‹_›, ‹_›, by simpa using h.symm⟩
      · cases h
    · cases h

/-! TimingError and waits. -/

/-- Taking a TimingError either begins the abort of a transaction or ends the command at once. -/
theorem takeTimingError_next {k : WaitOutcome} {s t : State} (h : takeTimingError k s = .next t) :
    (s.inTransaction = true ∧ ∃ c, s.ctx[s.tBus]? = some c ∧
      t = issue [.pinset c.cs high] (goto .abortCs { s with abortKind := k })) ∨
    (s.inTransaction = false ∧ t = issue [] (finishWithError k s)) := by
  unfold takeTimingError at h
  split at h
  · next hin =>
    cases hc : s.ctx[s.tBus]? with
    | none => simp [hc] at h
    | some c => simp only [hc] at h; exact .inl ⟨hin, c, rfl, by simpa using h.symm⟩
  · next hin => exact .inr ⟨by simpa using hin, by simpa using h.symm⟩

theorem settleWait_next {o : WaitOutcome} {s t : State} (h : settleWait o s = .next t) :
    (o = .ok ∧ t = s) ∨ (o ≠ .ok ∧ takeTimingError o s = .next t) := by
  unfold settleWait at h
  split at h
  · exact .inl ⟨‹_›, by simpa using h.symm⟩
  · exact .inr ⟨‹_›, h⟩

@[simp] theorem settleWait_ok (s : State) : settleWait .ok s = .next s := rfl

/-- Under SPIN a wait ends ok and draws nothing (R73). -/
theorem engineOutcome_spin {s : State} (h : s.cfg.strategy = .spin) : engineOutcome s = (.ok, s) := by
  simp [engineOutcome, h]

/-- Under SLEEP the next scripted outcome is the wait's. -/
theorem engineOutcome_sleep {s : State} {o : WaitOutcome} {rest : List WaitOutcome}
    (h : s.cfg.strategy = .sleep) (ho : s.outcomesIn = o :: rest) :
    engineOutcome s = (o, { s with outcomesIn := rest }) := by
  simp [engineOutcome, h, drawOutcome, ho]

/-! The sequencer. -/

theorem enter_next {q : Seq} {s t : State} (h : enter q s = .next t) :
    ∃ c, s.ctx[s.tBus]? = some c ∧ t = issue (rowOf c { s with seq := q }) { s with seq := q } := by
  unfold enter at h
  cases hc : s.ctx[s.tBus]? with
  | none => simp [hc] at h
  | some c => simp only [hc] at h; exact ⟨c, rfl, by simpa using h.symm⟩

theorem enter_of_ctx {q : Seq} {s : State} {c : Context} (h : s.ctx[s.tBus]? = some c) :
    enter q s = .next (issue (rowOf c { s with seq := q }) { s with seq := q }) := by
  simp [enter, h]

/-- The start of a byte: the sequencer is in slot a of its first bit, with the byte to send, or zero, in CUR_BYTE. -/
theorem startByte_next {i : Nat} {s t : State} (h : startByte i s = .next t) :
    ∃ c b, s.ctx[s.tBus]? = some c ∧ (s.tOp = .read → b = 0#8) ∧ (s.tOp ≠ .read → s.buf.read i = some b) ∧
      t = issue (rowOf c { s with curByte := b, seq := ⟨.aWait, i, 0⟩ })
        { s with curByte := b, seq := ⟨.aWait, i, 0⟩ } := by
  unfold startByte at h
  split at h
  · next hr =>
    obtain ⟨c, hc, rfl⟩ := enter_next h
    exact ⟨c, _, hc, fun _ => rfl, fun hn => absurd hr hn, rfl⟩
  · next hr =>
    cases hb : s.buf.read i with
    | none => simp [hb] at h
    | some b =>
      simp only [hb] at h
      obtain ⟨c, hc, rfl⟩ := enter_next h
      exact ⟨c, b, hc, fun hn => absurd hn hr, fun _ => rfl, rfl⟩

/-- The step to the next phase is one of three: the command ends, an abort ends, or the sequencer stands at another
position with the requests of its phase on the port; on the way only CUR_BYTE and the buffer byte of a READ change. -/
theorem advance_next {s t : State} (h : advance s = .next t) :
    ((s.seq.phase = .init ∨ s.seq.phase = .dly ∨ s.seq.phase = .guardWait) ∧ t = finish s) ∨
    (s.seq.phase = .abortCs ∧ t = finishWithError s.abortKind s) ∨
    (∃ c q b m, s.ctx[s.tBus]? = some c ∧ q.phase ≠ .idle ∧ q.phase ≠ .abortCs ∧
      (m = s.buf ∨ (s.tOp = .read ∧ s.seq.phase = .dAct ∧ s.seq.bitIdx = 7 ∧ s.seq.byteIdx < s.cfg.bufLen ∧
        m = s.buf.write s.seq.byteIdx s.curByte)) ∧
      t = issue (rowOf c { s with buf := m, curByte := b, seq := q }) { s with buf := m, curByte := b, seq := q }) := by
  have phase : ∀ ph, ph ≠ Phase.idle → ph ≠ .abortCs → enterPhase ph s = .next t → ∃ c q b m,
      s.ctx[s.tBus]? = some c ∧ q.phase ≠ .idle ∧ q.phase ≠ .abortCs ∧
      (m = s.buf ∨ (s.tOp = .read ∧ s.seq.phase = .dAct ∧ s.seq.bitIdx = 7 ∧ s.seq.byteIdx < s.cfg.bufLen ∧
        m = s.buf.write s.seq.byteIdx s.curByte)) ∧
      t = issue (rowOf c { s with buf := m, curByte := b, seq := q }) { s with buf := m, curByte := b, seq := q } := by
    intro ph h1 h2 he
    obtain ⟨c, hc, rfl⟩ := enter_next he
    exact ⟨c, { s.seq with phase := ph }, s.curByte, s.buf, hc, h1, h2, .inl rfl, rfl⟩
  cases hp : s.seq.phase <;> simp only [advance, hp] at h
  case idle => cases h
  case init => exact .inl ⟨.inl rfl, by simpa using h.symm⟩
  case dly => exact .inl ⟨.inr (.inl rfl), by simpa using h.symm⟩
  case guardWait => exact .inl ⟨.inr (.inr rfl), by simpa using h.symm⟩
  case abortCs => exact .inr (.inl ⟨rfl, by simpa [returnFromTimingError] using h.symm⟩)
  case csLow =>
    refine .inr (.inr ?_)
    split at h
    · obtain ⟨c, b, hc, -, -, rfl⟩ := startByte_next h
      exact ⟨c, _, b, s.buf, hc, by simp, by simp, .inl rfl, rfl⟩
    · simpa [hp] using phase _ (by simp) (by simp) h
  case dAct =>
    refine .inr (.inr ?_)
    unfold nextBit at h
    split at h
    · obtain ⟨c, hc, rfl⟩ := enter_next h
      exact ⟨c, _, s.curByte, s.buf, hc, by simp, by simp, .inl rfl, rfl⟩
    · next hj =>
      have h7 : s.seq.bitIdx = 7 := by
        have := s.seq.bitIdx.isLt
        exact Fin.ext (by simpa using (by omega : s.seq.bitIdx.val = 7))
      obtain ⟨s₁, hs₁, h⟩ := andThen_eq_next h
      have hm : ∃ m, s₁ = { s with buf := m } ∧ (m = s.buf ∨ (s.tOp = .read ∧ s.seq.byteIdx < s.cfg.bufLen ∧
          m = s.buf.write s.seq.byteIdx s.curByte)) := by
        unfold storeByte at hs₁
        split at hs₁
        · obtain ⟨hi, rfl⟩ := storeBuf_next hs₁
          exact ⟨_, rfl, .inr ⟨‹_›, hi, rfl⟩⟩
        · exact ⟨s.buf, by simpa using hs₁.symm, .inl rfl⟩
      obtain ⟨m, rfl, hm⟩ := hm
      have hm' : m = s.buf ∨ (s.tOp = .read ∧ Phase.dAct = .dAct ∧ s.seq.bitIdx = 7 ∧
          s.seq.byteIdx < s.cfg.bufLen ∧ m = s.buf.write s.seq.byteIdx s.curByte) := by tauto
      unfold nextByte at h
      split at h
      · obtain ⟨c, b, hc, -, -, rfl⟩ := startByte_next h
        exact ⟨c, _, b, m, hc, by simp, by simp, hm', rfl⟩
      · obtain ⟨c, hc, rfl⟩ := enter_next h
        exact ⟨c, _, s.curByte, m, hc, by simp, by simp, hm', rfl⟩
  all_goals exact .inr (.inr (by simpa [hp] using phase _ (by simp) (by simp) h))

/-- The answer of a PINGET is taken: the answer line is free again and at most CUR_BYTE changes. -/
theorem takeAnswer_next {l : Level} {s t : State} (h : takeAnswer l s = .next t) :
    ∃ c b, s.ctx[s.tBus]? = some c ∧
      (s.tOp = .read → b = composeBit c.order s.curByte s.seq.bitIdx l) ∧ (s.tOp ≠ .read → b = s.curByte) ∧
      t = { s with answer := none, curByte := b } := by
  unfold takeAnswer at h
  cases hc : s.ctx[s.tBus]? with
  | none => simp [hc] at h
  | some c =>
    simp only [hc] at h
    split at h
    · next hr => exact ⟨c, _, rfl, fun _ => rfl, fun hn => absurd hr hn, by simpa using h.symm⟩
    · next hr => exact ⟨c, _, rfl, fun hn => absurd hn hr, fun _ => rfl, by simpa using h.symm⟩

end Sys2Proof.Machine
end

