-- ==== Sys2Proof/Laws/PerInstr.lean ====
section
/-! SUPPORT. A statement about every instruction, one lemma per constructor: the word of an instruction carries the opcode
table's fixed bits of its row. -/

namespace Sys2Proof.Laws.TableBits

/-- The mask and match of an instruction's row of spec/opcode_table.json (`30_encoding.md` R49, R50). -/
def row : Instr → Nat × Nat
  | .construct => (7, 0)
  | .derive => (7, 1)
  | .write => (7, 2)
  | .read => (7, 3)
  | .waitns => (7, 4)
  | .waitms => (7, 5)
  | .pindir _ _ => (3, 0)
  | .pinset _ _ => (3, 1)
  | .pinget _ => (3, 2)
  | .wait _ => (3, 3)

/-- The bits of the word under the row's mask are the row's match. -/
def Statement (i : Instr) : Prop := encode i % ((row i).1 + 1) = (row i).2

theorem construct : Statement .construct := rfl
theorem derive : Statement .derive := rfl
theorem write : Statement .write := rfl
theorem read : Statement .read := rfl
theorem waitns : Statement .waitns := rfl
theorem waitms : Statement .waitms := rfl
theorem pindir (p : Pin) (d : Dir) : Statement (.pindir p d) := by
  simp only [Statement, encode, row]; omega
theorem pinset (p : Pin) (l : Level) : Statement (.pinset p l) := by
  simp only [Statement, encode, row]; omega
theorem pinget (p : Pin) : Statement (.pinget p) := by
  simp only [Statement, encode, row]; omega
theorem wait (d : Nat) : Statement (.wait d) := by
  simp only [Statement, encode, row]; omega

end Sys2Proof.Laws.TableBits
end

