-- ==== Sys2Proof/Laws/Step.lean ====
section
/-! SUPPORT. What each instruction and each step can do: one lemma per instruction and per turn, which says every case with
its conditions, and the equations a run is computed with. -/

namespace Sys2Proof.Machine

/-! Instructions. -/

/-- A wait ends ok and changes only the records, or it fails and raises TimingError. -/
theorem execWait_next {d : Nat} {s t : State} (h : execWait d s = .next t) :
    let r := engineOutcome (beginWait (waitRequest s.cfg d) s)
    (r.1 = .ok ∧ t = emit (.wait d .ok) (endWait .ok r.2)) ∨
      (r.1 ≠ .ok ∧ takeTimingError r.1 (emit (.wait d r.1) (endWait r.1 r.2)) = .next t) := by
  intro r
  rcases settleWait_next h with ⟨ho, ht⟩ | ⟨ho, ht⟩
  · exact .inl ⟨ho, by rw [ht, ho]⟩
  · exact .inr ⟨ho, ht⟩

/-- The end of the wait in progress, likewise. -/
theorem finishWait_next {s t : State} (h : finishWait s = .next t) :
    let r := engineOutcome s
    (r.1 = .ok ∧ t = endWait .ok r.2) ∨ (r.1 ≠ .ok ∧ takeTimingError r.1 (endWait r.1 r.2) = .next t) := by
  intro r
  rcases settleWait_next h with ⟨ho, ht⟩ | ⟨ho, ht⟩
  · exact .inl ⟨ho, by rw [ht, ho]⟩
  · exact .inr ⟨ho, ht⟩

/-! The equations an instruction is computed with. -/

theorem execPinDir_runs {p : Pin} {d : Dir} {s : State} (hp : pinExists s.cfg p = true) :
    execPinDir p d s = .next (emit (.pinDir p d) (setDir p d s)) := by
  simp [execPinDir, hp]

theorem execPinSet_runs {p : Pin} {l : Level} {s : State} (hp : pinExists s.cfg p = true)
    (hd : s.dirOf p = some .output) : execPinSet p l s = .next (emit (.pinSet p l) (setOut p l s)) := by
  simp [execPinSet, hp, hd]

theorem execPinGet_runs {p : Pin} {s : State} (hr : s.cfg.hasReadLevel = true) (hp : pinExists s.cfg p = true)
    (hd : s.dirOf p = some .input) :
    execPinGet p s =
      .next (emit (.pinGet p (drawLevel s).1) { (drawLevel s).2 with answer := some (drawLevel s).1 }) := by
  simp [execPinGet, hr, hp, hd]

theorem drawLevel_scripted {s : State} {l : Level} {rest : List Level} (h : s.levelsIn = l :: rest) :
    drawLevel s = (l, { s with levelsIn := rest }) := by
  simp [drawLevel, h]

/-- A wait under SPIN. -/
theorem execWait_spin {d : Nat} {s : State} (h : s.cfg.strategy = .spin) :
    execWait d s = .next
      { s with
        engine := none
        trace := s.trace ++ [.wait d .ok]
        engineLog := s.engineLog ++ [(waitRequest s.cfg d, .ok)] } := by
  simp only [execWait, engineOutcome_spin (s := beginWait (waitRequest s.cfg d) s) h]
  rfl

/-- A wait under SLEEP whose outcome is scripted. -/
theorem execWait_sleep {d : Nat} {s : State} {o : WaitOutcome} {rest : List WaitOutcome}
    (h : s.cfg.strategy = .sleep) (ho : s.outcomesIn = o :: rest) :
    execWait d s = settleWait o
      { s with
        engine := none
        trace := s.trace ++ [.wait d o]
        engineLog := s.engineLog ++ [(waitRequest s.cfg d, o)]
        outcomesIn := rest } := by
  simp only [execWait, engineOutcome_sleep (s := beginWait (waitRequest s.cfg d) s) h ho]
  rfl

/-- Taking the environment's answer changes only what it will answer next. -/
theorem drawOutcome_next (s : State) :
    (drawOutcome s).2 = { s with outcomesIn := (drawOutcome s).2.outcomesIn, draws := (drawOutcome s).2.draws } := by
  unfold drawOutcome
  split <;> rfl

theorem drawOutcome_scripted {s : State} {o : WaitOutcome} {rest : List WaitOutcome} (h : s.outcomesIn = o :: rest) :
    drawOutcome s = (o, { s with outcomesIn := rest }) := by
  simp [drawOutcome, h]

theorem drawOutcome_free {s : State} (h : s.outcomesIn = []) :
    (drawOutcome s).2 = { s with draws := s.draws + 1 } := by
  simp [drawOutcome, h]

theorem engineOutcome_drawn {s : State} (h : s.cfg.strategy = .sleep) : engineOutcome s = drawOutcome s := by
  simp [engineOutcome, h]

/-- The outcome of a wait, and what is left of the environment's answers, depend on the strategy and those answers only. -/
theorem engineOutcome_congr {s t : State} (hc : t.cfg = s.cfg) (ho : t.outcomesIn = s.outcomesIn)
    (hd : t.draws = s.draws) :
    (engineOutcome t).1 = (engineOutcome s).1 ∧
      (engineOutcome t).2.outcomesIn = (engineOutcome s).2.outcomesIn ∧
      (engineOutcome t).2.draws = (engineOutcome s).2.draws := by
  unfold engineOutcome drawOutcome
  rw [hc, ho, hd]
  split
  · exact ⟨rfl, ho, hd⟩
  · split <;> exact ⟨rfl, rfl, rfl⟩

/-- What the engine ends a wait with, and what is left of the environment's answers, do not depend on the wait. -/
theorem engineOutcome_beginWait (r : EngineReq) (s : State) :
    engineOutcome (beginWait r s) = ((engineOutcome s).1, beginWait r (engineOutcome s).2) := by
  unfold engineOutcome beginWait drawOutcome
  dsimp only
  split
  · rfl
  · split <;> rfl

/-- Asking for an outcome changes only what the environment will answer next. -/
theorem engineOutcome_next (s : State) :
    (engineOutcome s).2 =
      { s with outcomesIn := (engineOutcome s).2.outcomesIn, draws := (engineOutcome s).2.draws } := by
  unfold engineOutcome
  split
  · rfl
  · exact drawOutcome_next s

/-- A WAIT, under either strategy and for any answer of the environment. -/
theorem execWait_settles (d : Nat) (s : State) :
    execWait d s = settleWait (engineOutcome s).1
      { s with
        engine := none
        trace := s.trace ++ [.wait d (engineOutcome s).1]
        engineLog := s.engineLog ++ [(waitRequest s.cfg d, (engineOutcome s).1)]
        outcomesIn := (engineOutcome s).2.outcomesIn
        draws := (engineOutcome s).2.draws } := by
  simp only [execWait, engineOutcome_beginWait]
  rw [engineOutcome_next s]
  rfl

/-- The end of a wait in progress, under either strategy and for any answer of the environment. -/
theorem finishWait_settles {s : State} {r : EngineReq} (he : s.engine = some r) :
    finishWait s = settleWait (engineOutcome s).1
      { s with
        engine := none
        engineLog := s.engineLog ++ [(r, (engineOutcome s).1)]
        outcomesIn := (engineOutcome s).2.outcomesIn
        draws := (engineOutcome s).2.draws } := by
  unfold finishWait
  rw [engineOutcome_next s]
  simp only [endWait, he]

/-- The end of a wait in progress under SPIN. -/
theorem finishWait_spin {s : State} {r : EngineReq} (h : s.cfg.strategy = .spin) (he : s.engine = some r) :
    finishWait s = .next { s with engine := none, engineLog := s.engineLog ++ [(r, .ok)] } := by
  simp only [finishWait, engineOutcome_spin h, endWait, he, settleWait_ok]

/-- The end of a wait in progress under SLEEP, its outcome scripted. -/
theorem finishWait_sleep {s : State} {r : EngineReq} {o : WaitOutcome} {rest : List WaitOutcome}
    (h : s.cfg.strategy = .sleep) (he : s.engine = some r) (ho : s.outcomesIn = o :: rest) :
    finishWait s = settleWait o
      { s with engine := none, engineLog := s.engineLog ++ [(r, o)], outcomesIn := rest } := by
  simp only [finishWait, engineOutcome_sleep h ho, endWait, he]

theorem takeTimingError_transaction {k : WaitOutcome} {s : State} {c : Context} (h : s.inTransaction = true)
    (hc : s.ctx[s.tBus]? = some c) :
    takeTimingError k s = .next (issue [.pinset c.cs high] (goto .abortCs { s with abortKind := k })) := by
  simp only [takeTimingError, h, if_true, hc]

theorem takeTimingError_other {k : WaitOutcome} {s : State} (h : s.inTransaction = false) :
    takeTimingError k s = .next (issue [] (finishWithError k s)) := by
  simp only [takeTimingError, h, Bool.false_eq_true, if_false]

theorem settleWait_other {k : WaitOutcome} {s : State} (hk : k ≠ .ok) (h : s.inTransaction = false) :
    settleWait k s = .next (issue [] (finishWithError k s)) := by
  rw [settleWait, if_neg hk, takeTimingError_other h]

theorem settleWait_transaction {k : WaitOutcome} {s : State} {c : Context} (hk : k ≠ .ok)
    (h : s.inTransaction = true) (hc : s.ctx[s.tBus]? = some c) :
    settleWait k s = .next (issue [.pinset c.cs high] (goto .abortCs { s with abortKind := k })) := by
  rw [settleWait, if_neg hk, takeTimingError_transaction h hc]

/-! The launches. -/

theorem execWaitNs_next {s t : State} (h : execWaitNs s = .next t) :
    s.busy = false ∧ s.written .aDur = true ∧
      t = issue [.wait (s.reg .aDur)] (goto .dly (launch .waitns s)) := by
  obtain ⟨hb, hr, ht⟩ := launchCommand_next h
  refine ⟨hb, ?_, by simpa using ht.symm⟩
  have := (firstRefusal_none _).1 hr
  exact (readsOperands_clear _ _).1 this .aDur (by simp)

theorem execWaitMs_next {s t : State} (h : execWaitMs s = .next t) :
    s.busy = false ∧ s.written .aDur = true ∧ s.reg .aDur ≤ maxMilliseconds ∧
      t = issue [] (beginWait (waitMsRequest s.cfg (s.reg .aDur)) (goto .dly (launch .waitms s))) := by
  obtain ⟨hb, hr, ht⟩ := launchCommand_next h
  have hc := (firstRefusal_none _).1 hr
  refine ⟨hb, ?_, ?_, by simpa using ht.symm⟩
  · exact (readsOperands_clear _ _).1 (fun e he => hc e (List.mem_append_left _ he)) .aDur (by simp)
  · simpa using hc _ (List.mem_append_right _ (List.mem_singleton.2 rfl))

theorem validCtx_isNone {s : State} {b : Nat} :
    (s.validCtx b).isNone = true ↔ ∀ c, s.ctx[b]? = some c → c.valid = false := by
  unfold State.validCtx
  cases h : s.ctx[b]? with
  | none => simp
  | some c => cases hv : c.valid <;> simp [hv]

theorem validCtx_some {s : State} {b : Nat} {c : Context} (h : s.ctx[b]? = some c) (hv : c.valid = true) :
    s.validCtx b = some c := by
  simp [State.validCtx, h, hv]

theorem constructRefusal_none {s : State} (h : constructRefusal s = none) :
    (∀ r ∈ [RegName.aBus, .aMosi, .aMiso, .aClk, .aCs, .aMode, .aOrder, .aSpeed], s.written r = true) ∧
    s.reg .aBus < s.cfg.nBus ∧ 1 ≤ s.reg .aMode ∧ s.reg .aMode ≤ 4 ∧ 1 ≤ s.reg .aSpeed ∧
    s.reg .aSpeed ≤ freqMax ∧ pinsDiffer (s.reg .aMosi) (s.reg .aMiso) (s.reg .aClk) (s.reg .aCs) = true := by
  have hc := (firstRefusal_none _).1 h
  have hr := (readsOperands_clear _ _).1 fun e he => hc e (List.mem_append_left _ he)
  have hx : ∀ e ∈ ([_, _, _, _] : List (Bool × Refusal)), e.1 = false := fun e he => hc e (List.mem_append_right _ he)
  simp [badHandle] at hx
  obtain ⟨h1, h2, h3, h4⟩ := hx
  exact ⟨hr, h1, by omega, h2.2, by omega, h3.2, h4⟩

theorem execConstruct_next {s t : State} (h : execConstruct s = .next t) :
    s.busy = false ∧ constructRefusal s = none ∧
      t = issue (constructRequests s.cfg (constructContext s))
        (goto .init { launch .construct s with ctx := s.ctx.set (s.reg .aBus) (constructContext s) }) := by
  obtain ⟨hb, hr, ht⟩ := launchCommand_next h
  exact ⟨hb, hr, (Host.Outcome.next.inj ht).symm⟩

theorem deriveRefusal_none {s : State} (h : deriveRefusal s = none) :
    (∀ r ∈ [RegName.aBus, .aSrc, .aCs], s.written r = true) ∧
    s.reg .aBus < s.cfg.nBus ∧ s.reg .aSrc < s.cfg.nBus ∧ s.reg .aBus ≠ s.reg .aSrc ∧
    ∃ c, s.ctx[s.reg .aSrc]? = some c ∧ c.valid = true ∧ c.hasPin (s.reg .aCs) = false := by
  have hc := (firstRefusal_none _).1 h
  have hr := (readsOperands_clear _ _).1 fun e he => hc e (List.mem_append_left _ he)
  have hx : ∀ e ∈ ([_, _, _, _, _] : List (Bool × Refusal)), e.1 = false := fun e he => hc e (List.mem_append_right _ he)
  simp only [List.mem_cons, List.not_mem_nil, or_false, forall_eq_or_imp, forall_eq, badHandle] at hx
  obtain ⟨h1, h2, h3, h4, h5⟩ := hx
  refine ⟨hr, by simpa using h1, by simpa using h2, by simpa using h4, ?_⟩
  unfold State.validCtx at h3 h5
  cases hs : s.ctx[s.reg .aSrc]? with
  | none => simp [hs] at h3
  | some c =>
    cases hv : c.valid with
    | false => simp [hs, hv] at h3
    | true => exact ⟨c, rfl, hv, by simpa [hs, hv] using h5⟩

theorem execDerive_next {s t : State} (h : execDerive s = .next t) :
    s.busy = false ∧ deriveRefusal s = none ∧ ∃ src, s.ctx[s.reg .aSrc]? = some src ∧
      t = issue (deriveRequests (s.reg .aCs))
        (goto .init { launch .derive s with ctx := s.ctx.set (s.reg .aBus) (deriveContext src (s.reg .aCs)) }) := by
  obtain ⟨hb, hr, ht⟩ := launchCommand_next h
  refine ⟨hb, hr, ?_⟩
  cases hs : s.ctx[s.reg .aSrc]? with
  | none => simp [hs] at ht
  | some src => exact ⟨src, rfl, by simpa [hs] using ht.symm⟩

/-- What the refusals WRITE and READ share leave of a state that passes them. -/
theorem transferRefusals_clear {s : State} (h : ∀ e ∈ transferRefusals s, e.1 = false) :
    s.written .aBus = true ∧ s.written .aSize = true ∧ s.reg .aBus < s.cfg.nBus ∧
    s.reg .aSize ≤ s.cfg.bufLen ∧ ∃ c, s.ctx[s.reg .aBus]? = some c ∧ c.valid = true := by
  have hr := (readsOperands_clear [.aBus, .aSize] s).1 fun e he => h e (List.mem_append_left _ he)
  have hx : ∀ e ∈ ([_, _, _] : List (Bool × Refusal)), e.1 = false := fun e he => h e (List.mem_append_right _ he)
  simp only [List.mem_cons, List.not_mem_nil, or_false, forall_eq_or_imp, forall_eq, badHandle] at hx
  obtain ⟨h1, h2, h3⟩ := hx
  refine ⟨hr _ (by simp), hr _ (by simp), by simpa using h1, by simpa using h3, ?_⟩
  unfold State.validCtx at h2
  cases hs : s.ctx[s.reg .aBus]? with
  | none => simp [hs] at h2
  | some c =>
    cases hv : c.valid with
    | false => simp [hs, hv] at h2
    | true => exact ⟨c, rfl, hv⟩

/-- The state a transaction starts in: its operands copied, in phase PRE_MOSI with that phase's requests. -/
theorem startTransfer_next {s t : State} (h : startTransfer s = .next t) :
    ∃ c, s.ctx[s.reg .aBus]? = some c ∧
      t = issue (rowOf c { s with tBus := s.reg .aBus, tSize := s.reg .aSize, seq := { s.seq with phase := .preMosi } })
        { s with tBus := s.reg .aBus, tSize := s.reg .aSize, seq := { s.seq with phase := .preMosi } } := by
  obtain ⟨c, hc, rfl⟩ := enter_next h
  exact ⟨c, hc, rfl⟩

theorem execWrite_next {s t : State} (h : execWrite s = .next t) :
    s.busy = false ∧ (∀ e ∈ transferRefusals s, e.1 = false) ∧ s.buf.allWritten (s.reg .aSize) = true ∧
      startTransfer (launch .write s) = .next t := by
  obtain ⟨hb, hr, ht⟩ := launchCommand_next h
  have hc := (firstRefusal_none _).1 hr
  exact ⟨hb, fun e he => hc e (List.mem_append_left _ he),
    by simpa using hc _ (List.mem_append_right _ (List.mem_singleton.2 rfl)), ht⟩

theorem execRead_next {s t : State} (h : execRead s = .next t) :
    s.busy = false ∧ (∀ e ∈ transferRefusals s, e.1 = false) ∧ s.cfg.hasReadLevel = true ∧
      startTransfer (launch .read s) = .next t := by
  obtain ⟨hb, hr, ht⟩ := launchCommand_next h
  have hc := (firstRefusal_none _).1 hr
  exact ⟨hb, fun e he => hc e (List.mem_append_left _ he),
    by simpa using hc _ (List.mem_append_right _ (List.mem_singleton.2 rfl)), ht⟩

/-! The launches that meet no refusal, as equations. -/

theorem execWaitNs_runs {s : State} (hb : s.busy = false) (hw : s.written .aDur = true) :
    execWaitNs s = .next (issue [.wait (s.reg .aDur)] (goto .dly (launch .waitns s))) := by
  have hr : firstRefusal (readsOperands [.aDur] s) = none := by simp [firstRefusal_none, readsOperands, hw]
  exact launchCommand_runs hb hr

theorem execWaitMs_runs {s : State} (hb : s.busy = false) (hw : s.written .aDur = true)
    (hd : s.reg .aDur ≤ maxMilliseconds) :
    execWaitMs s =
      .next (issue [] (beginWait (waitMsRequest s.cfg (s.reg .aDur)) (goto .dly (launch .waitms s)))) := by
  have hr : firstRefusal (readsOperands [.aDur] s ++
      [(decide (maxMilliseconds < s.reg .aDur), .durationTooLarge)]) = none := by
    simp [firstRefusal_none, readsOperands, hw, hd]
  exact launchCommand_runs hb hr

theorem constructRefusal_clear {s : State}
    (hr : ∀ r ∈ [RegName.aBus, .aMosi, .aMiso, .aClk, .aCs, .aMode, .aOrder, .aSpeed], s.written r = true)
    (hb : s.reg .aBus < s.cfg.nBus) (h1 : 1 ≤ s.reg .aMode) (h4 : s.reg .aMode ≤ 4) (hf : 1 ≤ s.reg .aSpeed)
    (hm : s.reg .aSpeed ≤ freqMax)
    (hp : pinsDiffer (s.reg .aMosi) (s.reg .aMiso) (s.reg .aClk) (s.reg .aCs) = true) :
    constructRefusal s = none := by
  rw [constructRefusal, firstRefusal_none]
  intro e he
  rcases List.mem_append.1 he with he | he
  · exact (readsOperands_clear _ _).2 hr e he
  · simp only [List.mem_cons, List.not_mem_nil, or_false] at he
    rcases he with rfl | rfl | rfl | rfl
    · simpa [badHandle] using hb
    · simp only [decide_eq_false_iff_not]; omega
    · simp only [decide_eq_false_iff_not]; omega
    · simp [hp]

theorem execConstruct_runs {s : State} (hb : s.busy = false) (hr : constructRefusal s = none) :
    execConstruct s = .next (issue (constructRequests s.cfg (constructContext s))
      (goto .init { launch .construct s with ctx := s.ctx.set (s.reg .aBus) (constructContext s) })) :=
  launchCommand_runs hb hr

theorem deriveRefusal_clear {s : State} {c : Context}
    (hr : ∀ r ∈ [RegName.aBus, .aSrc, .aCs], s.written r = true) (hb : s.reg .aBus < s.cfg.nBus)
    (hs : s.reg .aSrc < s.cfg.nBus) (hne : s.reg .aBus ≠ s.reg .aSrc) (hc : s.ctx[s.reg .aSrc]? = some c)
    (hv : c.valid = true) (hp : c.hasPin (s.reg .aCs) = false) : deriveRefusal s = none := by
  rw [deriveRefusal, firstRefusal_none]
  intro e he
  rcases List.mem_append.1 he with he | he
  · exact (readsOperands_clear _ _).2 hr e he
  · simp only [List.mem_cons, List.not_mem_nil, or_false, validCtx_some hc hv] at he
    rcases he with rfl | rfl | rfl | rfl | rfl
    · simpa [badHandle] using hb
    · simpa [badHandle] using hs
    · rfl
    · simpa using hne
    · simpa using hp

theorem execDerive_runs {s : State} {src : Context} (hb : s.busy = false) (hr : deriveRefusal s = none)
    (hs : s.ctx[s.reg .aSrc]? = some src) :
    execDerive s = .next (issue (deriveRequests (s.reg .aCs))
      (goto .init { launch .derive s with ctx := s.ctx.set (s.reg .aBus) (deriveContext src (s.reg .aCs)) })) := by
  refine (launchCommand_runs hb hr).trans ?_
  simp only [launch_ctx, launch_reg, hs]

theorem transferRefusals_none {s : State} {c : Context} (hr : ∀ r ∈ [RegName.aBus, .aSize], s.written r = true)
    (hb : s.reg .aBus < s.cfg.nBus) (hc : s.ctx[s.reg .aBus]? = some c) (hv : c.valid = true)
    (hn : s.reg .aSize ≤ s.cfg.bufLen) : ∀ e ∈ transferRefusals s, e.1 = false := by
  intro e he
  rcases List.mem_append.1 he with he | he
  · exact (readsOperands_clear _ _).2 hr e he
  · simp only [List.mem_cons, List.not_mem_nil, or_false, validCtx_some hc hv] at he
    rcases he with rfl | rfl | rfl
    · simpa [badHandle] using hb
    · rfl
    · simpa using hn

/-- A transaction's first state: its operands copied, in phase PRE_MOSI with that phase's requests on the port. -/
theorem startTransfer_runs {s : State} {c : Context} (hc : s.ctx[s.reg .aBus]? = some c) :
    startTransfer s = .next
      (issue (rowOf c { s with tBus := s.reg .aBus, tSize := s.reg .aSize, seq := { s.seq with phase := .preMosi } })
        { s with tBus := s.reg .aBus, tSize := s.reg .aSize, seq := { s.seq with phase := .preMosi } }) :=
  enter_of_ctx (s := { s with tBus := s.reg .aBus, tSize := s.reg .aSize }) hc

theorem execWrite_runs {s : State} (hb : s.busy = false) (hr : ∀ e ∈ transferRefusals s, e.1 = false)
    (hw : s.buf.allWritten (s.reg .aSize) = true) : execWrite s = startTransfer (launch .write s) := by
  refine launchCommand_runs hb ((firstRefusal_none _).2 fun e he => ?_)
  rcases List.mem_append.1 he with he | he
  · exact hr e he
  · simp only [List.mem_singleton] at he; subst he; simp [hw]

theorem execRead_runs {s : State} (hb : s.busy = false) (hr : ∀ e ∈ transferRefusals s, e.1 = false)
    (hl : s.cfg.hasReadLevel = true) : execRead s = startTransfer (launch .read s) := by
  refine launchCommand_runs hb ((firstRefusal_none _).2 fun e he => ?_)
  rcases List.mem_append.1 he with he | he
  · exact hr e he
  · simp only [List.mem_singleton] at he; subst he; simp [hl]

/-! One condition of a command's list that holds refuses it, whatever the rest of the state. -/

theorem exec_construct_refused {s : State} {r : Refusal}
    (h : (true, r) ∈ readsOperands [.aBus, .aMosi, .aMiso, .aClk, .aCs, .aMode, .aOrder, .aSpeed] s ++
      [(badHandle s (s.reg .aBus), .handleOutOfRange),
       (decide (s.reg .aMode < 1 ∨ 4 < s.reg .aMode), .badMode),
       (decide (s.reg .aSpeed = 0 ∨ freqMax < s.reg .aSpeed), .badSpeed),
       (!pinsDiffer (s.reg .aMosi) (s.reg .aMiso) (s.reg .aClk) (s.reg .aCs), .equalPins)]) :
    ∃ r', exec .construct s = .refused r' := by
  simp only [exec, execConstruct]
  exact launchCommand_refused (ref := constructRefusal s) (firstRefusal_some_of_mem h)

theorem exec_derive_refused {s : State} {r : Refusal}
    (h : (true, r) ∈ readsOperands [.aBus, .aSrc, .aCs] s ++
      [(badHandle s (s.reg .aBus), .handleOutOfRange),
       (badHandle s (s.reg .aSrc), .handleOutOfRange),
       ((s.validCtx (s.reg .aSrc)).isNone, .contextInvalid),
       (decide (s.reg .aBus = s.reg .aSrc), .destinationIsSource),
       ((s.validCtx (s.reg .aSrc)).any (fun c => c.hasPin (s.reg .aCs)), .chipSelectInUse)]) :
    ∃ r', exec .derive s = .refused r' := by
  simp only [exec, execDerive]
  exact launchCommand_refused (ref := deriveRefusal s) (firstRefusal_some_of_mem h)

theorem exec_write_refused {s : State} {r : Refusal}
    (h : (true, r) ∈ transferRefusals s ++ [(!s.buf.allWritten (s.reg .aSize), .bufferByteUnwritten)]) :
    ∃ r', exec .write s = .refused r' :=
  launchCommand_refused (firstRefusal_some_of_mem h)

theorem exec_read_refused {s : State} {r : Refusal}
    (h : (true, r) ∈ transferRefusals s ++ [(!s.cfg.hasReadLevel, .noReadLevel)]) :
    ∃ r', exec .read s = .refused r' :=
  launchCommand_refused (firstRefusal_some_of_mem h)

/-! Turns. -/

theorem nextTurn_busy {s : State} (hr : s.resetLine = false) (hb : s.busy = true) : nextTurn s = busyTurn s := by
  simp [nextTurn, hr, hb]

theorem nextTurn_idle {s : State} (hr : s.resetLine = false) (hb : s.busy = false) : nextTurn s = idleTurn s := by
  simp [nextTurn, hr, hb]

/-- What a step of a busy controller can be. -/
theorem step_busy_next {s t : State} (hr : s.resetLine = false) (hb : s.busy = true) (h : step s = .next t) :
    ((∃ r, s.engine = some r) ∧ finishWait s = .next t) ∨
    (s.engine = none ∧ ∃ l, s.answer = some l ∧ takeAnswer l s = .next t) ∨
    (s.engine = none ∧ s.answer = none ∧ ∃ w rest i, s.port = w :: rest ∧ decode .req w = .ok i ∧
      exec i { s with port := rest } = .next t) ∨
    (s.engine = none ∧ s.answer = none ∧ s.port = [] ∧ advance s = .next t) := by
  rw [step, nextTurn_busy hr hb, busyTurn] at h
  cases he : s.engine with
  | some r => simp only [he] at h; exact .inl ⟨⟨r, rfl⟩, h⟩
  | none =>
    cases ha : s.answer with
    | some l => simp only [he, ha] at h; exact .inr (.inl ⟨rfl, l, rfl, h⟩)
    | none =>
      cases hp : s.port with
      | nil => simp only [he, ha, hp] at h; exact .inr (.inr (.inr ⟨rfl, rfl, rfl, h⟩))
      | cons w rest =>
        simp only [he, ha, hp, requestTurn] at h
        cases hd : decode .req w with
        | error e => simp [hd] at h
        | ok i => simp only [hd] at h; exact .inr (.inr (.inl ⟨rfl, rfl, w, rest, i, rfl, hd, h⟩))

/-- What a step of a controller that runs no command can be. -/
theorem step_idle_next {s t : State} (hr : s.resetLine = false) (hb : s.busy = false) (h : step s = .next t) :
    (s.hostQueue = [] ∧ t = s) ∨
    ∃ rest, (∃ r v, s.hostQueue = .writeReg r v :: rest ∧ v < 2 ^ regWidth s.cfg r ∧
        t = { s with hostQueue := rest, x := s.x.set r ⟨v, true⟩ }) ∨
      (∃ i b, s.hostQueue = .writeBuf i b :: rest ∧ i < s.cfg.bufLen ∧
        t = { s with hostQueue := rest, buf := s.buf.write i b }) ∨
      (∃ w i, s.hostQueue = .writeCmd w :: rest ∧ decode .cmd w = .ok i ∧
        exec i { s with hostQueue := rest } = .next t) ∨
      (∃ v, t = answerHost v { s with hostQueue := rest }) := by
  rw [step, nextTurn_idle hr hb, idleTurn] at h
  cases hq : s.hostQueue with
  | nil => simp only [hq] at h; exact .inl ⟨rfl, by simpa using h.symm⟩
  | cons a rest =>
    refine .inr ⟨rest, ?_⟩
    cases a <;> simp only [hq, hostTurn] at h
    case writeReg r v =>
      unfold hostWriteReg at h
      split at h
      · exact .inl ⟨r, v, rfl, ‹_›, by simpa using h.symm⟩
      · cases h
    case writeBuf i b =>
      obtain ⟨hi, rfl⟩ := storeBuf_next h
      exact .inr (.inl ⟨i, b, rfl, hi, rfl⟩)
    case writeCmd w =>
      cases hd : decode .cmd w with
      | error e => simp [hd] at h
      | ok i => simp only [hd] at h; exact .inr (.inr (.inl ⟨w, i, rfl, hd, h⟩))
    case readReg r => exact .inr (.inr (.inr ⟨_, by simpa [hostReadReg] using h.symm⟩))
    case readBuf i =>
      unfold hostReadBuf at h
      split at h
      · exact .inr (.inr (.inr ⟨_, by simpa using h.symm⟩))
      · cases h
    case readStatus => exact .inr (.inr (.inr ⟨_, by simpa [hostReadStatus] using h.symm⟩))

/-- A step with the reset input asserted. -/
theorem step_reset_next {s t : State} (hr : s.resetLine = true) (h : step s = .next t) :
    s.busy = false ∧ t = resetNow s := by
  unfold step nextTurn resetTurn at h
  simp only [hr, if_true] at h
  cases hb : s.busy <;> simp [hb] at h
  exact ⟨rfl, h.symm⟩

/-- A value of CMD that decodes is a command. -/
theorem decode_cmd_command {w : Nat} {i : Instr} (h : decode .cmd w = .ok i) :
    (w = 0 ∧ i = .construct) ∨ (w = 1 ∧ i = .derive) ∨ (w = 2 ∧ i = .write) ∨ (w = 3 ∧ i = .read) ∨
    (w = 4 ∧ i = .waitns) ∨ (w = 5 ∧ i = .waitms) := by
  simp only [decode, decodeCmd] at h
  split at h <;> simp_all

/-- A request word that decodes is a micro-operation. -/
theorem decode_req_micro {w : Nat} {i : Instr} (h : decode .req w = .ok i) :
    (∃ p d, i = .pindir p d) ∨ (∃ p l, i = .pinset p l) ∨ (∃ p, i = .pinget p) ∨
    (∃ d, d < 2 ^ durW ∧ i = .wait d) := by
  simp only [decode, decodeReq] at h
  split at h
  · exact .inl ⟨_, _, by simpa using h.symm⟩
  · exact .inr (.inl ⟨_, _, by simpa using h.symm⟩)
  · split at h
    · exact .inr (.inr (.inl ⟨_, by simpa using h.symm⟩))
    · cases h
  · split at h
    · exact .inr (.inr (.inr ⟨_, ‹_›, by simpa using h.symm⟩))
    · cases h

/-! What an instruction can change, one lemma for each format. -/

/-- What a micro-operation can change: the pins and the records; and where a wait failed, the command ends or its abort
begins. -/
theorem micro_changes {i : Instr} {s t : State} (hi : i.format = .req) (h : exec i s = .next t) :
    t.cfg = s.cfg ∧ t.ctx = s.ctx ∧ t.x = s.x ∧ t.buf = s.buf ∧ t.hostQueue = s.hostQueue ∧ t.hostReads = s.hostReads ∧
    t.tOp = s.tOp ∧ t.tBus = s.tBus ∧ t.tSize = s.tSize ∧ t.resetLine = s.resetLine ∧
    (assocRising s.dirs = true → assocRising t.dirs = true) ∧ (assocRising s.outs = true → assocRising t.outs = true) ∧
    ((t.busy = s.busy ∧ t.seq = s.seq ∧ t.err = s.err ∧ t.port = s.port ∧ (t.engine = none ∧ t.answer = s.answer ∨ t.engine = s.engine)) ∨
     (s.cfg.strategy = .sleep ∧ t.engine = none ∧ t.answer = s.answer ∧
        (t.busy = false ∧ t.seq.phase = .idle ∧ t.port = [] ∨ s.busy = true ∧ t.busy = true ∧ t.seq.phase = .abortCs ∧ t.err = s.err))) := by
  cases i <;> simp only [Instr.format, reduceCtorEq] at hi
  case pindir p d =>
    obtain ⟨-, rfl⟩ := execPinDir_next h
    simp; exact assocRising_set _ _ _
  case pinset p l =>
    obtain ⟨-, -, rfl⟩ := execPinSet_next h
    simp; exact assocRising_set _ _ _
  case pinget p =>
    obtain ⟨-, -, -, rfl⟩ := execPinGet_next h
    simp
  case wait d =>
    rcases execWait_next h with ⟨-, rfl⟩ | ⟨ho, h⟩
    · simp
    · have hs : s.cfg.strategy = .sleep := by
        cases hs : s.cfg.strategy
        · rw [engineOutcome_spin (by simpa using hs)] at ho; simp at ho
        · rfl
      rcases takeTimingError_next h with ⟨hin, c, hc, rfl⟩ | ⟨hin, rfl⟩
      · have hb : s.busy = true := by simp [State.inTransaction] at hin; exact hin.1
        simp [hs, hb]
      · simp [hs]

/-- What a command's launch can change: no pin, no buffer byte, no operand register; CONSTRUCT and DERIVE one context. -/
theorem command_changes {i : Instr} {s t : State} (hi : i.format = .cmd) (h : exec i s = .next t) :
    t.cfg = s.cfg ∧ t.x = s.x ∧ t.buf = s.buf ∧ t.dirs = s.dirs ∧ t.outs = s.outs ∧ t.err = .ok ∧ t.busy = true ∧
    t.answer = s.answer ∧ t.seq.phase ≠ .abortCs ∧
    (t.engine = s.engine ∨ i = .waitms ) ∧
    (t.ctx = s.ctx ∨ (i = .construct ∧ constructRefusal s = none ∧ t.ctx = s.ctx.set (s.reg .aBus) (constructContext s)) ∨
      (i = .derive ∧ deriveRefusal s = none ∧ ∃ src, s.ctx[s.reg .aSrc]? = some src ∧ t.ctx = s.ctx.set (s.reg .aBus) (deriveContext src (s.reg .aCs)))) := by
  cases i <;> simp only [Instr.format, reduceCtorEq] at hi
  case construct =>
    obtain ⟨hb, hr, rfl⟩ := execConstruct_next h
    simp [hr]
  case derive =>
    obtain ⟨hb, hr, src, hs, rfl⟩ := execDerive_next h
    simp [hr, hs]
  case write =>
    obtain ⟨hb, -, -, h⟩ := execWrite_next h
    obtain ⟨c, -, rfl⟩ := startTransfer_next h
    simp
  case read =>
    obtain ⟨hb, -, -, h⟩ := execRead_next h
    obtain ⟨c, -, rfl⟩ := startTransfer_next h
    simp
  case waitns =>
    obtain ⟨hb, -, rfl⟩ := execWaitNs_next h
    simp
  case waitms =>
    obtain ⟨hb, -, -, rfl⟩ := execWaitMs_next h
    simp

theorem decode_req_format {w : Nat} {i : Instr} (h : decode .req w = .ok i) : i.format = .req := by
  rcases decode_req_micro h with ⟨p, d, rfl⟩ | ⟨p, l, rfl⟩ | ⟨p, rfl⟩ | ⟨d, -, rfl⟩ <;> rfl
theorem decode_cmd_format {w : Nat} {i : Instr} (h : decode .cmd w = .ok i) : i.format = .cmd := by
  rcases decode_cmd_command h with ⟨-, rfl⟩ | ⟨-, rfl⟩ | ⟨-, rfl⟩ | ⟨-, rfl⟩ | ⟨-, rfl⟩ | ⟨-, rfl⟩ <;> rfl

/-- What the end of a wait in progress can change, likewise. -/
theorem finishWait_changes {s t : State} (h : finishWait s = .next t) :
    t.cfg = s.cfg ∧ t.ctx = s.ctx ∧ t.x = s.x ∧ t.buf = s.buf ∧ t.hostQueue = s.hostQueue ∧ t.hostReads = s.hostReads ∧
    t.dirs = s.dirs ∧ t.outs = s.outs ∧ t.engine = none ∧ t.answer = s.answer ∧
    ((t.busy = s.busy ∧ t.seq = s.seq ∧ t.err = s.err ∧ t.port = s.port) ∨
     (s.cfg.strategy = .sleep ∧
        (t.busy = false ∧ t.seq.phase = .idle ∧ t.port = [] ∨ s.busy = true ∧ t.busy = true ∧ t.seq.phase = .abortCs ∧ t.err = s.err))) := by
  rcases finishWait_next h with ⟨-, rfl⟩ | ⟨ho, h⟩
  · simp
  · have hs : s.cfg.strategy = .sleep := by
      cases hs : s.cfg.strategy
      · rw [engineOutcome_spin (by simpa using hs)] at ho; simp at ho
      · rfl
    rcases takeTimingError_next h with ⟨hin, c, hc, rfl⟩ | ⟨hin, rfl⟩
    · have hb : s.busy = true := by simp [State.inTransaction] at hin; exact hin.1
      simp [hs, hb]
    · simp [hs]

/-! The equations a run is computed with. -/

theorem step_request {s : State} {w : Nat} {rest : List Nat} {i : Instr} (hr : s.resetLine = false)
    (hb : s.busy = true) (he : s.engine = none) (ha : s.answer = none) (hp : s.port = w :: rest)
    (hd : decode .req w = .ok i) : step s = exec i { s with port := rest } := by
  simp only [step, nextTurn_busy hr hb, busyTurn, requestTurn, he, ha, hp, hd]

theorem step_advance {s : State} (hr : s.resetLine = false) (hb : s.busy = true) (he : s.engine = none)
    (ha : s.answer = none) (hp : s.port = []) : step s = advance s := by
  simp only [step, nextTurn_busy hr hb, busyTurn, he, ha, hp]

theorem step_answer {s : State} {l : Level} (hr : s.resetLine = false) (hb : s.busy = true) (he : s.engine = none)
    (ha : s.answer = some l) : step s = takeAnswer l s := by
  simp only [step, nextTurn_busy hr hb, busyTurn, he, ha]

theorem step_engine {s : State} {r : EngineReq} (hr : s.resetLine = false) (hb : s.busy = true)
    (he : s.engine = some r) : step s = finishWait s := by
  simp only [step, nextTurn_busy hr hb, busyTurn, he]

end Sys2Proof.Machine
end

