-- ==== Sys2Proof/Laws/Runs.lean ====
section
/-! SUPPORT. Runs of several steps: how they are put together, and the two steps a transaction is made of, carrying out a
request and going to the next phase. -/

namespace Sys2Proof.Machine

/-! Two facts about numbers, said for plain numbers. -/

theorem mul_add_mod_of_lt {a b c : Nat} (h : c < b) : (a * b + c) % b = c := by
  rw [Nat.mul_comm, Nat.mul_add_mod, Nat.mod_eq_of_lt h]

theorem mul_add_div_of_lt {a b c : Nat} (h : c < b) : (a * b + c) / b = a := by
  rw [Nat.mul_comm, Nat.mul_add_div (by omega), Nat.div_eq_of_lt h, Nat.add_zero]

/-! Putting runs together. -/

@[simp] theorem runFor_zero (s : State) : runFor 0 s = .next s := rfl

theorem runFor_cons {k : Nat} {s t u : State} (h : step s = .next t) (h' : runFor k t = .next u) :
    runFor (k + 1) s = .next u := by
  rw [runFor, h, andThen_next, h']

theorem runFor_add {j k : Nat} {s t u : State} (h : runFor j s = .next t) (h' : runFor k t = .next u) :
    runFor (j + k) s = .next u := by
  induction j generalizing s with
  | zero => obtain rfl := Host.Outcome.next.inj h; simpa using h'
  | succ j ih =>
    rw [runFor] at h
    obtain ⟨r, hr, h⟩ := andThen_eq_next h
    rw [show j + 1 + k = (j + k) + 1 from by omega]
    exact runFor_cons hr (ih h)

theorem Leads.refl (s : State) : Leads s s := ⟨0, rfl⟩

theorem Leads.step {s t : State} (h : step s = .next t) : Leads s t := ⟨1, runFor_cons h rfl⟩

theorem Leads.trans {s t u : State} (h : Leads s t) (h' : Leads t u) : Leads s u := by
  obtain ⟨j, hj⟩ := h
  obtain ⟨k, hk⟩ := h'
  exact ⟨j + k, runFor_add hj hk⟩

/-- A property that holds at the start of a run and that every step keeps holds at its end. -/
theorem Leads.keeps {P : State → Prop} (hP : ∀ s t, P s → Machine.step s = .next t → P t) {s t : State}
    (h : Leads s t) (hs : P s) : P t := by
  obtain ⟨k, hk⟩ := h
  induction k generalizing s with
  | zero => obtain rfl := Host.Outcome.next.inj hk; exact hs
  | succ k ih =>
    rw [runFor] at hk
    obtain ⟨r, hr, hk⟩ := andThen_eq_next hk
    exact ih (hP s r hs hr) hk

/-! Single steps, by what they answer. -/

theorem step_request_next {s t : State} {w : Nat} {rest : List Nat} {i : Instr} (hr : s.resetLine = false)
    (hb : s.busy = true) (he : s.engine = none) (ha : s.answer = none) (hp : s.port = w :: rest)
    (hd : decode .req w = .ok i) (h : exec i { s with port := rest } = .next t) : step s = .next t :=
  (step_request hr hb he ha hp hd).trans h

theorem step_advance_next {s t : State} (hr : s.resetLine = false) (hb : s.busy = true) (he : s.engine = none)
    (ha : s.answer = none) (hp : s.port = []) (h : advance s = .next t) : step s = .next t :=
  (step_advance hr hb he ha hp).trans h

/-! Requests of the port: what the decoder reads from a word the sequencer issues. -/

theorem decode_pindir (p : Pin) (d : Dir) : decode .req (encode (.pindir p d)) = .ok (.pindir p d) := by
  have h4 : ((p * 2 + bitOfDir d) * 4) % 4 = 0 := Nat.mul_mod_left _ _
  have hd : (p * 2 + bitOfDir d) * 4 / 4 = p * 2 + bitOfDir d := Nat.mul_div_cancel _ (by decide)
  have hb : bitOfDir d < 2 := by cases d <;> decide
  have h1 : (p * 2 + bitOfDir d) / 2 = p := mul_add_div_of_lt hb
  have h2 : (p * 2 + bitOfDir d) % 2 = bitOfDir d := mul_add_mod_of_lt hb
  simp only [decode, decodeReq, encode, h4, hd, h1, h2]
  cases d <;> rfl

theorem decode_pinset (p : Pin) (l : Level) : decode .req (encode (.pinset p l)) = .ok (.pinset p l) := by
  have h4 : ((p * 2 + l.toNat) * 4 + 1) % 4 = 1 := mul_add_mod_of_lt (by decide)
  have hd : ((p * 2 + l.toNat) * 4 + 1) / 4 = p * 2 + l.toNat := mul_add_div_of_lt (by decide)
  have hb : l.toNat < 2 := l.isLt
  have h1 : (p * 2 + l.toNat) / 2 = p := mul_add_div_of_lt hb
  have h2 : BitVec.ofNat 1 (p * 2 + l.toNat) = l :=
    BitVec.eq_of_toNat_eq (by rw [BitVec.toNat_ofNat]; exact mul_add_mod_of_lt hb)
  simp only [decode, decodeReq, encode, h4, hd, h1, h2]

theorem decode_pinget (p : Pin) : decode .req (encode (.pinget p)) = .ok (.pinget p) := by
  have h4 : (p * 2 * 4 + 2) % 4 = 2 := mul_add_mod_of_lt (by decide)
  have hd : (p * 2 * 4 + 2) / 4 = p * 2 := mul_add_div_of_lt (by decide)
  have h1 : p * 2 / 2 = p := Nat.mul_div_cancel _ (by decide)
  have h2 : p * 2 % 2 = 0 := Nat.mul_mod_left _ _
  simp only [decode, decodeReq, encode, h4, hd, h1, h2, if_true]

theorem decode_wait {d : Nat} (h : d < 2 ^ durW) : decode .req (encode (.wait d)) = .ok (.wait d) := by
  have h4 : (d * 4 + 3) % 4 = 3 := mul_add_mod_of_lt (by decide)
  have hd : (d * 4 + 3) / 4 = d := mul_add_div_of_lt (by decide)
  simp only [decode, decodeReq, encode, h4, hd, h, if_true]

/-- The two steps of an abort: chip-select is deasserted, and the command ends with the kind kept. -/
theorem abort_runs {s : State} {c : Context} (hr : s.resetLine = false) (hb : s.busy = true) (he : s.engine = none)
    (ha : s.answer = none) (hp : s.port = [encode (.pinset c.cs high)]) (hq : s.seq.phase = .abortCs)
    (hpin : pinExists s.cfg c.cs = true) (hdir : s.dirOf c.cs = some .output) :
    runFor 2 s = .next (finishWithError s.abortKind
      (emit (.pinSet c.cs high) (setOut c.cs high { s with port := [] }))) := by
  refine runFor_cons (step_request_next hr hb he ha hp (decode_pinset _ _) (execPinSet_runs hpin hdir)) ?_
  refine runFor_cons (step_advance_next hr hb he ha rfl ?_) (runFor_zero _)
  simp only [advance, emit_seq, setOut_seq, hq, returnFromTimingError]
  rfl

end Sys2Proof.Machine
end

