-- ==== Sys2Proof/Laws/Transfer.lean ====
section
/-! SUPPORT. Stretches of a running transaction: what a run between two states adds to the trace and takes from the
environment's answers, and how a phase, and a bit, of a WRITE or READ runs when its waits end ok. -/

namespace Sys2Proof.Machine

/-! Waits that end ok. -/

/-- A wait that ends ok takes one outcome at most and leaves the next waits as they were to be. -/
theorem execWait_ok {s : State} {d n : Nat} (h : WaitsOk (n + 1) s) :
    ∃ o, (∀ t : State, t.cfg = s.cfg → t.outcomesIn = o → WaitsOk n t) ∧
      execWait d s = .next { s with
        engine := none
        trace := s.trace ++ [.wait d .ok]
        engineLog := s.engineLog ++ [(waitRequest s.cfg d, .ok)]
        outcomesIn := o } := by
  cases hs : s.cfg.strategy
  · exact ⟨_, fun t ht _ => .inl (by rw [ht, hs]), execWait_spin hs⟩
  · rcases h with h | ⟨rest, h⟩
    · simp [h] at hs
    · refine ⟨List.replicate n .ok ++ rest, fun t _ ht => .inr ⟨rest, ht⟩, ?_⟩
      rw [execWait_sleep hs (by simpa [List.replicate_succ] using h)]
      rfl

theorem WaitsOk.of_eq {n : Nat} {s t : State} (h : WaitsOk n s) (hc : t.cfg = s.cfg)
    (ho : t.outcomesIn = s.outcomesIn) : WaitsOk n t := by
  unfold WaitsOk at *
  rwa [hc, ho]

theorem WaitsOk.zero (s : State) : WaitsOk 0 s := .inr ⟨s.outcomesIn, rfl⟩

/-- The waits of a transaction fit `DUR_W` bits (`41_delay_engine.md` R71). -/
theorem busTime_bound (c : Context) : 4 * busTime c < 2 ^ durW := by
  have h : busTime c ≤ 250000000 := by
    show quarterCycle c.freq ≤ _
    unfold quarterCycle
    by_cases hf : c.freq = 0
    · rw [hf]; norm_num
    · exact (Nat.div_le_div_left (by omega) (by norm_num)).trans (by norm_num : 1000000000 / 4 ≤ 250000000)
  have : durW = 32 := rfl
  rw [this]
  omega

/-! The level a pin has after some events, from the level it had before. -/

/-- What one event makes of the driven level of a pin. -/
def outStep (p : Pin) (o : Option Level) : Event → Option Level
  | .pinSet q l => if q = p then some l else o
  | .pinDir _ _ => o
  | .pinGet _ _ => o
  | .wait _ _ => o

/-- What a sequence of events makes of it. -/
def outAfter (p : Pin) (es : List Event) (o : Option Level) : Option Level := es.foldl (outStep p) o

theorem outAfter_append (p : Pin) (es es' : List Event) (o : Option Level) :
    outAfter p (es ++ es') o = outAfter p es' (outAfter p es o) := by
  simp [outAfter]

/-- Events none of which sets a pin leave its level alone. -/
theorem outAfter_of_none {p : Pin} {es : List Event} {o : Option Level}
    (h : es.countP (Event.sets p) = 0) : outAfter p es o = o := by
  induction es generalizing o with
  | nil => rfl
  | cons e es ih =>
    rw [List.countP_cons] at h
    have he : Event.sets p e = false := by
      cases hs : Event.sets p e
      · rfl
      · simp [hs] at h
    have hstep : outStep p o e = o := by
      cases e <;> simp [outStep, Event.sets] at he ⊢
      exact fun hq => absurd hq.symm he
    show outAfter p es (outStep p o e) = o
    rw [hstep]
    exact ih (by omega)

/-! Stretches of a run. -/

/-- From `s` the machine leads to `t`: the trace grows by `es`, `lv` of the environment's levels and at most `w` of its
wait outcomes are taken, the pins' levels follow the events, and what no step of a transaction changes is unchanged. -/
structure Progress (s t : State) (es : List Event) (lv : List Level) (w : Nat) : Prop where
  leads : Leads s t
  trace : t.trace = s.trace ++ es
  levels : s.levelsIn = lv ++ t.levelsIn
  waits : ∀ m, WaitsOk (w + m) s → WaitsOk m t
  outs : ∀ p, t.outOf p = outAfter p es (s.outOf p)
  cfg : t.cfg = s.cfg
  ctx : t.ctx = s.ctx
  x : t.x = s.x
  dirs : t.dirs = s.dirs
  tOp : t.tOp = s.tOp
  tBus : t.tBus = s.tBus
  tSize : t.tSize = s.tSize
  hostQueue : t.hostQueue = s.hostQueue
  err : t.err = s.err

theorem Progress.refl (s : State) : Progress s s [] [] 0 := by
  constructor <;> first | rfl | exact Leads.refl _ | simp [outAfter]

theorem Progress.trans {s t u : State} {es es' : List Event} {lv lv' : List Level} {w w' : Nat}
    (h : Progress s t es lv w) (h' : Progress t u es' lv' w') :
    Progress s u (es ++ es') (lv ++ lv') (w + w') where
  leads := h.leads.trans h'.leads
  trace := by rw [h'.trace, h.trace, List.append_assoc]
  levels := by rw [h.levels, h'.levels, List.append_assoc]
  waits m hm := h'.waits m (h.waits (w' + m) (by rwa [← Nat.add_assoc]))
  outs p := by rw [h'.outs, h.outs, outAfter_append]
  cfg := h'.cfg.trans h.cfg
  ctx := h'.ctx.trans h.ctx
  x := h'.x.trans h.x
  dirs := h'.dirs.trans h.dirs
  tOp := h'.tOp.trans h.tOp
  tBus := h'.tBus.trans h.tBus
  tSize := h'.tSize.trans h.tSize
  hostQueue := h'.hostQueue.trans h.hostQueue
  err := h'.err.trans h.err

/-- A transaction on bus `c` is running and it is the sequencer's turn. -/
structure Serving (c : Context) (s : State) : Prop where
  noReset : s.resetLine = false
  busy : s.busy = true
  noWait : s.engine = none
  noAnswer : s.answer = none
  context : s.ctx[s.tBus]? = some c
  pins : PinsReady c s

/-- A request that cannot fail in a state: a PINSET of an output of the environment's, or a WAIT. -/
def Servable (s : State) : Instr → Prop
  | .pinset p _ => pinExists s.cfg p = true ∧ s.dirOf p = some .output
  | .wait d => d < 2 ^ durW
  | .pindir _ _ | .pinget _ | .construct | .derive | .write | .read | .waitns | .waitms => False

/-- The event of such a request, a wait ending ok. -/
def servedEvent : Instr → Event
  | .pinset p l => .pinSet p l
  | .wait d => .wait d .ok
  | .pindir p d => .pinDir p d
  | .pinget p => .pinGet p low
  | .construct | .derive | .write | .read | .waitns | .waitms => .wait 0 .ok

/-- How many of some requests are WAITs. -/
def waitCount : List Instr → Nat
  | [] => 0
  | .wait _ :: is => waitCount is + 1
  | .pinset _ _ :: is | .pindir _ _ :: is | .pinget _ :: is | .construct :: is | .derive :: is | .write :: is
  | .read :: is | .waitns :: is | .waitms :: is => waitCount is

/-- PINSETs and WAITs that stand on the port are carried out in order. -/
theorem serve_requests {c : Context} {s : State} {is : List Instr} (hs : Serving c s) (hp : s.port = is.map encode)
    (hok : ∀ i ∈ is, Servable s i) (hw : WaitsOk (waitCount is) s) :
    ∃ t, Progress s t (is.map servedEvent) [] (waitCount is) ∧ Serving c t ∧ t.port = [] ∧ t.seq = s.seq ∧
      t.curByte = s.curByte ∧ t.buf = s.buf := by
  induction is generalizing s with
  | nil => exact ⟨s, Progress.refl s, hs, hp, rfl, rfl, rfl⟩
  | cons i is ih =>
    have hi := hok i (by simp)
    cases i with
    | pinset p l =>
      have h1 := step_request_next hs.noReset hs.busy hs.noWait hs.noAnswer hp (decode_pinset p l)
        (execPinSet_runs hi.1 hi.2)
      generalize hs1 : emit (.pinSet p l) (setOut p l { s with port := is.map encode }) = s1 at h1
      have hpr : Progress s s1 [.pinSet p l] [] 0 := by
        subst hs1
        constructor <;> first | rfl | exact Leads.step h1 | skip
        · exact fun m hm => WaitsOk.of_eq (s := s) (by simpa using hm) rfl rfl
        · intro q
          by_cases hq : q = p
          · subst hq; simp [outAfter, outStep]
          · have : ¬p = q := fun h => hq h.symm
            simp [outAfter, outStep, this, setOut_outOf_other _ _ hq]; rfl
      have hrun : Serving c s1 := by
        subst hs1
        exact ⟨hs.1, hs.2, hs.3, hs.4, hs.5, ⟨hs.6.1, hs.6.2, hs.6.3, hs.6.4⟩⟩
      obtain ⟨t, hpr', hr', h2, h3, h4, h5⟩ := ih hrun (by subst hs1; rfl)
        (by intro i hi; have := hok i (by simp [hi]); subst hs1; cases i <;> exact this)
        (hpr.waits (waitCount is) (by simpa [waitCount] using hw))
      refine ⟨t, ?_, hr', h2, h3.trans (by subst hs1; rfl), h4.trans (by subst hs1; rfl),
        h5.trans (by subst hs1; rfl)⟩
      simpa [waitCount, servedEvent] using hpr.trans hpr'
    | wait d =>
      obtain ⟨o, ho, he⟩ := execWait_ok (s := { s with port := is.map encode }) (d := d) (n := waitCount is)
        (WaitsOk.of_eq (s := s) (by simpa [waitCount] using hw) rfl rfl)
      have h1 := step_request_next hs.noReset hs.busy hs.noWait hs.noAnswer hp (decode_wait hi) he
      generalize hs1 : ({ ({ s with port := is.map encode } : State) with
        engine := none
        trace := s.trace ++ [.wait d .ok]
        engineLog := s.engineLog ++ [(waitRequest s.cfg d, .ok)]
        outcomesIn := o } : State) = s1 at h1
      have hpr : Progress s s1 [.wait d .ok] [] 1 := by
        constructor
        · exact Leads.step h1
        · subst hs1; rfl
        · subst hs1; rfl
        · intro m hm
          obtain ⟨o', ho', he'⟩ := execWait_ok (s := { s with port := is.map encode }) (d := d) (n := m)
            (by rw [Nat.add_comm]; exact WaitsOk.of_eq hm rfl rfl)
          have hoo : o = o' := congrArg State.outcomesIn (Host.Outcome.next.inj (he.symm.trans he'))
          subst hoo
          subst hs1
          exact ho' _ rfl rfl
        all_goals (subst hs1; first | rfl | exact fun _ => rfl)
      have hrun : Serving c s1 := by
        subst hs1
        exact ⟨hs.1, hs.2, rfl, hs.4, hs.5, ⟨hs.6.1, hs.6.2, hs.6.3, hs.6.4⟩⟩
      obtain ⟨t, hpr', hr', h2, h3, h4, h5⟩ := ih hrun (by subst hs1; rfl)
        (by intro i hi; have := hok i (by simp [hi]); subst hs1; cases i <;> exact this)
        (by subst hs1; exact ho _ rfl rfl)
      refine ⟨t, ?_, hr', h2, h3.trans (by subst hs1; rfl), h4.trans (by subst hs1; rfl),
        h5.trans (by subst hs1; rfl)⟩
      have hall := hpr.trans hpr'
      rw [show waitCount (.wait d :: is) = 1 + waitCount is from Nat.add_comm _ _]
      simpa [servedEvent] using hall
    | _ => exact hi.elim

/-- A PINGET of a READ that the environment answers `l`: two steps, the request and the taking of its answer. -/
theorem serve_pinget {c : Context} {s : State} {l : Level} {ls : List Level} {rest : List Nat} (hs : Serving c s)
    (hp : s.port = encode (.pinget c.miso) :: rest) (ht : s.tOp = .read) (hl : s.cfg.hasReadLevel = true)
    (hls : s.levelsIn = l :: ls) :
    ∃ t, Progress s t [.pinGet c.miso l] [l] 0 ∧ Serving c t ∧ t.port = rest ∧ t.seq = s.seq ∧
      t.curByte = composeBit c.order s.curByte s.seq.bitIdx l ∧ t.buf = s.buf := by
  have h1 := step_request_next hs.noReset hs.busy hs.noWait hs.noAnswer hp (decode_pinget _)
    (execPinGet_runs (s := { s with port := rest }) hl hs.pins.miso.1 hs.pins.miso.2)
  rw [drawLevel_scripted (s := { s with port := rest }) (l := l) (rest := ls) hls] at h1
  generalize hs1 : emit (.pinGet c.miso l)
    ({ ({ s with port := rest } : State) with levelsIn := ls, answer := some l } : State) = s1 at h1
  have h2 : step s1 =
      .next { s1 with answer := none, curByte := composeBit c.order s1.curByte s1.seq.bitIdx l } := by
    have hc : s1.ctx[s1.tBus]? = some c := by subst hs1; exact hs.context
    have ht1 : s1.tOp = .read := by subst hs1; exact ht
    refine (step_answer (l := l) (by subst hs1; exact hs.noReset) (by subst hs1; exact hs.busy)
      (by subst hs1; exact hs.noWait) (by subst hs1; rfl)).trans ?_
    simp only [takeAnswer, hc, ht1, if_true]
  refine ⟨{ s1 with answer := none, curByte := composeBit c.order s1.curByte s1.seq.bitIdx l },
    ?_, ?_, ?_, ?_, ?_, ?_⟩
  · subst hs1
    constructor <;> first | rfl | exact (Leads.step h1).trans (Leads.step h2) | skip
    · exact hls
    · exact fun m hm => WaitsOk.of_eq (s := s) (by simpa using hm) rfl rfl
    · exact fun p => rfl
  · subst hs1
    exact ⟨hs.1, hs.2, hs.3, rfl, hs.5, ⟨hs.6.1, hs.6.2, hs.6.3, hs.6.4⟩⟩
  all_goals subst hs1; rfl

/-- The step of the sequencer to another position, CUR_BYTE and the buffer as the step leaves them. -/
theorem serve_enter {c : Context} {s : State} {q : Seq} (hs : Serving c s) (hp : s.port = []) (b : Byte) (m : Memory)
    (hadv : advance s = enter q { s with curByte := b, buf := m }) :
    ∃ t, Progress s t [] [] 0 ∧ Serving c t ∧ t.port = (rowOf c t).map encode ∧ t.seq = q ∧ t.curByte = b ∧
      t.buf = m := by
  have h1 := step_advance_next hs.noReset hs.busy hs.noWait hs.noAnswer hp
    (hadv.trans (enter_of_ctx (s := { s with curByte := b, buf := m }) (q := q) hs.context))
  refine ⟨issue (rowOf c { ({ s with curByte := b, buf := m } : State) with seq := q })
    { ({ s with curByte := b, buf := m } : State) with seq := q }, ?_, ?_, rfl, rfl, rfl, rfl⟩
  · constructor <;> first | rfl | exact Leads.step h1 | exact (List.append_nil _).symm | skip
    · exact fun m hm => WaitsOk.of_eq (s := s) (by simpa using hm) rfl rfl
    · exact fun p => rfl
  · exact ⟨hs.1, hs.2, hs.3, hs.4, hs.5, ⟨hs.6.1, hs.6.2, hs.6.3, hs.6.4⟩⟩

/-! The steps from the last phase of a bit (`42_write.md` R91, `43_read.md` R105). -/

theorem advance_bit {s : State} {i : Nat} {j : Fin 8} (h : s.seq = ⟨.dAct, i, j⟩) (hj : j.val < 7) :
    advance s = enter ⟨.aWait, i, ⟨j.val + 1, by omega⟩⟩ s := by
  rcases s with ⟨⟩
  simp only at h
  subst h
  simp only [advance, nextBit, hj, dif_pos]

theorem advance_byte_write {s : State} {i : Nat} {b : Byte} (h : s.seq = ⟨.dAct, i, 7⟩) (ht : s.tOp = .write)
    (hn : i + 1 < s.tSize) (hb : s.buf.read (i + 1) = some b) :
    advance s = enter ⟨.aWait, i + 1, 0⟩ { s with curByte := b } := by
  rcases s with ⟨⟩
  simp only at h hn ht hb
  subst h
  subst ht
  simp [advance, nextBit, storeByte, nextByte, hn, startByte, hb]

theorem advance_last_write {s : State} {i : Nat} (h : s.seq = ⟨.dAct, i, 7⟩) (ht : s.tOp = .write)
    (hn : s.tSize = i + 1) : advance s = enter ⟨.postWait, i, 7⟩ s := by
  rcases s with ⟨⟩
  simp only at h hn ht
  subst h
  subst ht
  subst hn
  simp [advance, nextBit, storeByte, nextByte, enterPhase]

theorem advance_byte_read {s : State} {i : Nat} (h : s.seq = ⟨.dAct, i, 7⟩) (ht : s.tOp = .read)
    (hb : i < s.cfg.bufLen) (hn : i + 1 < s.tSize) :
    advance s = enter ⟨.aWait, i + 1, 0⟩ { s with curByte := 0#8, buf := s.buf.write i s.curByte } := by
  rcases s with ⟨⟩
  simp only at h ht hn hb
  subst h
  subst ht
  simp [advance, nextBit, storeByte, storeBuf, hb, nextByte, hn, startByte]

theorem advance_last_read {s : State} {i : Nat} (h : s.seq = ⟨.dAct, i, 7⟩) (ht : s.tOp = .read)
    (hb : i < s.cfg.bufLen) (hn : s.tSize = i + 1) :
    advance s = enter ⟨.postWait, i, 7⟩ { s with curByte := s.curByte, buf := s.buf.write i s.curByte } := by
  rcases s with ⟨⟩
  simp only at h ht hn hb
  subst h
  subst ht
  subst hn
  simp [advance, nextBit, storeByte, storeBuf, hb, nextByte, enterPhase]

/-! Phases. -/

/-- The sequencer stands at a position with all of that phase's requests on the port. -/
structure AtPhase (c : Context) (q : Seq) (b : Byte) (m : Memory) (s : State) : Prop where
  serving : Serving c s
  row : s.port = (rowOf c s).map encode
  seq : s.seq = q
  curByte : s.curByte = b
  buf : s.buf = m

theorem AtPhase.rowOf_write {c : Context} {s : State} {q : Seq} {b : Byte} {m : Memory} (h : AtPhase c q b m s)
    (ht : s.tOp = .write) : rowOf c s = writeRow c b q := by
  rw [rowOf, if_neg (by simp [ht]), h.curByte, h.seq]

theorem AtPhase.rowOf_read {c : Context} {s : State} {q : Seq} {b : Byte} {m : Memory} (h : AtPhase c q b m s)
    (ht : s.tOp = .read) : rowOf c s = readRow s.cfg.readPresetsMosi c q := by
  rw [rowOf, if_pos ht, h.seq]

theorem servable_quarter (s : State) (c : Context) : Servable s (.wait (busTime c)) :=
  Nat.lt_of_le_of_lt (Nat.le_mul_of_pos_left _ (by decide)) (busTime_bound c)

theorem servable_guard (s : State) (c : Context) : Servable s (.wait (4 * busTime c)) := busTime_bound c

theorem Serving.servable_mosi {c : Context} {s : State} (h : Serving c s) (l : Level) :
    Servable s (.pinset c.mosi l) := h.pins.mosi

theorem Serving.servable_clk {c : Context} {s : State} (h : Serving c s) (l : Level) :
    Servable s (.pinset c.clk l) := h.pins.clk

theorem Serving.servable_cs {c : Context} {s : State} (h : Serving c s) (l : Level) :
    Servable s (.pinset c.cs l) := h.pins.cs

/-- A phase without a PINGET runs: its requests are carried out, and the sequencer goes to the next phase of the same
bit. -/
theorem phase_runs {c : Context} {s : State} {ph next : Phase} {i n : Nat} {j : Fin 8} {b : Byte} {m : Memory}
    {is : List Instr} (h : AtPhase c ⟨ph, i, j⟩ b m s) (hw : WaitsOk (waitCount is + n) s) (his : rowOf c s = is)
    (hok : ∀ i ∈ is, Servable s i) (hadv : ∀ t : State, t.seq.phase = ph → advance t = enterPhase next t) :
    ∃ t, Progress s t (is.map servedEvent) [] (waitCount is) ∧ AtPhase c ⟨next, i, j⟩ b m t ∧ WaitsOk n t := by
  have hw' : WaitsOk (waitCount is) s := by
    rcases hw with h | ⟨rest, h⟩
    · exact .inl h
    · exact .inr ⟨List.replicate n .ok ++ rest, by rw [h, List.replicate_add, List.append_assoc]⟩
  obtain ⟨s1, hp1, hr1, h1, h2, h3, h4⟩ := serve_requests h.serving (h.row.trans (by rw [his])) hok hw'
  have hph : s1.seq.phase = ph := by rw [h2, h.seq]
  obtain ⟨t, hp2, hr2, k1, k2, k3, k4⟩ := serve_enter hr1 h1 s1.curByte s1.buf (hadv s1 hph)
  have hp : Progress s t (is.map servedEvent) [] (waitCount is) := by simpa using hp1.trans hp2
  exact ⟨t, hp, ⟨hr2, k1, by rw [k2, h2, h.seq], k3.trans (h3.trans h.curByte), k4.trans (h4.trans h.buf)⟩,
    hp.waits n hw⟩

end Sys2Proof.Machine
end

