-- ==== Sys2Proof/Tests/Slice0.lean ====
section
/-! SUPPORT. Tests on fixed values from the spec's own tables (`95_test_vectors.md`), the refusals of the well-formedness
checks, and for every statement with hypotheses a state that meets them. -/

namespace Sys2Proof.Tests

open Sys2Proof.Machine

/-! States of the tests. -/

/-- The bus of the spec's scenario S8. -/
def bus : Context := ⟨true, 11, 12, 13, 10, 0#1, 0#1, .msbFirst, 1000000⟩

/-- The bus of S8 in mode 2, of section 2.8. -/
def busMode2 : Context := { bus with cpha := 1#1 }

/-- Operands of a CONSTRUCT of the bus of S8, a one-byte transfer and the wait of P5. -/
def operands : Operands where
  aBus := ⟨0, true⟩
  aSrc := ⟨0, true⟩
  aMosi := ⟨11, true⟩
  aMiso := ⟨12, true⟩
  aClk := ⟨13, true⟩
  aCs := ⟨10, true⟩
  aMode := ⟨1, true⟩
  aOrder := ⟨0, true⟩
  aSpeed := ⟨1000000, true⟩
  aSize := ⟨1, true⟩
  aDur := ⟨2500000000, true⟩

/-- Reset, then the operands written. -/
def fresh : State := { State.reset with x := operands }

/-- The bus of S8 constructed and `BUF[0]` written, and nothing recorded of it. -/
def onBus : State :=
  { fresh with
    ctx := [bus, Context.empty]
    buf := [(0, 0x55#8)]
    dirs := [(10, .output), (11, .output), (12, .input), (13, .output)]
    outs := [(10, high), (13, low)] }

/-- An operand register written. -/
def withReg (r : RegName) (v : Nat) (s : State) : State := { s with x := s.x.set r ⟨v, true⟩ }

/-- An operand register that holds no value. -/
def without (r : RegName) (s : State) : State := { s with x := s.x.set r ⟨0, false⟩ }

/-- The strategy SLEEP, with the outcomes of the next sleeps. -/
def sleeping (os : List WaitOutcome) (s : State) : State :=
  { s with cfg := { s.cfg with strategy := .sleep }, outcomesIn := os }

/-- The levels the next PINGETs answer. -/
def answering (ls : List Level) (s : State) : State := { s with levelsIn := ls }

/-- What the host does next. -/
def hostDoes (as : List HostAction) (s : State) : State := { s with hostQueue := as }

/-- `N_BUS` 3, whose handles have two bits: handle 3 names no context. -/
def threeBuses : State :=
  { fresh with cfg := { Config.standard with nBus := 3 }, ctx := List.replicate 3 Context.empty }

/-- A WRITE of the bus of S8 that runs. -/
def writing : State := { onBus with busy := true, tOp := .write, tSize := 1 }

/-- A property of the next state; false where there is none. -/
def holdsOf (r : Res) (f : State → Bool) : Bool :=
  match r with
  | .next s => f s
  | .fault _ => false
  | .refused _ => false

/-- The reason of a refusal. -/
def refusalOf (r : Res) : Option Refusal :=
  match r with
  | .next _ => none
  | .fault _ => none
  | .refused e => some e

/-! Well-formedness: one ill-formed term for each check. -/

theorem test_wf_pindir_pin : Instr.wf Config.standard (.pindir 256 .output) = false := by decide
theorem test_wf_pinset_pin : Instr.wf Config.standard (.pinset 256 high) = false := by decide
theorem test_wf_pinget_pin : Instr.wf Config.standard (.pinget 256) = false := by decide
theorem test_wf_wait_duration : Instr.wf Config.standard (.wait 4294967296) = false := by decide
theorem test_wf_bounds : Instr.wf Config.standard (.pindir 255 .input) = true ∧
    Instr.wf Config.standard (.wait 4294967295) = true := by decide
theorem test_wf_config : Config.standard.wf = true := by decide
theorem test_wf_no_bus : Config.wf { Config.standard with nBus := 0 } = false := by decide
theorem test_wf_no_pin_bits : Config.wf { Config.standard with pinW := 0 } = false := by decide
theorem test_wf_no_buffer : Config.wf { Config.standard with bufLen := 0 } = false := by decide
theorem test_wf_no_cycles : Config.wf { Config.standard with cyclesPerUs := 0 } = false := by decide
theorem test_wf_init_too_short : Config.initOrderOk [.mosiDir, .csDir, .csHigh, .misoDir, .clkDir] = false := by
  decide
theorem test_wf_init_repeated :
    Config.initOrderOk [.mosiDir, .csDir, .csHigh, .misoDir, .clkDir, .clkDir] = false := by decide
theorem test_wf_init_cs_level_first :
    Config.initOrderOk [.mosiDir, .csHigh, .csDir, .misoDir, .clkDir, .clkIdle] = false := by decide
theorem test_wf_init_clk_level_first :
    Config.initOrderOk [.mosiDir, .csDir, .csHigh, .misoDir, .clkIdle, .clkDir] = false := by decide

/-! Decoding: words written out from R49 and R50. -/

theorem test_decode_construct : decode .cmd 0b000 = .ok .construct := rfl
theorem test_decode_derive : decode .cmd 0b001 = .ok .derive := rfl
theorem test_decode_write : decode .cmd 0b010 = .ok .write := rfl
theorem test_decode_read : decode .cmd 0b011 = .ok .read := rfl
theorem test_decode_waitns : decode .cmd 0b100 = .ok .waitns := rfl
theorem test_decode_waitms : decode .cmd 0b101 = .ok .waitms := rfl
theorem test_decode_reserved : decode .cmd 0b110 = .error .reservedOpcode ∧
    decode .cmd 0b111 = .error .reservedOpcode := ⟨rfl, rfl⟩
theorem test_decode_command_too_wide : decode .cmd 0b1000 = .error .commandTooWide := rfl
/-- `{KIND=0b00, PIN=11, VAL=1}` and `{KIND=0b00, PIN=12, VAL=0}`: OUT is 1 and IN is 0 (R53). -/
theorem test_decode_pindir : decode .req 0b00001011_1_00 = .ok (.pindir 11 .output) ∧
    decode .req 0b00001100_0_00 = .ok (.pindir 12 .input) := ⟨rfl, rfl⟩
theorem test_decode_pinset : decode .req 0b00001010_1_01 = .ok (.pinset 10 high) ∧
    decode .req 0b00001101_0_01 = .ok (.pinset 13 low) := ⟨rfl, rfl⟩
theorem test_decode_pinget : decode .req 0b00001100_0_10 = .ok (.pinget 12) ∧
    decode .req 0b00001100_1_10 = .error .strayVal := ⟨rfl, rfl⟩
theorem test_decode_wait : decode .req 0b11111010_11 = .ok (.wait 250) ∧
    decode .req (4294967296 * 4 + 3) = .error .durationTooWide := ⟨rfl, rfl⟩
/-- Rows of the opcode table: the two formats' words, told apart by their length. -/
theorem test_table_words : decodeTableWord 3 5 = some .waitms ∧ decodeTableWord 8 2 = some .write ∧
    decodeTableWord 2 3 = some (.wait 0) ∧ decodeTableWord 8 6 = none := ⟨rfl, rfl, rfl, rfl⟩

/-! Arithmetic: the tables of sections 2.1 to 2.6. -/

theorem test_quarter_cycle :
    [1, 3, 250000, 1000000, 4000000, 250000000, 250000001, 1073741823].map quarterCycle =
      [250000000, 83333333, 1000, 250, 62, 1, 0, 0] := by decide
theorem test_spin_count : [0, 1, 62, 63, 250, 999999999, 2500000000, 4294967295].map (spinCount Config.standard) =
    [0, 1, 1, 2, 4, 16000000, 40000000, 68719477] := by decide
theorem test_split : [0, 999999999, 1000000000, 2500000000, 4294967295].map splitDuration =
    [(0, 0), (0, 999999999), (1, 0), (2, 500000000), (4, 294967295)] := by decide
theorem test_modes : [1, 2, 3, 4].map (fun k => modeDecode (modeSelector k)) =
    [(0#1, 0#1), (0#1, 1#1), (1#1, 0#1), (1#1, 1#1)] := by decide
theorem test_wire_bits : wireBits .msbFirst 0xB2#8 = [1, 0, 1, 1, 0, 0, 1, 0] ∧
    wireBits .lsbFirst 0xB2#8 = [0, 1, 0, 0, 1, 1, 0, 1] := by decide
/-- The answers 1,0,1,1,0,0,1,0 of section 2.6. -/
def answers : Fin 8 → Level := ![1, 0, 1, 1, 0, 0, 1, 0]
theorem test_compose :
    (List.finRange 8).foldl (fun b j => composeBit .msbFirst b j (answers j)) 0#8 = 0xB2#8 ∧
    (List.finRange 8).foldl (fun b j => composeBit .lsbFirst b j (answers j)) 0#8 = 0x4D#8 := by decide
/-- `N_BUS` 2 has handles of one bit and 3 of two; `BUF_LEN` 256 has sizes of nine bits (R11, R22). -/
theorem test_widths : regWidth Config.standard .aBus = 1 ∧ regWidth threeBuses.cfg .aBus = 2 ∧
    regWidth Config.standard .aSize = 9 := by decide
/-- `STATUS[2:0] = 0b010` at the end of P4. -/
theorem test_status_word : statusWord { onBus with err := .interruptedBySignal } = 0b010#3 ∧
    statusWord { onBus with err := .copyFault, busy := true } = 0b111#3 := by decide

/-! One instruction at a time. -/

/-- Section 2.7, first row: the context, and the six requests in the default `INIT_ORDER`. -/
theorem test_construct : holdsOf (exec .construct fresh) (fun t =>
    t.ctx == [bus, Context.empty] && t.seq.phase == .init &&
    t.port == [.pindir 11 .output, .pindir 10 .output, .pinset 10 high, .pindir 12 .input, .pindir 13 .output,
      .pinset 13 low].map encode) = true := by decide
/-- Section 2.7, second row: mode 3, LSBFirst, 4 MHz, on handle 1. -/
theorem test_construct_mode3 : holdsOf (exec .construct
      (withReg .aBus 1 (withReg .aMosi 1 (withReg .aMiso 2 (withReg .aClk 3 (withReg .aCs 4
        (withReg .aMode 3 (withReg .aOrder 1 (withReg .aSpeed 4000000 fresh))))))))) (fun t =>
    t.ctx == [Context.empty, ⟨true, 1, 2, 3, 4, 1, 0, .lsbFirst, 4000000⟩]) = true := by decide
/-- Section 2.7: `DERIVE bus=1 src=0 cs=9`. -/
theorem test_derive : holdsOf (exec .derive (withReg .aBus 1 (withReg .aCs 9 onBus))) (fun t =>
    t.ctx == [bus, { bus with cs := 9 }] && t.port == [.pindir 9 .output, .pinset 9 high].map encode) = true := by
  decide
/-- Section 2.7: `DERIVE bus=1 src=0 cs=13` takes the source's clock pin. -/
theorem test_derive_refused : refusalOf (exec .derive (withReg .aBus 1 (withReg .aCs 13 onBus))) =
    some .chipSelectInUse := by decide
/-- P1, event 1 of the WRITE. -/
theorem test_write : holdsOf (exec .write onBus) (fun t =>
    t.busy && t.seq.phase == .preMosi && t.port == [encode (.pinset 11 low)]) = true := by decide
/-- Section 2.7: `WRITE bus=0 size=257`. -/
theorem test_write_refused : refusalOf (exec .write (withReg .aSize 257 onBus)) = some .sizeTooLarge := by decide
/-- Section 2.6: with `READ_PRESETS_MOSI = false` the first event is absent. -/
theorem test_read : holdsOf (exec .read { onBus with cfg := { onBus.cfg with readPresetsMosi := false } }) (fun t =>
    t.busy && t.tOp == .read && t.port == []) = true := by decide
theorem test_read_refused : refusalOf (exec .read { onBus with cfg := { onBus.cfg with hasReadLevel := false } }) =
    some .noReadLevel := by decide
/-- P5. -/
theorem test_waitns : holdsOf (exec .waitns fresh) (fun t => t.port == [encode (.wait 2500000000)]) = true := by decide
/-- Section 2.3: `WAITMS dur=3` under SLEEP and under SPIN. -/
theorem test_waitms : holdsOf (exec .waitms (withReg .aDur 3 (sleeping [] fresh))) (fun t =>
      t.engine == some (.usleep 3000)) = true ∧
    holdsOf (exec .waitms (withReg .aDur 3 fresh)) (fun t => t.engine == some (.spin 48000)) = true := by decide
/-- Section 2.3: `WAITMS dur=4294968`. -/
theorem test_waitms_refused : refusalOf (exec .waitms (withReg .aDur 4294968 fresh)) = some .durationTooLarge := by
  decide
theorem test_pindir : holdsOf (exec (.pindir 12 .output) onBus) (fun t =>
    t.dirOf 12 == some .output && t.dirOf 13 == some .output && t.trace == [.pinDir 12 .output]) = true := by decide
theorem test_pinset : holdsOf (exec (.pinset 11 high) onBus) (fun t =>
    t.outOf 11 == some high && t.outOf 13 == some low) = true := by decide
theorem test_pinget : holdsOf (exec (.pinget 12) (answering [high, low] onBus)) (fun t =>
    t.answer == some high && t.levelsIn == [low] && t.trace == [.pinGet 12 high]) = true := by decide
/-- S7 and P5: the wait of 2.5 s asks for 2 s and 500,000,000 ns of sleep. -/
theorem test_wait : holdsOf (exec (.wait 2500000000) (sleeping [.ok] onBus)) (fun t =>
    t.engineLog == [(.nanosleep 2 500000000, .ok)]) = true := by decide
/-- P4, event 13: the failed wait of a transaction goes to ABORT_CS. -/
theorem test_wait_fails : holdsOf (exec (.wait 250) (sleeping [.interruptedBySignal] writing)) (fun t =>
    t.seq.phase == .abortCs && t.port == [encode (.pinset 10 high)] && t.busy) = true := by decide

/-! The sequencer: the rows a test of one step can tell apart. -/

/-- Mode 1 drives MOSI in A_ACT and not in C_ACT, mode 2 the other way round (section 2.1). -/
theorem test_write_rows :
    [Phase.aAct, .bAct, .cAct, .dAct].map (fun ph => writeRow bus 0x80#8 ⟨ph, 0, 0⟩) =
      [[.pinset 11 high], [.pinset 13 high], [], [.pinset 13 low]] ∧
    [Phase.aAct, .bAct, .cAct, .dAct].map (fun ph => writeRow busMode2 0x80#8 ⟨ph, 0, 0⟩) =
      [[], [.pinset 13 high], [.pinset 11 high], [.pinset 13 low]] := by decide
/-- Modes 3 and 4 of section 2.6: the sample stands before the edge of its slot. -/
theorem test_read_rows :
    readRow true { bus with cpol := 1#1 } ⟨.bAct, 0, 0⟩ = [.pinget 12, .pinset 13 low] ∧
    readRow true { bus with cpol := 1#1, cpha := 1#1 } ⟨.dAct, 0, 0⟩ = [.pinget 12, .pinset 13 high] := by decide
/-- P2, byte 0: after its last bit the byte 0x4D is stored and byte 1 starts from 0. -/
theorem test_read_stores : holdsOf (step { onBus with
      busy := true, tOp := .read, tSize := 2, curByte := 0x4D#8, seq := ⟨.dAct, 0, 7⟩ }) (fun t =>
    t.buf == [(0, 0x4D#8)] && t.curByte == 0#8 && t.seq == ⟨.aWait, 1, 0⟩) = true := by decide
/-- A hole of the buffer: the store of a byte that does not exist faults. -/
theorem test_buffer_edge : step (hostDoes [.writeBuf 256 0x00#8] fresh) = .fault .noSuchBufferByte := rfl

/-! Witnesses: for each statement with hypotheses, in the order of the statements, a state that meets them. -/

theorem witness_DecodeOfEncodeIsTheInstruction :
    Instr.wf Config.standard (.pinset 255 high) = true ∧ Instr.wf Config.standard (.wait 0) = true ∧
    Instr.wf Config.standard .construct = true := by decide

theorem witness_DecodedWordIsTheOnlyWord : decode .cmd 5 = .ok .waitms ∧ decode .req 5 = .ok (.pinset 0 high) :=
  ⟨rfl, rfl⟩

theorem witness_ReservedAndIllegalValuesAreRefused :
    (∀ w ∈ [6, 7], (hostDoes [.writeCmd w] fresh).busy = false ∧ (hostDoes [.writeCmd w] fresh).resetLine = false ∧
      (hostDoes [.writeCmd w] fresh).hostQueue = [.writeCmd w]) ∧
    (withReg .aMode 0 fresh).reg .aMode = 0 ∧ 5 ≤ (withReg .aMode 5 fresh).reg .aMode ∧
    (withReg .aSpeed 0 fresh).reg .aSpeed = 0 ∧
    2 ^ 30 - 1 < (withReg .aSpeed 1073741824 fresh).reg .aSpeed ∧
    threeBuses.cfg.nBus ≤ (withReg .aBus 3 threeBuses).reg .aBus ∧
    threeBuses.cfg.nBus ≤ (withReg .aSrc 3 threeBuses).reg .aSrc ∧
    onBus.cfg.bufLen < (withReg .aSize 257 onBus).reg .aSize := by decide

theorem witness_StepRunsTheDecodedInstruction :
    (writing.resetLine = false ∧ writing.busy = true ∧ writing.engine = none ∧ writing.answer = none ∧
      ({ writing with port := [45] } : State).port = [45] ∧ decode .req 45 = .ok (.pinset 5 high)) ∧
    (fresh.resetLine = false ∧ fresh.busy = false ∧ (hostDoes [.writeCmd 4] fresh).hostQueue = [.writeCmd 4] ∧
      decode .cmd 4 = .ok .waitns) := by decide

theorem witness_IdleControllerWaits :
    State.reset.resetLine = false ∧ State.reset.busy = false ∧ State.reset.hostQueue = [] := by decide

theorem witness_ModeDecodeIsTheTable : modeDecode 3#2 = modeDecode 3#2 ∧ (1 ≤ 1 ∧ 1 ≤ 4) ∧ (1 ≤ 4 ∧ 4 ≤ 4) := by
  decide

theorem witness_QuarterCycleBounds : (1 ≤ 1 ∧ 1 ≤ freqMax) ∧ (1 ≤ freqMax ∧ freqMax ≤ freqMax) := by decide

theorem witness_SplitIsExact : 0 < 2 ^ durW ∧ 4294967295 < 2 ^ durW ∧ 999999999 ≤ 999999999 := by decide

theorem witness_DelaysAreMonotone : 0 ≤ 4294967295 ∧ fresh.cfg.strategy = .spin ∧
    (sleeping [] fresh).cfg.strategy = .sleep := by decide

theorem witness_ReadComposesWhatItSamples : ∀ j, (fun j => wireBit .msbFirst 0x55#8 j) j = wireBit .msbFirst 0x55#8 j :=
  fun _ => rfl

theorem witness_PinDirSetsTheDirection : pinExists fresh.cfg 0 = true ∧ pinExists fresh.cfg 255 = true := by decide

theorem witness_PinSetDrivesThePin : pinExists onBus.cfg 11 = true ∧ onBus.dirOf 11 = some .output := by decide

theorem witness_PinGetAnswersTheEnvironmentsLevel :
    onBus.cfg.hasReadLevel = true ∧ pinExists onBus.cfg 12 = true ∧ onBus.dirOf 12 = some .input ∧
    (answering [high] onBus).levelsIn = [high] ∧ onBus.levelsIn = [] := by decide

theorem witness_PinLayerFailuresAreRefused :
    pinExists onBus.cfg 256 = false ∧ pinExists { onBus.cfg with absentPins := [11] } 11 = false ∧
    onBus.dirOf 12 ≠ some .output ∧ onBus.dirOf 9 ≠ some .input := by decide

theorem witness_WaitCompletes :
    ((engineOutcome onBus).1 = .ok ∧ onBus.cfg.strategy = .spin) ∧
    (let s := sleeping [.ok, .copyFault] onBus;
      (engineOutcome s).1 = .ok ∧ s.cfg.strategy = .sleep ∧ s.outcomesIn = .ok :: [.copyFault]) := by decide

theorem witness_FailedWaitAbortsTheTransaction (k : WaitOutcome) (hk : k ≠ .ok) :
    let s := sleeping [k] writing
    s.inTransaction = true ∧ s.resetLine = false ∧ s.answer = none ∧ s.ctx[s.tBus]? = some bus ∧
    pinExists s.cfg bus.cs = true ∧ s.dirOf bus.cs = some .output ∧ s.cfg.strategy = .sleep ∧
    (drawOutcome s).1 = k ∧ k ≠ .ok :=
  ⟨rfl, rfl, rfl, rfl, rfl, rfl, rfl, rfl, hk⟩

theorem witness_FailedWaitEndsWaitNs :
    let s := sleeping [.invalidDuration] { fresh with busy := true, tOp := .waitns, seq := ⟨.dly, 0, 0⟩ }
    s.inTransaction = false ∧ s.cfg.strategy = .sleep ∧ (drawOutcome s).1 = .invalidDuration ∧
    WaitOutcome.invalidDuration ≠ .ok := by decide

/-- Every command is launched somewhere. -/
theorem witness_LaunchSetsStatus :
    (∃ t, exec .construct fresh = .next t) ∧ (∃ t, exec .derive (withReg .aBus 1 (withReg .aCs 9 onBus)) = .next t) ∧
    (∃ t, exec .write onBus = .next t) ∧ (∃ t, exec .read onBus = .next t) ∧
    (∃ t, exec .waitns fresh = .next t) ∧ (∃ t, exec .waitms (withReg .aDur 3 fresh) = .next t) ∧
    opcodeOf .write = some .write :=
  ⟨⟨_, rfl⟩, ⟨_, rfl⟩, ⟨_, rfl⟩, ⟨_, rfl⟩, ⟨_, rfl⟩, ⟨_, rfl⟩, rfl⟩

theorem witness_UnwrittenOperandIsRefused :
    ∀ r ∈ [RegName.aBus, .aSrc, .aMosi, .aMiso, .aClk, .aCs, .aMode, .aOrder, .aSpeed, .aSize, .aDur],
      (without r onBus).written r = false := by decide

/-- The fastest bus of the last mode, LSBFirst, on the last handle, meets the hypotheses as the bus of S8 does. -/
theorem witness_ConstructCompletes :
    ∀ s ∈ [fresh, withReg .aBus 1 (withReg .aMode 4 (withReg .aOrder 1 (withReg .aSpeed 1073741823
      (withReg .aMosi 255 (withReg .aMiso 0 fresh)))))],
    Ready s ∧ s.cfg.wf = true ∧ s.ctx.length = s.cfg.nBus ∧
    Holds [.aBus, .aMosi, .aMiso, .aClk, .aCs, .aMode, .aOrder, .aSpeed] s ∧
    s.reg .aBus < s.cfg.nBus ∧ 1 ≤ s.reg .aMode ∧ s.reg .aMode ≤ 4 ∧
    1 ≤ s.reg .aSpeed ∧ s.reg .aSpeed ≤ 2 ^ 30 - 1 ∧
    pinsDiffer (s.reg .aMosi) (s.reg .aMiso) (s.reg .aClk) (s.reg .aCs) = true ∧
    (∀ r ∈ [RegName.aMosi, .aMiso, .aClk, .aCs], pinExists s.cfg (s.reg r) = true) := by
  simp only [List.forall_mem_cons, Holds]
  exact ⟨⟨⟨rfl, rfl, rfl, rfl⟩, by decide⟩, ⟨⟨rfl, rfl, rfl, rfl⟩, by decide⟩, by simp⟩

theorem witness_ConstructIsRefused :
    threeBuses.cfg.nBus ≤ (withReg .aBus 3 threeBuses).reg .aBus ∧
    (∀ r ∈ [RegName.aMosi, .aMiso, .aClk, .aCs, .aMode], State.reset.written r = false) ∧
    ¬(1 ≤ (withReg .aMode 0 fresh).reg .aMode) ∧ ¬(withReg .aMode 5 fresh).reg .aMode ≤ 4 ∧
    (withReg .aSpeed 0 fresh).reg .aSpeed = 0 ∧ 2 ^ 30 - 1 < (withReg .aSpeed 1073741824 fresh).reg .aSpeed ∧
    (withReg .aMiso 11 fresh).reg .aMosi = (withReg .aMiso 11 fresh).reg .aMiso ∧
    (withReg .aClk 11 fresh).reg .aMosi = (withReg .aClk 11 fresh).reg .aClk ∧
    (withReg .aCs 11 fresh).reg .aMosi = (withReg .aCs 11 fresh).reg .aCs ∧
    (withReg .aClk 12 fresh).reg .aMiso = (withReg .aClk 12 fresh).reg .aClk ∧
    (withReg .aCs 12 fresh).reg .aMiso = (withReg .aCs 12 fresh).reg .aCs ∧
    (withReg .aCs 13 fresh).reg .aClk = (withReg .aCs 13 fresh).reg .aCs := by decide

theorem witness_DeriveCompletes :
    let s := withReg .aBus 1 (withReg .aCs 9 onBus)
    Ready s ∧ s.ctx.length = s.cfg.nBus ∧ Holds [.aBus, .aSrc, .aCs] s ∧
    s.reg .aBus < s.cfg.nBus ∧ s.reg .aSrc < s.cfg.nBus ∧ s.reg .aBus ≠ s.reg .aSrc ∧
    s.ctx[s.reg .aSrc]? = some bus ∧ bus.valid = true ∧ bus.hasPin (s.reg .aCs) = false ∧
    pinExists s.cfg (s.reg .aCs) = true :=
  ⟨⟨rfl, rfl, rfl, rfl⟩, rfl, by simp only [Holds]; decide, by decide, by decide, by decide, rfl, rfl, by decide,
    by decide⟩

theorem witness_DeriveIsRefused :
    threeBuses.cfg.nBus ≤ (withReg .aBus 3 threeBuses).reg .aBus ∧
    threeBuses.cfg.nBus ≤ (withReg .aSrc 3 threeBuses).reg .aSrc ∧
    (∀ c, fresh.ctx[fresh.reg .aSrc]? = some c → c.valid = false) ∧
    onBus.reg .aBus = onBus.reg .aSrc ∧ State.reset.written .aCs = false ∧
    (∀ p ∈ [11, 12, 13, 10], (withReg .aCs p onBus).ctx[onBus.reg .aSrc]? = some bus ∧
      ((withReg .aCs p onBus).reg .aCs = bus.mosi ∨ (withReg .aCs p onBus).reg .aCs = bus.miso ∨
        (withReg .aCs p onBus).reg .aCs = bus.clk ∨ (withReg .aCs p onBus).reg .aCs = bus.cs)) := by
  refine ⟨by decide, by decide, ?_, by decide, by decide, by decide⟩
  rintro c h
  cases h
  rfl

theorem witness_TransferIsRefused :
    threeBuses.cfg.nBus ≤ (withReg .aBus 3 threeBuses).reg .aBus ∧
    (∀ c, fresh.ctx[fresh.reg .aBus]? = some c → c.valid = false) ∧
    State.reset.written .aSize = false ∧ onBus.cfg.bufLen < (withReg .aSize 257 onBus).reg .aSize ∧
    (∃ i, i < (withReg .aSize 2 onBus).reg .aSize ∧ (withReg .aSize 2 onBus).buf.read i = none) ∧
    (State.cfg { onBus with cfg := { onBus.cfg with hasReadLevel := false } }).hasReadLevel = false := by
  refine ⟨by decide, ?_, by decide, by decide, ⟨1, by decide, by decide⟩, rfl⟩
  rintro c h
  cases h
  rfl

/-- A transfer may be launched on the bus of S8, of 0, 1 or 256 bytes, under either strategy. -/
theorem ready_on_bus (n : Nat) (hn : n ≤ 256) (strategy : Strategy) (os : List WaitOutcome) (ls : List Level) :
    TransferReady bus (withReg .aSize n
      { onBus with cfg := { onBus.cfg with strategy := strategy }, outcomesIn := os, levelsIn := ls }) where
  ready := ⟨rfl, rfl, rfl, rfl⟩
  holds := by intro r hr; simp only [List.mem_cons, List.not_mem_nil, or_false] at hr; rcases hr with rfl | rfl <;> rfl
  inBank := show 0 < 2 by decide
  context := rfl
  valid := rfl
  freq := by decide
  size := hn
  pins := ⟨⟨rfl, rfl⟩, ⟨rfl, rfl⟩, ⟨rfl, rfl⟩, ⟨rfl, rfl⟩⟩

/-- The bus of S8 with the waits of a one-byte transfer answered ok, and eight levels. -/
def calm (strategy : Strategy) : State := withReg .aSize 1
  { onBus with
    cfg := { onBus.cfg with strategy := strategy }
    outcomesIn := List.replicate 35 .ok
    levelsIn := [1, 0, 1, 1, 0, 0, 1, 0] }

theorem calm_ready (strategy : Strategy) : TransferReady bus (calm strategy) :=
  ready_on_bus 1 (by decide) strategy _ _

theorem calm_waits (strategy : Strategy) : WaitsOk (3 + 32 * (calm strategy).reg .aSize) (calm strategy) :=
  .inr ⟨[], rfl⟩

/-- The hypotheses the statements about a completed WRITE share. -/
theorem witness_WriteCompletes (strategy : Strategy) :
    TransferReady bus (calm strategy) ∧ [0x55#8].length = (calm strategy).reg .aSize ∧
    (∀ i, i < (calm strategy).reg .aSize → (calm strategy).buf.read i = [0x55#8][i]?) ∧
    WaitsOk (3 + 32 * (calm strategy).reg .aSize) (calm strategy) := by
  refine ⟨calm_ready _, rfl, fun i hi => ?_, calm_waits _⟩
  obtain rfl : i = 0 := Nat.lt_one_iff.mp hi
  rfl

/-- The hypotheses the statements about a completed READ share. -/
theorem witness_ReadCompletes (strategy : Strategy) :
    TransferReady bus (calm strategy) ∧ (calm strategy).cfg.hasReadLevel = true ∧
    (calm strategy).levelsIn = [1, 0, 1, 1, 0, 0, 1, 0] ++ [] ∧
    [1#1, 0, 1, 1, 0, 0, 1, 0].length = 8 * (calm strategy).reg .aSize ∧
    WaitsOk (3 + 32 * (calm strategy).reg .aSize) (calm strategy) :=
  ⟨calm_ready _, rfl, rfl, rfl, calm_waits _⟩

theorem witness_WriteEventCounts : TransferReady bus (calm .spin) ∧ [0x55#8].length = (calm .spin).reg .aSize ∧
    (∀ i, i < (calm .spin).reg .aSize → (calm .spin).buf.read i = [0x55#8][i]?) ∧
    WaitsOk (3 + 32 * (calm .spin).reg .aSize) (calm .spin) := witness_WriteCompletes .spin

theorem witness_ChipSelectFramesTheWrite :
    (TransferReady bus (calm .sleep) ∧ [0x55#8].length = (calm .sleep).reg .aSize ∧
      (∀ i, i < (calm .sleep).reg .aSize → (calm .sleep).buf.read i = [0x55#8][i]?) ∧
      WaitsOk (3 + 32 * (calm .sleep).reg .aSize) (calm .sleep)) ∧
    pinsDiffer bus.mosi bus.miso bus.clk bus.cs = true := ⟨witness_WriteCompletes .sleep, by decide⟩

theorem witness_ReadEventCounts : TransferReady bus (calm .sleep) ∧ (calm .sleep).cfg.hasReadLevel = true ∧
    (calm .sleep).levelsIn = [1, 0, 1, 1, 0, 0, 1, 0] ++ [] ∧
    [1#1, 0, 1, 1, 0, 0, 1, 0].length = 8 * (calm .sleep).reg .aSize ∧
    WaitsOk (3 + 32 * (calm .sleep).reg .aSize) (calm .sleep) := witness_ReadCompletes .sleep

/-- Two READs on buses of different modes. -/
theorem witness_ReadBytesDependOnlyOnAnswersAndOrder :
    let s := { calm .spin with ctx := [busMode2, Context.empty] }
    TransferReady bus (calm .sleep) ∧ TransferReady busMode2 s ∧ WaitsOk (3 + 32 * s.reg .aSize) s ∧
    s.levelsIn = [1, 0, 1, 1, 0, 0, 1, 0] ++ [] ∧ s.cfg.hasReadLevel = true ∧
    (calm .sleep).reg .aSize = s.reg .aSize ∧ bus.order = busMode2.order := by
  have h := calm_ready .spin
  exact ⟨calm_ready .sleep,
    ⟨⟨rfl, rfl, rfl, rfl⟩, h.holds, h.inBank, rfl, rfl, by decide, h.size,
      ⟨h.pins.mosi, h.pins.clk, h.pins.cs, h.pins.miso⟩⟩, .inl rfl, rfl, rfl, rfl, rfl⟩

/-- Both clauses, and the shortest and the longest transfer. -/
theorem witness_ClockIsIdleAfterATransaction :
    (TransferReady bus (calm .sleep) ∧ pinsDiffer bus.mosi bus.miso bus.clk bus.cs = true ∧
      WaitsOk (3 + 32 * (calm .sleep).reg .aSize) (calm .sleep) ∧
      (calm .sleep).buf.allWritten ((calm .sleep).reg .aSize) = true ∧ (calm .sleep).cfg.hasReadLevel = true ∧
      8 * (calm .sleep).reg .aSize ≤ (calm .sleep).levelsIn.length) ∧
    TransferReady bus (withReg .aSize 0 { onBus with cfg := { onBus.cfg with strategy := .spin } }) ∧
    TransferReady bus (withReg .aSize 256 { onBus with cfg := { onBus.cfg with strategy := .spin } }) :=
  ⟨⟨calm_ready _, by decide, calm_waits _, by decide, rfl, by decide⟩, ready_on_bus 0 (by decide) .spin [] [],
    ready_on_bus 256 (by decide) .spin [] []⟩

/-- The shortest and the longest wait, under SPIN, and under SLEEP ended ok, failed, and ended by a free value. -/
theorem witness_WaitNsCompletes :
    ∀ d ∈ [0, 4294967295],
      ∀ s ∈ [fresh, sleeping [.ok] fresh, sleeping [.copyFault] fresh, sleeping [] fresh],
      Ready (withReg .aDur d s) ∧ Holds [.aDur] (withReg .aDur d s) ∧ (withReg .aDur d s).reg .aDur < 2 ^ durW := by
  simp only [List.forall_mem_cons, Holds]
  refine ⟨⟨?_, ?_, ?_, ?_, by simp⟩, ⟨?_, ?_, ?_, ?_, by simp⟩, by simp⟩ <;>
    exact ⟨⟨rfl, rfl, rfl, rfl⟩, by decide, by decide⟩

/-- The longest WAITMS under SPIN, one under SLEEP that fails, and one above the bound. -/
theorem witness_WaitMsCompletes :
    (let s := withReg .aDur 4294967 fresh;
      Ready s ∧ Holds [.aDur] s ∧ s.reg .aDur ≤ 4294967 ∧ s.cfg.strategy = .spin) ∧
    (let s := withReg .aDur 0 (sleeping [.copyFault] fresh);
      Ready s ∧ Holds [.aDur] s ∧ s.reg .aDur ≤ 4294967 ∧ s.cfg.strategy = .sleep ∧
      (engineOutcome s).1 = .copyFault) ∧
    (let s := withReg .aDur 4294968 fresh;
      Ready s ∧ Holds [.aDur] s ∧ 4294967 < s.reg .aDur) := by
  simp only [Holds]
  exact ⟨⟨⟨rfl, rfl, rfl, rfl⟩, by decide, by decide, rfl⟩,
    ⟨⟨rfl, rfl, rfl, rfl⟩, by decide, by decide, rfl, rfl⟩, ⟨⟨rfl, rfl, rfl, rfl⟩, by decide, by decide⟩⟩

theorem witness_ResetInputOnlyWhenIdle :
    ({ writing with resetLine := true } : State).resetLine = true ∧ writing.busy = true ∧ onBus.busy = false := by decide

theorem witness_HostWritesARegister :
    let s := hostDoes [.writeReg .aSize 511, .readStatus] fresh
    s.busy = false ∧ s.resetLine = false ∧ s.hostQueue = .writeReg .aSize 511 :: [.readStatus] ∧
    511 < 2 ^ regWidth s.cfg .aSize := by decide

theorem witness_HostWritesABufferByte :
    ∀ i ∈ [0, 255, 256], let s := hostDoes [.writeBuf i 0xA5#8, .readStatus] onBus
      s.busy = false ∧ s.resetLine = false ∧ s.hostQueue = .writeBuf i 0xA5#8 :: [.readStatus] ∧
      (i < s.cfg.bufLen ∨ s.cfg.bufLen ≤ i) := by decide

theorem witness_StatusWordLayout :
    let s := hostDoes [.readStatus] { fresh with err := .copyFault }
    s.busy = false ∧ s.resetLine = false ∧ s.hostQueue = .readStatus :: [] := by decide

theorem witness_NoStepChangesTheConfiguration : ∃ t, step State.reset = .next t := ⟨_, rfl⟩

/-- A step of a running WRITE; and the store of a READ, which changes the buffer. -/
theorem witness_TheHostIsHeldWhileBusy :
    (writing.busy = true ∧ ∃ t, step { writing with seq := ⟨.aWait, 0, 0⟩ } = .next t) ∧
    (let s := { writing with tOp := .read, curByte := 0x4D#8, seq := ⟨.dAct, 0, 7⟩ }
      ∃ t, step s = .next t ∧ t.buf ≠ s.buf) :=
  ⟨⟨rfl, ⟨_, rfl⟩⟩, ⟨_, rfl, by decide⟩⟩

/-- The launches of a CONSTRUCT and of a DERIVE. -/
theorem witness_OnlyConstructAndDeriveChangeContexts :
    (let s := hostDoes [.writeCmd 0] fresh
      ∃ t, step s = .next t ∧ t.ctx ≠ s.ctx ∧ s.resetLine = false) ∧
    (let s := hostDoes [.writeCmd 1] (withReg .aBus 1 (withReg .aCs 9 onBus))
      ∃ t, step s = .next t ∧ t.ctx ≠ s.ctx ∧ s.resetLine = false) :=
  ⟨⟨_, rfl, by decide, rfl⟩, ⟨_, rfl, by decide, rfl⟩⟩

theorem witness_StepKeepsMapsCanonical :
    MapsCanonical (hostDoes [.writeBuf 255 0xA5#8] onBus) ∧
    ∃ t, step (hostDoes [.writeBuf 255 0xA5#8] onBus) = .next t :=
  ⟨⟨by decide, by decide, by decide, by decide⟩, ⟨_, rfl⟩⟩

theorem bus_legal : bus.Legal Config.standard := by
  constructor <;> decide

theorem witness_StepKeepsTheBankLegal :
    BankLegal (hostDoes [.writeCmd 2] onBus) ∧ OperandsFit (hostDoes [.writeCmd 2] onBus) ∧
    ∃ t, step (hostDoes [.writeCmd 2] onBus) = .next t := by
  refine ⟨⟨rfl, fun c hc hv => ?_⟩, fun r => ?_, ⟨_, rfl⟩⟩
  · simp only [hostDoes, onBus, List.mem_cons, List.not_mem_nil, or_false] at hc
    rcases hc with rfl | rfl
    · exact bus_legal
    · exact absurd hv (by decide)
  · cases r <;> decide

theorem witness_StepKeepsIdleQuiet :
    Quiet onBus ∧ (∃ t, step onBus = .next t) ∧ Quiet { writing with engine := some (.usleep 5) } ∧
    ∃ t, step { writing with engine := some (.usleep 5) } = .next t :=
  ⟨⟨fun _ => rfl, fun _ => rfl, fun _ => rfl, fun _ => rfl, .inl rfl⟩, ⟨_, rfl⟩,
    ⟨nofun, nofun, nofun, nofun, .inr rfl⟩, ⟨_, rfl⟩⟩

theorem witness_SpinNeverFails : NoFailureUnderSpin onBus ∧ onBus.cfg.strategy = .spin ∧ ∃ t, step onBus = .next t :=
  ⟨fun _ => ⟨rfl, by decide⟩, rfl, ⟨_, rfl⟩⟩

theorem witness_ResetHasTheInvariants : Config.standard.wf = true := by decide

theorem witness_LaunchBeginsARunningTransfer :
    TransferReady bus (calm .sleep) ∧ (calm .sleep).buf.allWritten ((calm .sleep).reg .aSize) = true ∧
    (calm .sleep).cfg.hasReadLevel = true := ⟨calm_ready _, by decide, rfl⟩

/-- The bus of S8 in the last bit of a one-byte WRITE, and in its abort. -/
theorem witness_RunningTransferNeverStops :
    TransferRunning bus { writing with seq := ⟨.dAct, 0, 7⟩ } ∧
    TransferRunning bus
      { writing with abortKind := .copyFault, seq := ⟨.abortCs, 0, 1⟩, port := [encode (.pinset 10 high)] } :=
  ⟨⟨rfl, rfl, rfl, rfl, by decide, ⟨⟨rfl, rfl⟩, ⟨rfl, rfl⟩, ⟨rfl, rfl⟩, ⟨rfl, rfl⟩⟩, nofun, rfl, by decide,
      fun _ => by decide, fun _ => by decide, ⟨1, rfl⟩⟩,
    ⟨rfl, rfl, rfl, rfl, by decide, ⟨⟨rfl, rfl⟩, ⟨rfl, rfl⟩, ⟨rfl, rfl⟩, ⟨rfl, rfl⟩⟩, nofun, rfl, by decide,
      nofun, fun _ => by decide, ⟨0, rfl⟩⟩⟩

/-- A running WRITE, and the launches of all six commands. -/
theorem witness_TheHoldAlwaysLifts :
    TransferRunning bus { writing with seq := ⟨.dAct, 0, 7⟩ } ∧
    (∀ s ∈ [fresh, onBus], Ready s ∧ s.cfg.wf = true ∧ s.ctx.length = s.cfg.nBus ∧ s.reg .aDur < 2 ^ durW ∧
      ∀ r ∈ [RegName.aMosi, .aMiso, .aClk, .aCs], pinExists s.cfg (s.reg r) = true) ∧
    (∃ t, exec .construct fresh = .next t) ∧ (∃ t, exec .waitns fresh = .next t) ∧
    (∃ t, exec .write onBus = .next t) ∧ (∃ t, exec .read onBus = .next t) ∧ TransferReady bus (calm .spin) ∧
    (let s := withReg .aBus 1 (withReg .aCs 9 (withReg .aDur 3 onBus));
      Ready s ∧ s.cfg.wf = true ∧ s.ctx.length = s.cfg.nBus ∧ pinExists s.cfg (s.reg .aCs) = true ∧
      (∃ t, exec .derive s = .next t) ∧ ∃ t, exec .waitms s = .next t) := by
  simp only [List.forall_mem_cons]
  exact ⟨witness_RunningTransferNeverStops.1,
    ⟨⟨⟨rfl, rfl, rfl, rfl⟩, by decide⟩, ⟨⟨rfl, rfl, rfl, rfl⟩, by decide⟩, by simp⟩,
    ⟨_, rfl⟩, ⟨_, rfl⟩, ⟨_, rfl⟩, ⟨_, rfl⟩, calm_ready _,
    ⟨rfl, rfl, rfl, rfl⟩, by decide, rfl, by decide, ⟨_, rfl⟩, ⟨_, rfl⟩⟩

/-- A WRITE whose first wait is interrupted, to its end. -/
theorem witness_ChipSelectIsReleasedOnEveryExit :
    let s := withReg .aSize 1 { onBus with
      cfg := { onBus.cfg with strategy := .sleep }, outcomesIn := [.interruptedBySignal], levelsIn := [] }
    TransferReady bus s ∧ s.hostQueue = [] ∧
    ∃ t u, exec .write s = .next t ∧ Leads t u ∧ u.busy = false ∧ u.err = .interruptedBySignal :=
  ⟨ready_on_bus 1 (by decide) .sleep _ _, rfl, ⟨_, _, rfl, ⟨7, rfl⟩, rfl, rfl⟩⟩

theorem witness_TransfersTouchOnlyTheirBytes :
    TransferReady bus (calm .spin) ∧ (calm .spin).hostQueue = [] ∧
    (∃ t, exec .write (calm .spin) = .next t ∧ Leads t t) ∧ (∃ t, exec .read (calm .spin) = .next t ∧ Leads t t) :=
  ⟨calm_ready _, rfl, ⟨_, rfl, ⟨0, rfl⟩⟩, ⟨_, rfl, ⟨0, rfl⟩⟩⟩

/-- A register that holds a value and one that holds none; a written byte, an unwritten one, and one that is none. -/
theorem witness_HostReadsAreAnswered :
    (let s := hostDoes [.readReg .aSpeed] State.reset;
      s.busy = false ∧ s.resetLine = false ∧ s.hostQueue = .readReg .aSpeed :: [] ∧ s.written .aSpeed = true ∧
      State.reset.written .aMode = false) ∧
    onBus.buf.read 0 = some 0x55#8 ∧ onBus.buf.read 255 = none ∧ 255 < onBus.cfg.bufLen ∧ onBus.cfg.bufLen ≤ 256 := by
  decide

theorem witness_SpinTakesTheDefaultCount :
    Config.standard.strategy = .spin ∧ Config.standard.spinModel = .ceilFormula := by decide

/-- A WAIT that ends ok, one that fails, one under SPIN, and one whose outcome is a free value. -/
theorem witness_WaitTakesItsOwnOutcome :
    (∃ t, exec (.wait 250) (sleeping [.ok] onBus) = .next t) ∧
    (∃ t, exec (.wait 250) (sleeping [.copyFault] writing) = .next t) ∧
    (∃ t, exec (.wait 250) onBus = .next t) ∧
    (∃ t, exec (.wait 250) (sleeping [] onBus) = .next t) := by
  refine ⟨⟨_, rfl⟩, ⟨_, rfl⟩, ⟨_, rfl⟩, ?_⟩
  simp only [exec, execWait_settles, settleWait]
  split
  · exact ⟨_, rfl⟩
  · exact ⟨_, takeTimingError_other rfl⟩

end Sys2Proof.Tests
end

section
/-! PROOFS, what every step keeps: the kinds of step there are, said once, and the invariants of the state read off it. -/

namespace Sys2Proof.Machine

/-! Steps of the host, as equations. -/

/-- A step of a free host whose next action runs no instruction answers what the action does. -/
theorem step_host {s : State} {a : HostAction} {rest : List HostAction} {r : Res} (hr : s.resetLine = false)
    (hb : s.busy = false) (hq : s.hostQueue = a :: rest) (ha : hostTurn a { s with hostQueue := rest } = .done r) :
    step s = r := by
  simp only [step, nextTurn_idle hr hb, idleTurn, hq, ha]

/-- A step of a free host that writes a command to CMD launches it. -/
theorem step_command {s : State} {w : Nat} {rest : List HostAction} {i : Instr} (hr : s.resetLine = false)
    (hb : s.busy = false) (hq : s.hostQueue = .writeCmd w :: rest) (hd : decode .cmd w = .ok i) :
    step s = exec i { s with hostQueue := rest } := by
  simp only [step, nextTurn_idle hr hb, idleTurn, hq, hostTurn, hd]

/-- A controller whose host does nothing waits (`10_state.md` R32). -/
theorem step_rest {s : State} (hr : s.resetLine = false) (hb : s.busy = false) (hq : s.hostQueue = []) :
    step s = .next s := by
  simp only [step, nextTurn_idle hr hb, idleTurn, hq]

/-! The kinds of step. -/

/-- The kinds of step a state can make, by the agent whose turn it is (`00_scope.md` R9), each with its conditions and
the state it leaves. -/
inductive StepKind (s : State) : State → Prop
  | reset (hr : s.resetLine = true) : StepKind s (resetNow s)
  | endOfWait {t : State} {r : EngineReq} (hb : s.busy = true) (he : s.engine = some r)
      (h : finishWait s = .next t) : StepKind s t
  | answer {c : Context} (b : Byte) (hb : s.busy = true) (he : s.engine = none)
      (hc : s.ctx[s.tBus]? = some c) : StepKind s { s with answer := none, curByte := b }
  | request {t : State} {i : Instr} {rest : List Nat} (hb : s.busy = true) (he : s.engine = none)
      (ha : s.answer = none) (hi : i.format = .req) (h : exec i { s with port := rest } = .next t) : StepKind s t
  | advance {t : State} (hb : s.busy = true) (he : s.engine = none) (ha : s.answer = none) (hp : s.port = [])
      (h : advance s = .next t) : StepKind s t
  | idle (hb : s.busy = false) : StepKind s s
  | writeReg {r : RegName} {v : Nat} (rest : List HostAction) (hb : s.busy = false)
      (hv : v < 2 ^ regWidth s.cfg r) : StepKind s { s with hostQueue := rest, x := s.x.set r ⟨v, true⟩ }
  | writeBuf {i : Nat} (b : Byte) (rest : List HostAction) (hb : s.busy = false) (hi : i < s.cfg.bufLen) :
      StepKind s { s with hostQueue := rest, buf := s.buf.write i b }
  | command {t : State} {i : Instr} {rest : List HostAction} (w : Nat) (hb : s.busy = false)
      (hq : s.hostQueue = .writeCmd w :: rest) (hd : decode .cmd w = .ok i)
      (h : exec i { s with hostQueue := rest } = .next t) : StepKind s t
  | hostRead (v : Option Nat) (rest : List HostAction) (hb : s.busy = false) :
      StepKind s (answerHost v { s with hostQueue := rest })

/-- Every step that answers a next state is of one of the kinds. -/
theorem stepKind_of_step {s t : State} (h : step s = .next t) : StepKind s t := by
  cases hr : s.resetLine with
  | true =>
    obtain ⟨-, rfl⟩ := step_reset_next hr h
    exact .reset hr
  | false =>
    cases hb : s.busy with
    | true =>
      rcases step_busy_next hr hb h with ⟨⟨r, he⟩, h⟩ | ⟨he, l, -, h⟩ | ⟨he, ha, w, rest, i, -, hd, h⟩ | ⟨he, ha, hp, h⟩
      · exact .endOfWait hb he h
      · obtain ⟨c, b, hc, -, -, rfl⟩ := takeAnswer_next h
        exact .answer b hb he hc
      · exact .request hb he ha (decode_req_format hd) h
      · exact .advance hb he ha hp h
    | false =>
      rcases step_idle_next hr hb h with ⟨-, rfl⟩ | ⟨rest, ⟨r, v, -, hv, rfl⟩ | ⟨i, b, -, hi, rfl⟩ |
        ⟨w, i, hq, hd, h⟩ | ⟨v, rfl⟩⟩
      · exact .idle hb
      · exact .writeReg rest hb hv
      · exact .writeBuf b rest hb hi
      · exact .command w hb hq hd h
      · exact .hostRead v rest hb

/-! What the sequencer's step to the next phase leaves alone. -/

/-- The step to the next phase keeps the parameters, the bank, the operands, the pins, the running command's opcode and
size, and the host's side; only a READ at the end of a byte changes the buffer, in the byte at its index (`43_read.md`
R99); and either the command ends or it goes on. -/
theorem advance_changes {s t : State} (h : advance s = .next t) :
    t.cfg = s.cfg ∧ t.ctx = s.ctx ∧ t.x = s.x ∧ t.dirs = s.dirs ∧ t.outs = s.outs ∧ t.engine = s.engine ∧
    t.answer = s.answer ∧ t.tOp = s.tOp ∧ t.tSize = s.tSize ∧ t.hostQueue = s.hostQueue ∧
    t.resetLine = s.resetLine ∧
    (t.buf = s.buf ∨ s.tOp = .read ∧ s.seq.phase = .dAct ∧ s.seq.byteIdx < s.cfg.bufLen ∧
      t.buf = s.buf.write s.seq.byteIdx s.curByte) ∧
    (t.busy = false ∧ t.seq.phase = .idle ∧ t.port = s.port ∨ t.busy = s.busy ∧ t.seq.phase ≠ .abortCs) := by
  rcases advance_next h with ⟨-, rfl⟩ | ⟨-, rfl⟩ | ⟨c, q, b, m, -, -, hq, hm, rfl⟩
  · simp
  · simp
  · have hm' : m = s.buf ∨ s.tOp = .read ∧ s.seq.phase = .dAct ∧ s.seq.byteIdx < s.cfg.bufLen ∧
        m = s.buf.write s.seq.byteIdx s.curByte := by tauto
    simpa [hq] using hm'

/-! O41: the parameters. -/

/-- Settles O41: each kind of step leaves the parameters as they are. -/
theorem noStepChangesTheConfiguration : Obligations.NoStepChangesTheConfiguration := by
  intro s t h
  cases stepKind_of_step h with
  | endOfWait _ _ h => exact (finishWait_changes h).1
  | request _ _ _ hi h => exact (micro_changes hi h).1
  | advance _ _ _ _ h => exact (advance_changes h).1
  | command _ _ _ hd h => exact (command_changes (decode_cmd_format hd) h).1
  | reset | answer | idle | writeReg | writeBuf | hostRead => rfl

/-! O44: the buffer and the pin maps. -/

/-- The maps' canonical form speaks of the buffer, the pin maps and `BUF_LEN` only. -/
theorem MapsCanonical.of_pins {s t : State} (hs : MapsCanonical s) (hc : t.cfg = s.cfg) (hb : t.buf = s.buf)
    (hd : assocRising s.dirs = true → assocRising t.dirs = true)
    (ho : assocRising s.outs = true → assocRising t.outs = true) : MapsCanonical t where
  buf := hb ▸ hs.buf
  inBuf := by rw [hb, hc]; exact hs.inBuf
  dirs := hd hs.dirs
  outs := ho hs.outs

/-- A store into a byte that exists keeps the maps canonical. -/
theorem MapsCanonical.of_store {s t : State} {i : Nat} {b : Byte} (hs : MapsCanonical s) (hc : t.cfg = s.cfg)
    (hi : i < s.cfg.bufLen) (hb : t.buf = s.buf.write i b) (hd : t.dirs = s.dirs) (ho : t.outs = s.outs) :
    MapsCanonical t where
  buf := hb ▸ s.buf.wf_write i b hs.buf
  inBuf := by
    rw [hb, hc]
    intro cell hcell
    rcases mem_assocSet hcell with rfl | hcell
    · exact hi
    · exact hs.inBuf cell hcell
  dirs := hd ▸ hs.dirs
  outs := ho ▸ hs.outs

/-- No map holds anything after reset (`10_state.md` R32). -/
theorem resetOf_mapsCanonical (cfg : Config) : MapsCanonical (State.resetOf cfg) :=
  ⟨Memory.wf_nil, by simp [State.resetOf], rfl, rfl⟩

/-- Settles O44: a pin map changes by `assocSet` only, and the buffer by the stores of the host and of a READ, into bytes
that exist. -/
theorem stepKeepsMapsCanonical : Obligations.StepKeepsMapsCanonical := by
  intro s t hs h
  cases stepKind_of_step h with
  | reset => exact (resetOf_mapsCanonical s.cfg).of_pins rfl rfl id id
  | endOfWait _ _ h =>
    obtain ⟨hc, -, -, hb, -, -, hd, ho, -⟩ := finishWait_changes h
    exact hs.of_pins hc hb (hd ▸ id) (ho ▸ id)
  | request _ _ _ hi h =>
    obtain ⟨hc, -, -, hb, -, -, -, -, -, -, hd, ho, -⟩ := micro_changes hi h
    exact hs.of_pins hc hb hd ho
  | advance _ _ _ _ h =>
    obtain ⟨hc, -, -, hd, ho, -, -, -, -, -, -, hb | ⟨-, -, hi, hb⟩, -⟩ := advance_changes h
    · exact hs.of_pins hc hb (hd ▸ id) (ho ▸ id)
    · exact hs.of_store hc hi hb hd ho
  | writeBuf b _ _ hi => exact hs.of_store rfl hi rfl rfl rfl
  | command _ _ _ hd h =>
    obtain ⟨hc, -, hb, hd, ho, -⟩ := command_changes (decode_cmd_format hd) h
    exact hs.of_pins hc hb (hd ▸ id) (ho ▸ id)
  | answer | idle | writeReg | hostRead => exact hs.of_pins rfl rfl id id

/-! O43 and O45: the context bank and the operand registers. -/

/-- The context a launch of CONSTRUCT or DERIVE that nothing refuses writes at `A_BUS` (`44_bus_facade.md` R113,
R118). -/
inductive Writes (s : State) : Context → Prop
  | construct (hr : constructRefusal s = none) : Writes s (constructContext s)
  | derive {src : Context} (hr : deriveRefusal s = none) (hs : s.ctx[s.reg .aSrc]? = some src) :
      Writes s (deriveContext src (s.reg .aCs))

/-- A step without reset changes the bank and the operand registers in one of two ways: the host writes a register, or
it launches CONSTRUCT or DERIVE, which writes the context at `A_BUS`. -/
theorem step_bank {s t : State} (h : step s = .next t) (hr : s.resetLine = false) :
    (t.ctx = s.ctx ∧ (t.x = s.x ∨ ∃ r v, v < 2 ^ regWidth s.cfg r ∧ t.x = s.x.set r ⟨v, true⟩)) ∨
    (t.x = s.x ∧ s.busy = false ∧ (∃ w rest, s.hostQueue = .writeCmd w :: rest ∧ (w = 0 ∨ w = 1)) ∧
      ∃ c, Writes s c ∧ t.ctx = s.ctx.set (s.reg .aBus) c) := by
  cases stepKind_of_step h with
  | reset hr' => simp [hr] at hr'
  | endOfWait _ _ h =>
    obtain ⟨-, hc, hx, -⟩ := finishWait_changes h
    exact .inl ⟨hc, .inl hx⟩
  | request _ _ _ hi h =>
    obtain ⟨-, hc, hx, -⟩ := micro_changes hi h
    exact .inl ⟨hc, .inl hx⟩
  | advance _ _ _ _ h =>
    obtain ⟨-, hc, hx, -⟩ := advance_changes h
    exact .inl ⟨hc, .inl hx⟩
  | writeReg _ _ hv => exact .inl ⟨rfl, .inr ⟨_, _, hv, rfl⟩⟩
  | command w hb hq hd h =>
    obtain ⟨-, hx, -, -, -, -, -, -, -, -, hc | ⟨rfl, hn, hc⟩ | ⟨rfl, hn, src, hs, hc⟩⟩ :=
      command_changes (decode_cmd_format hd) h
    · exact .inl ⟨hc, .inl hx⟩
    · have hw : w = 0 := by simpa using decode_cmd_command hd
      exact .inr ⟨hx, hb, ⟨_, _, hq, .inl hw⟩, _, .construct hn, hc⟩
    · have hw : w = 1 := by simpa using decode_cmd_command hd
      exact .inr ⟨hx, hb, ⟨_, _, hq, .inr hw⟩, _, .derive hn hs, hc⟩
  | answer | idle | writeBuf | hostRead => exact .inl ⟨rfl, .inl rfl⟩

/-- Settles O43: of the two ways the bank and the registers change, one leaves the bank alone. -/
theorem onlyConstructAndDeriveChangeContexts : Obligations.OnlyConstructAndDeriveChangeContexts := by
  intro s t h hne hr
  rcases step_bank h hr with ⟨hc, -⟩ | ⟨-, hb, hq, c, -, hc⟩
  · exact absurd hc hne
  · refine ⟨hb, hq, fun b hne => ?_⟩
    rw [hc, List.getElem?_set_ne hne.symm]

/-- The context CONSTRUCT writes is legal: its refusals bound the frequency and tell the pins apart, and the registers
bound the pins (`44_bus_facade.md` R116, `10_state.md` R22). -/
theorem constructContext_legal {s : State} (hr : constructRefusal s = none) (hx : OperandsFit s) :
    (constructContext s).Legal s.cfg := by
  obtain ⟨-, -, -, -, hf, hm, hp⟩ := constructRefusal_none hr
  exact ⟨hf, hm, hp, decide_eq_true (hx .aMosi), decide_eq_true (hx .aMiso), decide_eq_true (hx .aClk),
    decide_eq_true (hx .aCs)⟩

/-- A legal context keeps its pins different when its chip-select becomes a pin it does not have (R121). -/
theorem deriveContext_legal {cfg : Config} {src : Context} {cs : Pin} (hs : src.Legal cfg)
    (hn : src.hasPin cs = false) (hf : Pin.fits cfg cs = true) : (deriveContext src cs).Legal cfg where
  freqPositive := hs.freqPositive
  freqBounded := hs.freqBounded
  pinsDiffer := by
    have hp := hs.pinsDiffer
    simp only [pinsDiffer, Context.hasPin, deriveContext, Bool.and_eq_true, bne_iff_ne, Bool.or_eq_false_iff,
      beq_eq_false_iff_ne] at hp hn ⊢
    tauto
  mosiFits := hs.mosiFits
  misoFits := hs.misoFits
  clkFits := hs.clkFits
  csFits := hf

/-- What CONSTRUCT and DERIVE write over a legal bank is legal. -/
theorem Writes.legal {s : State} {c : Context} (h : Writes s c) (hb : BankLegal s) (hx : OperandsFit s) :
    c.Legal s.cfg := by
  cases h with
  | construct hr => exact constructContext_legal hr hx
  | derive hr hs =>
    obtain ⟨-, -, -, -, src, hs', hv, hn⟩ := deriveRefusal_none hr
    obtain rfl := Option.some.inj (hs.symm.trans hs')
    exact deriveContext_legal (hb.legal _ (List.mem_of_getElem? hs) hv) hn (decide_eq_true (hx .aCs))

/-- The bank's invariant speaks of the bank and the parameters only. -/
theorem BankLegal.of_eq {s t : State} (hs : BankLegal s) (hcfg : t.cfg = s.cfg) (hctx : t.ctx = s.ctx) :
    BankLegal t where
  size := by rw [hctx, hcfg, hs.size]
  legal := by rw [hctx, hcfg]; exact hs.legal

/-- A legal context written into the bank keeps the bank legal. -/
theorem BankLegal.of_set {s t : State} {b : Nat} {c : Context} (hs : BankLegal s) (hc : c.Legal s.cfg)
    (hcfg : t.cfg = s.cfg) (hctx : t.ctx = s.ctx.set b c) : BankLegal t where
  size := by rw [hctx, hcfg, List.length_set, hs.size]
  legal := by
    rw [hctx, hcfg]
    intro c' hmem hv
    rcases List.mem_or_eq_of_mem_set hmem with hmem | rfl
    · exact hs.legal c' hmem hv
    · exact hc

/-- The registers' invariant speaks of the registers and the parameters only. -/
theorem OperandsFit.of_eq {s t : State} (hs : OperandsFit s) (hcfg : t.cfg = s.cfg) (hx : t.x = s.x) :
    OperandsFit t := by
  intro r
  rw [State.reg, hcfg, hx]
  exact hs r

/-- A value that fits, written to a register, keeps every register in its width. -/
theorem OperandsFit.of_set {s t : State} {r : RegName} {v : Nat} (hs : OperandsFit s)
    (hv : v < 2 ^ regWidth s.cfg r) (hcfg : t.cfg = s.cfg) (hx : t.x = s.x.set r ⟨v, true⟩) : OperandsFit t := by
  intro q
  rw [State.reg, hcfg, hx]
  by_cases hq : q = r
  · subst hq
    simpa using hv
  · rw [Operands.get_set_other _ hq]
    exact hs q

/-- After reset no context is valid, so the bank is legal (`10_state.md` R32). -/
theorem resetOf_bankLegal (cfg : Config) : BankLegal (State.resetOf cfg) where
  size := List.length_replicate
  legal c hmem hv := by
    rw [List.eq_of_mem_replicate hmem] at hv
    cases hv

/-- The values of R32 fit their registers, and so do the contents 0 of the registers that hold none. -/
theorem resetOf_operandsFit (cfg : Config) : OperandsFit (State.resetOf cfg) := by
  intro r
  cases r
  case aSpeed => exact (by decide : 1000000 < 2 ^ 32)
  all_goals exact Nat.two_pow_pos _

/-- Settles O45: reset empties the bank, a write of the host fits its register, and what CONSTRUCT and DERIVE write is
legal because the registers fit. -/
theorem stepKeepsTheBankLegal : Obligations.StepKeepsTheBankLegal := by
  intro s t hb hx h
  have hcfg := noStepChangesTheConfiguration s t h
  cases hr : s.resetLine with
  | true =>
    obtain ⟨-, rfl⟩ := step_reset_next hr h
    exact ⟨(resetOf_bankLegal s.cfg).of_eq rfl rfl, (resetOf_operandsFit s.cfg).of_eq rfl rfl⟩
  | false =>
    rcases step_bank h hr with ⟨hctx, hx' | ⟨r, v, hv, hx'⟩⟩ | ⟨hx', -, -, c, hw, hctx⟩
    · exact ⟨hb.of_eq hcfg hctx, hx.of_eq hcfg hx'⟩
    · exact ⟨hb.of_eq hcfg hctx, hx.of_set hv hcfg hx'⟩
    · exact ⟨hb.of_set (hw.legal hb hx) hcfg hctx, hx.of_eq hcfg hx'⟩

/-! O46: what is in progress. -/

/-- A running command with at most one of a wait and an answer pending is quiet in the invariant's sense. -/
theorem Quiet.of_busy {s : State} (hb : s.busy = true) (h : s.engine = none ∨ s.answer = none) : Quiet s := by
  constructor <;> simp [hb, h]

/-- An idle sequencer with nothing in progress is quiet. -/
theorem Quiet.of_idle {s : State} (hq : s.seq.phase = .idle) (hp : s.port = []) (he : s.engine = none)
    (ha : s.answer = none) : Quiet s :=
  ⟨fun _ => hq, fun _ => hp, fun _ => he, fun _ => ha, .inl he⟩

/-- The invariant of a free controller carries over to a state that differs in what the host can change. -/
theorem Quiet.of_free {s t : State} (hs : Quiet s) (hb : s.busy = false) (hq : t.seq = s.seq) (hp : t.port = s.port)
    (he : t.engine = s.engine) (ha : t.answer = s.answer) : Quiet t :=
  .of_idle (hq ▸ hs.phase hb) (hp.trans (hs.port hb)) (he.trans (hs.engine hb)) (ha.trans (hs.answer hb))

/-- Settles O46: a command that ends leaves the sequencer idle and the port empty, and it ends only where no wait and no
answer is left; that a wait and an answer never stand together is what makes it so at a WAITMS that fails. -/
theorem stepKeepsIdleQuiet : Obligations.StepKeepsIdleQuiet := by
  intro s t hs h
  cases stepKind_of_step h with
  | reset => exact .of_idle rfl rfl rfl rfl
  | endOfWait hb he h =>
    have ha : s.answer = none := hs.oneAgent.resolve_left (by simp [he])
    obtain ⟨-, -, -, -, -, -, -, -, he', ha', hend⟩ := finishWait_changes h
    rcases hend with ⟨hb', -⟩ | ⟨-, ⟨-, hq, hp⟩ | ⟨-, hb', -⟩⟩
    · exact .of_busy (hb'.trans hb) (.inl he')
    · exact .of_idle hq hp he' (ha'.trans ha)
    · exact .of_busy hb' (.inl he')
  | answer _ hb he => exact .of_busy hb (.inl he)
  | request hb he ha hi h =>
    obtain ⟨-, -, -, -, -, -, -, -, -, -, -, -, hend⟩ := micro_changes hi h
    rcases hend with ⟨hb', -, -, -, hone⟩ | ⟨-, he', ha', ⟨-, hq, hp⟩ | ⟨-, hb', -⟩⟩
    · have he' : t.engine = none := hone.elim (·.1) (·.trans he)
      exact .of_busy (hb'.trans hb) (.inl he')
    · exact .of_idle hq hp he' (ha'.trans ha)
    · exact .of_busy hb' (.inl he')
  | advance hb he ha hp h =>
    obtain ⟨-, -, -, -, -, he', ha', -, -, -, -, -, hend⟩ := advance_changes h
    rcases hend with ⟨-, hq, hp'⟩ | ⟨hb', -⟩
    · exact .of_idle hq (hp'.trans hp) (he'.trans he) (ha'.trans ha)
    · exact .of_busy (hb'.trans hb) (.inl (he'.trans he))
  | command _ hb _ hd h =>
    obtain ⟨-, -, -, -, -, -, hb', ha', -⟩ := command_changes (decode_cmd_format hd) h
    exact .of_busy hb' (.inr (ha'.trans (hs.answer hb)))
  | idle => exact hs
  | writeReg _ hb | writeBuf _ _ hb | hostRead _ _ hb => exact hs.of_free hb rfl rfl rfl rfl

end Sys2Proof.Machine
end

section
/-! PROOFS, single turns: what a free host's actions do, what a WAIT takes from the environment, which commands an unwritten
operand refuses, and what holds right after reset. -/

namespace Sys2Proof.Machine

/-- Settles O5: the two ports a step decodes a word from. -/
theorem stepRunsTheDecodedInstruction : Obligations.StepRunsTheDecodedInstruction :=
  ⟨fun _ _ _ _ hr hb he ha hp hd => step_request hr hb he ha hp hd,
    fun _ _ _ _ hr hb hq hd => step_command hr hb hq hd⟩

/-- Settles O6: the turn of a host with nothing to do. -/
theorem idleControllerWaits : Obligations.IdleControllerWaits :=
  fun _ hr hb hq => step_rest hr hb hq

/-! The host's reads and writes. -/

/-- Settles O38: the host's write replaces one register of the file. -/
theorem hostWritesARegister : Obligations.HostWritesARegister := by
  intro s r v rest hb hr hq hv
  refine ⟨{ s with hostQueue := rest, x := s.x.set r ⟨v, true⟩ }, ?_, ?_, ?_, fun q hne => ?_, rfl⟩
  · exact (step_host hr hb hq rfl).trans (if_pos hv)
  · simp [State.reg]
  · simp [State.written]
  · simp [State.reg, State.written, Operands.get_set_other _ hne]

/-- Settles O39: the host's store is `storeBuf`, which asks whether the byte exists (`20_memory.md` R33). -/
theorem hostWritesABufferByte : Obligations.HostWritesABufferByte := by
  intro s i b rest hb hr hq
  have hstep : step s = storeBuf i b { s with hostQueue := rest } := step_host hr hb hq rfl
  refine ⟨fun hi => ?_, fun hi => hstep.trans (if_neg (Nat.not_lt.2 hi))⟩
  exact ⟨{ s with hostQueue := rest, buf := s.buf.write i b }, hstep.trans (if_pos hi), Memory.read_write_self _ _ _,
    fun k hk => Memory.read_write_other b hk, rfl⟩

/-- Settles O54: what a register or a byte that holds no value answers is nothing (`10_state.md` R23). -/
theorem hostReadsAreAnswered : Obligations.HostReadsAreAnswered := by
  intro s rest hb hr
  refine ⟨fun r hq => ?_, fun i hq => ?_⟩
  · exact ⟨answerHost (if s.written r then some (s.reg r) else none) { s with hostQueue := rest }, _,
      step_host hr hb hq rfl, rfl, fun hw => if_pos hw, fun hw => if_neg (by simp [hw]), rfl⟩
  · have hstep : step s = hostReadBuf i { s with hostQueue := rest } := step_host hr hb hq rfl
    refine ⟨fun hi => ?_, fun hi => hstep.trans (if_neg (Nat.not_lt.2 hi))⟩
    exact ⟨answerHost ((s.buf.read i).map BitVec.toNat) { s with hostQueue := rest }, _, hstep.trans (if_pos hi), rfl,
      fun b hr => by rw [hr]; rfl, fun hr => by rw [hr]; rfl, rfl⟩

/-- STATUS of a free controller is twice the code of ERR: BUSY, bit 0, is 0 (`10_state.md` R25). -/
theorem statusWord_free {s : State} (hb : s.busy = false) : (statusWord s).toNat = 2 * (errCode s.err).toNat := by
  rw [statusWord, hb]
  cases s.err <;> rfl

theorem errCode_toNat (e : WaitOutcome) :
    ((errCode e).toNat = 0 ↔ e = .ok) ∧ ((errCode e).toNat = 1 ↔ e = .interruptedBySignal) ∧
    ((errCode e).toNat = 2 ↔ e = .invalidDuration) ∧ ((errCode e).toNat = 3 ↔ e = .copyFault) ∧
    (errCode e).toNat ≤ 3 := by
  cases e <;> decide

/-- Settles O40: each outcome has its own code (`30_encoding.md` R54). -/
theorem statusWordLayout : Obligations.StatusWordLayout := by
  intro s rest hb hr hq
  refine ⟨answerHost (some (statusWord s).toNat) { s with hostQueue := rest }, (errCode s.err).toNat,
    step_host hr hb hq rfl, by rw [← statusWord_free hb]; rfl, ?_⟩
  obtain ⟨h0, h1, h2, h3, hle⟩ := errCode_toNat s.err
  exact ⟨h0, h1, h2, h3, hle, rfl⟩

/-! The outcome of a WAIT. -/

/-- Settling a wait, TimingError included, records nothing and takes nothing from the environment. -/
theorem settleWait_records {o : WaitOutcome} {s t : State} (h : settleWait o s = .next t) :
    t.engineLog = s.engineLog ∧ t.trace = s.trace ∧ t.levelsIn = s.levelsIn ∧ t.outcomesIn = s.outcomesIn ∧
    t.draws = s.draws := by
  rcases settleWait_next h with ⟨-, rfl⟩ | ⟨-, h⟩
  · exact ⟨rfl, rfl, rfl, rfl, rfl⟩
  · rcases takeTimingError_next h with ⟨-, c, -, rfl⟩ | ⟨-, rfl⟩ <;> exact ⟨rfl, rfl, rfl, rfl, rfl⟩

/-- Settles O56: WAIT asks the engine once, and what the engine takes is the strategy's (`41_delay_engine.md` R73,
R75). -/
theorem waitTakesItsOwnOutcome : Obligations.WaitTakesItsOwnOutcome := by
  intro s t d h
  obtain ⟨hlog, htrace, hlevels, houtcomes, hdraws⟩ := settleWait_records ((execWait_settles d s).symm.trans h)
  refine ⟨hlog, htrace, hlevels, fun hs => ?_, fun o rest hs ho => ?_, fun hs ho => ?_⟩
  · rw [houtcomes, hdraws, engineOutcome_spin hs]
    exact ⟨rfl, rfl, rfl⟩
  · rw [houtcomes, hdraws, engineOutcome_sleep hs ho]
    exact ⟨rfl, rfl, rfl⟩
  · rw [houtcomes, hdraws, engineOutcome_drawn hs, drawOutcome_free ho]
    exact ⟨ho, rfl⟩

/-! Operands that hold no value. -/

theorem exec_waitns_refused {s : State} {r : Refusal} (h : (true, r) ∈ readsOperands [.aDur] s) :
    Refuses .waitns s := by
  simp only [Refuses, exec, execWaitNs]
  exact launchCommand_refused (firstRefusal_some_of_mem h)

theorem exec_waitms_refused {s : State} {r : Refusal}
    (h : (true, r) ∈ readsOperands [.aDur] s ++
      [(decide (maxMilliseconds < s.reg .aDur), .durationTooLarge)]) : Refuses .waitms s := by
  simp only [Refuses, exec, execWaitMs]
  exact launchCommand_refused (firstRefusal_some_of_mem h)

/-- Settles O21: every command's list of refusals begins with the registers it reads (`30_encoding.md` R49). -/
theorem unwrittenOperandIsRefused : Obligations.UnwrittenOperandIsRefused := by
  intro s
  refine ⟨fun r hr hw => ?_, fun r hr hw => ?_, fun r hr hw => ?_, fun hw => ?_⟩
  · exact exec_construct_refused (List.mem_append_left _ (mem_readsOperands hr hw))
  · exact exec_derive_refused (List.mem_append_left _ (mem_readsOperands hr hw))
  · have hmem : (true, Refusal.operandUnwritten r) ∈ transferRefusals s :=
      List.mem_append_left _ (mem_readsOperands hr hw)
    exact ⟨exec_write_refused (List.mem_append_left _ hmem), exec_read_refused (List.mem_append_left _ hmem)⟩
  · have hmem := mem_readsOperands (List.mem_singleton_self RegName.aDur) hw
    exact ⟨exec_waitns_refused hmem, exec_waitms_refused (List.mem_append_left _ hmem)⟩

/-! The state after reset. -/

/-- Settles O36: the fields of `State.resetOf`, read against the table of R32. -/
theorem resetValues : Obligations.ResetValues := by
  intro cfg
  refine ⟨_, rfl, List.length_replicate, fun c hmem => ?_, ?_, rfl, rfl, ?_, rfl, rfl, rfl, fun _ => rfl,
    fun _ => ⟨rfl, rfl⟩, rfl⟩
  · rw [List.eq_of_mem_replicate hmem]
    rfl
  · simp [State.written, State.reg, State.resetOf, Operands.reset, Operands.get]
  · simp [State.written, State.resetOf, Operands.reset, Operands.get, OpReg.unspecified]

/-- Settles O48: nothing is valid, pending, listed or failed after reset, whatever the parameters. -/
theorem resetHasTheInvariants : Obligations.ResetHasTheInvariants := by
  intro cfg _
  exact ⟨resetOf_mapsCanonical cfg, resetOf_bankLegal cfg, resetOf_operandsFit cfg, .of_idle rfl rfl rfl rfl,
    fun _ => ⟨rfl, by simp [State.resetOf]⟩⟩

end Sys2Proof.Machine
end

section
/-! PROOFS, the buffer in a transaction: the byte index stays below the size through the bit loop, so a READ stores below
it only. -/

namespace Sys2Proof.Machine

/-! The byte index. -/

/-- In the bit loop the byte index is below the size of the transaction (`42_write.md` R91). -/
def IndexBelowSize (s : State) : Prop := s.seq.phase.inBit = true → s.seq.byteIdx < s.tSize

theorem IndexBelowSize.of_phase {s : State} (h : s.seq.phase.inBit = false) : IndexBelowSize s :=
  fun hin => absurd hin (by simp [h])

/-- A phase entered inside the bit loop from inside it, or outside it, keeps the index below the size. -/
theorem enterPhase_index {ph : Phase} {s t : State} (h : enterPhase ph s = .next t) (hs : IndexBelowSize s)
    (hph : ph.inBit = true → s.seq.phase.inBit = true) : IndexBelowSize t := by
  obtain ⟨c, -, rfl⟩ := enter_next h
  exact fun hin => hs (hph hin)

theorem startByte_index {i : Nat} {s t : State} (h : startByte i s = .next t) (hi : i < s.tSize) :
    IndexBelowSize t := by
  obtain ⟨c, b, -, -, -, rfl⟩ := startByte_next h
  exact fun _ => hi

/-- The end of a bit: the next one is of the same byte, or the next byte is started only below the size. -/
theorem nextBit_index {s t : State} (h : nextBit s = .next t) (hs : s.seq.byteIdx < s.tSize) : IndexBelowSize t := by
  unfold nextBit at h
  split at h
  · obtain ⟨c, -, rfl⟩ := enter_next h
    exact fun _ => hs
  · obtain ⟨u, -, h⟩ := andThen_eq_next h
    unfold nextByte at h
    split at h
    · exact startByte_index h (by omega)
    · obtain ⟨c, -, rfl⟩ := enter_next h
      exact .of_phase rfl

/-- The step to the next phase keeps the index below the size. -/
theorem advance_index {s t : State} (h : advance s = .next t) (hs : IndexBelowSize s) : IndexBelowSize t := by
  cases hp : s.seq.phase <;> simp only [advance, hp] at h
  case idle => cases h
  case init | dly | guardWait | abortCs => cases h; exact .of_phase rfl
  case csLow =>
    split at h
    · exact startByte_index h ‹_›
    · exact enterPhase_index h hs (by simp [Phase.inBit])
  case dAct => exact nextBit_index h (hs (by simp [hp, Phase.inBit]))
  all_goals exact enterPhase_index h hs (by simp [hp, Phase.inBit])

/-! The buffer. -/

/-- What a run of command `op` of `n` bytes, launched over the buffer `m` with nothing left for the host to do, keeps:
only a READ changes the buffer, and only below `n`. -/
structure KeepsBuffer (op : Opcode) (n : Nat) (m : Memory) (s : State) : Prop where
  noReset : s.resetLine = false
  noHost : s.hostQueue = []
  opcode : s.tOp = op
  size : s.tSize = n
  index : IndexBelowSize s
  write : op ≠ .read → s.buf = m
  above : ∀ i, n ≤ i → s.buf.read i = m.read i

section

variable {op : Opcode} {n : Nat} {m : Memory}

/-- A step that stores nothing keeps it. -/
theorem KeepsBuffer.of_frame {s t : State} (hs : KeepsBuffer op n m s) (hr : t.resetLine = s.resetLine)
    (hq : t.hostQueue = s.hostQueue) (hop : t.tOp = s.tOp) (hn : t.tSize = s.tSize) (hi : IndexBelowSize t)
    (hb : t.buf = s.buf) : KeepsBuffer op n m t :=
  ⟨hr.trans hs.noReset, hq.trans hs.noHost, hop.trans hs.opcode, hn.trans hs.size, hi, hb ▸ hs.write, hb ▸ hs.above⟩

/-- A wait that ends keeps the running command and the reset input. -/
theorem finishWait_command {s t : State} (h : finishWait s = .next t) :
    t.tOp = s.tOp ∧ t.tSize = s.tSize ∧ t.resetLine = s.resetLine := by
  rcases finishWait_next h with ⟨-, rfl⟩ | ⟨-, h⟩
  · simp
  · rcases takeTimingError_next h with ⟨-, c, -, rfl⟩ | ⟨-, rfl⟩ <;> simp

/-- An unmoved sequencer, or one sent to IDLE or to the abort, keeps its index below the size. -/
theorem IndexBelowSize.of_seq {s t : State} (hs : IndexBelowSize s) (hn : t.tSize = s.tSize)
    (hq : t.seq = s.seq ∨ t.seq.phase = .idle ∨ t.seq.phase = .abortCs) : IndexBelowSize t := by
  rcases hq with hq | hq | hq
  · rw [IndexBelowSize, hq, hn]
    exact hs
  · exact .of_phase (by rw [hq]; rfl)
  · exact .of_phase (by rw [hq]; rfl)

/-- The step to the next phase keeps it: a READ stores at the byte index, which is below the size. -/
theorem KeepsBuffer.of_advance {s t : State} (hs : KeepsBuffer op n m s) (h : advance s = .next t) :
    KeepsBuffer op n m t := by
  obtain ⟨-, -, -, -, -, -, -, hop, hn, hq, hr, hb, -⟩ := advance_changes h
  have hi := advance_index h hs.index
  rcases hb with hb | ⟨hread, hp, -, hb⟩
  · exact hs.of_frame hr hq hop hn hi hb
  · have hlt : s.seq.byteIdx < n := hs.size ▸ hs.index (by rw [hp]; rfl)
    refine ⟨hr.trans hs.noReset, hq.trans hs.noHost, hop.trans hs.opcode, hn.trans hs.size, hi, ?_, fun i hle => ?_⟩
    · exact fun hne => absurd (hs.opcode.symm.trans hread) hne
    · rw [hb, Memory.read_write_other _ (by omega)]
      exact hs.above i hle

/-- Every step keeps it, a step of the free controller after the command being none of the host's. -/
theorem KeepsBuffer.of_step (s t : State) (hs : KeepsBuffer op n m s) (h : step s = .next t) :
    KeepsBuffer op n m t := by
  cases hb : s.busy with
  | false =>
    obtain rfl := Host.Outcome.next.inj ((step_rest hs.noReset hb hs.noHost).symm.trans h)
    exact hs
  | true =>
    rcases step_busy_next hs.noReset hb h with ⟨-, h⟩ | ⟨-, l, -, h⟩ | ⟨-, -, w, rest, i, -, hd, h⟩ | ⟨-, -, -, h⟩
    · obtain ⟨hop, hn, hr⟩ := finishWait_command h
      obtain ⟨-, -, -, hbuf, hq, -, -, -, -, -, hend⟩ := finishWait_changes h
      exact hs.of_frame hr hq hop hn (hs.index.of_seq hn (by tauto)) hbuf
    · obtain ⟨c, b, -, -, -, rfl⟩ := takeAnswer_next h
      exact hs.of_frame rfl rfl rfl rfl hs.index rfl
    · obtain ⟨-, -, -, hbuf, hq, -, hop, -, hn, hr, -, -, hend⟩ := micro_changes (decode_req_format hd) h
      exact hs.of_frame hr hq hop hn (IndexBelowSize.of_seq (s := s) hs.index hn (by tauto)) hbuf
    · exact hs.of_advance h

/-- The launch of a transaction stands before the bit loop and has changed no byte. -/
theorem KeepsBuffer.of_launch {s t : State} (hr : s.resetLine = false) (hq : s.hostQueue = [])
    (h : startTransfer (launch op s) = .next t) : KeepsBuffer op (s.reg .aSize) s.buf t := by
  obtain ⟨c, -, rfl⟩ := startTransfer_next h
  exact ⟨hr, hq, rfl, rfl, .of_phase rfl, fun _ => rfl, fun _ _ => rfl⟩

end

/-- Settles O53: the launch has changed nothing, and every step after it, an abort's among them, keeps `KeepsBuffer`. -/
theorem transfersTouchOnlyTheirBytes : Obligations.TransfersTouchOnlyTheirBytes := by
  intro s t u c hs hq hrun
  refine ⟨fun h => ?_, fun h => ?_⟩
  · obtain ⟨-, -, -, h⟩ := execWrite_next h
    have hu := hrun.keeps KeepsBuffer.of_step (KeepsBuffer.of_launch hs.ready.noReset hq h)
    exact hu.write (by simp)
  · obtain ⟨-, -, -, h⟩ := execRead_next h
    have hu := hrun.keeps KeepsBuffer.of_step (KeepsBuffer.of_launch hs.ready.noReset hq h)
    exact hu.above

end Sys2Proof.Machine
end

section
/-! PROOFS, the pin micro-operations: what PINDIR, PINSET and PINGET change and leave alone on a pin they may name, and that
they are refused on any other. -/

namespace Sys2Proof.Machine

/-! The operations on the pins and the environment's answer. -/

/-- A pin that is an output drives the level it is set to. -/
theorem setOut_driven_self {p : Pin} (l : Level) {s : State} (h : s.dirOf p = some .output) :
    (setOut p l s).driven p = some l := by
  simp [State.driven, h]

theorem setOut_driven_other {p q : Pin} (l : Level) (s : State) (h : q ≠ p) :
    (setOut p l s).driven q = s.driven q := by
  simp [State.driven, setOut_outOf_other l s h]

@[simp] theorem emit_driven (e : Event) (s : State) (q : Pin) : (emit e s).driven q = s.driven q := rfl

/-- Where no level is scripted, one free value is drawn. -/
theorem drawLevel_free {s : State} (h : s.levelsIn = []) :
    drawLevel s = (Config.freeLevel s.draws, { s with draws := s.draws + 1 }) := by
  simp [drawLevel, h]

/-- A draw changes only what the environment has left to answer. -/
theorem drawLevel_frame (s : State) :
    (drawLevel s).2 = { s with levelsIn := (drawLevel s).2.levelsIn, draws := (drawLevel s).2.draws } := by
  unfold drawLevel
  split <;> rfl

/-! What is refused (`20_memory.md` R38). -/

theorem exec_pindir_refused {p : Pin} {d : Dir} {s : State} (h : pinExists s.cfg p = false) :
    Refuses (.pindir p d) s :=
  ⟨.noSuchPin, by simp [exec, execPinDir, h]⟩

theorem exec_pinset_refused {p : Pin} {l : Level} {s : State}
    (h : pinExists s.cfg p = false ∨ s.dirOf p ≠ some .output) : Refuses (.pinset p l) s := by
  simp only [Refuses, exec, execPinSet]
  split
  · next hp => exact ⟨_, if_neg (h.resolve_left (by simp [hp]))⟩
  · exact ⟨_, rfl⟩

/-- An environment without readLevel refuses too, which comes first. -/
theorem exec_pinget_refused {p : Pin} {s : State}
    (h : pinExists s.cfg p = false ∨ s.dirOf p ≠ some .input) : Refuses (.pinget p) s := by
  simp only [Refuses, exec, execPinGet]
  split
  · exact ⟨_, rfl⟩
  · split
    · next hp => exact ⟨_, if_neg (h.resolve_left (by simp [hp]))⟩
    · exact ⟨_, rfl⟩

/-- Settles O16: each micro-operation asks whether its pin exists, and PINSET and PINGET ask for its direction. -/
theorem pinLayerFailuresAreRefused : Obligations.PinLayerFailuresAreRefused := by
  intro s p d l
  refine ⟨fun hp => ⟨?_, ?_, ?_⟩, fun hd => ?_, fun hd => ?_⟩
  · exact exec_pindir_refused hp
  · exact exec_pinset_refused (.inl hp)
  · exact exec_pinget_refused (.inl hp)
  · exact exec_pinset_refused (.inr hd)
  · exact exec_pinget_refused (.inr hd)

/-! What the others do. -/

/-- Settles O13: PINDIR replaces the direction of one pin. -/
theorem pinDirSetsTheDirection : Obligations.PinDirSetsTheDirection := by
  intro s p d hp
  refine ⟨emit (.pinDir p d) (setDir p d s), execPinDir_runs hp, ?_, fun q hq => ?_, rfl, rfl⟩
  · simp
  · simpa using setDir_dirOf_other d s hq

/-- Settles O14: PINSET replaces the level of one pin, which drives it because it is an output. -/
theorem pinSetDrivesThePin : Obligations.PinSetDrivesThePin := by
  intro s p l hp hd
  refine ⟨emit (.pinSet p l) (setOut p l s), execPinSet_runs hp hd, ?_, ?_, fun q hq => ⟨?_, ?_⟩, rfl, rfl⟩
  · simp
  · simpa using setOut_driven_self l hd
  · simpa using setOut_outOf_other l s hq
  · simpa using setOut_driven_other l s hq

/-- Settles O15: PINGET draws one level, scripted or free (`10_state.md` R31). -/
theorem pinGetAnswersTheEnvironmentsLevel : Obligations.PinGetAnswersTheEnvironmentsLevel := by
  intro s p hr hp hd
  refine ⟨emit (.pinGet p (drawLevel s).1) { (drawLevel s).2 with answer := some (drawLevel s).1 }, (drawLevel s).1,
    execPinGet_runs hr hp hd, rfl, ?_, fun l rest hl => ?_, fun hl => ?_, ?_⟩
  · simp [emit]
  · simp [emit, drawLevel_scripted hl]
  · simp [emit, drawLevel_free hl, hl]
  · rw [drawLevel_frame s]
    rfl

end Sys2Proof.Machine
end

section
/-! PROOFS, the encoding: decoder and encoder are inverse to each other on each format, and the values without a meaning are
refused. -/

namespace Sys2Proof.Machine

/-! The words of the two formats (`30_encoding.md` R49, R50). -/

/-- Settles O1: a command has no fields; of a micro-operation's only a duration can be too wide for its word. -/
theorem decodeOfEncodeIsTheInstruction : Obligations.DecodeOfEncodeIsTheInstruction := by
  intro cfg i hwf
  cases i with
  | construct | derive | write | read | waitns | waitms => rfl
  | pindir p d => exact decode_pindir p d
  | pinset p l => exact decode_pinset p l
  | pinget p => exact decode_pinget p
  | wait d => exact decode_wait (of_decide_eq_true hwf)

/-- The bit of the direction a bit encodes is the bit (`30_encoding.md` R53). -/
theorem bitOfDir_dirOfBit {b : Nat} (h : b < 2) : bitOfDir (dirOfBit b) = b := by
  obtain rfl | rfl : b = 0 ∨ b = 1 := by omega
  · rfl
  · rfl

/-- The command a value of CMD names is encoded as that value. -/
theorem encode_of_decode_cmd {w : Nat} {i : Instr} (h : decode .cmd w = .ok i) : encode i = w := by
  rcases decode_cmd_command h with ⟨rfl, rfl⟩ | ⟨rfl, rfl⟩ | ⟨rfl, rfl⟩ | ⟨rfl, rfl⟩ | ⟨rfl, rfl⟩ | ⟨rfl, rfl⟩ <;> rfl

/-- The micro-operation a request word carries is encoded as that word: its kind and its fields are all of its bits. -/
theorem encode_of_decode_req {w : Nat} {i : Instr} (h : decode .req w = .ok i) : encode i = w := by
  simp only [decode, decodeReq] at h
  split at h
  case h_1 hk =>
    cases h
    have hd : bitOfDir (dirOfBit (w / 4 % 2)) = w / 4 % 2 := bitOfDir_dirOfBit (Nat.mod_lt _ (by decide))
    simp only [encode, hd]
    omega
  case h_2 hk =>
    cases h
    have hl : (BitVec.ofNat 1 (w / 4)).toNat = w / 4 % 2 := BitVec.toNat_ofNat _ _
    simp only [encode, hl]
    omega
  case h_3 hk =>
    split at h
    · cases h
      simp only [encode]
      omega
    · cases h
  case h_4 h0 h1 h2 =>
    split at h
    · cases h
      have hk : w % 4 ≠ 0 ∧ w % 4 ≠ 1 ∧ w % 4 ≠ 2 := ⟨h0, h1, h2⟩
      simp only [encode]
      omega
    · cases h

/-- Settles O2: format by format. -/
theorem decodedWordIsTheOnlyWord : Obligations.DecodedWordIsTheOnlyWord := by
  intro f w i h
  cases f with
  | cmd => exact ⟨encode_of_decode_cmd h, decode_cmd_format h⟩
  | req => exact ⟨encode_of_decode_req h, decode_req_format h⟩

/-- Settles O3: the values of CMD are rows of the decoder's table, and each request word is the word of its operation. -/
theorem specWordsDecode : Obligations.SpecWordsDecode := by
  refine ⟨rfl, rfl, rfl, rfl, rfl, rfl, rfl, rfl, ?_, ?_, ?_, ?_, ?_⟩
  · exact decode_pindir 11 .output
  · exact decode_pindir 12 .input
  · exact decode_pinset 10 high
  · exact decode_pinget 12
  · exact decode_wait (by decide : 250 < 2 ^ durW)

/-! Values without a meaning (`30_encoding.md` R56): each is one of the conditions of the commands that use it. -/

/-- A free host's write of a reserved opcode to CMD is refused. -/
theorem step_reservedOpcode {s : State} {w : Nat} {rest : List HostAction} (hw : w = 6 ∨ w = 7)
    (hr : s.resetLine = false) (hb : s.busy = false) (hq : s.hostQueue = .writeCmd w :: rest) :
    step s = .refused .reservedOpcode := by
  rcases hw with rfl | rfl
  · exact step_host hr hb hq rfl
  · exact step_host hr hb hq rfl

theorem badHandle_iff {s : State} {b : Nat} : badHandle s b = true ↔ s.cfg.nBus ≤ b :=
  decide_eq_true_iff

/-- WRITE and READ share these conditions, so what one of them refuses, both refuse. -/
theorem exec_transfer_refused {s : State} {r : Refusal} (h : (true, r) ∈ transferRefusals s) :
    Refuses .write s ∧ Refuses .read s :=
  ⟨exec_write_refused (List.mem_append_left _ h), exec_read_refused (List.mem_append_left _ h)⟩

theorem exec_construct_refused_of_mode {s : State} (h : s.reg .aMode = 0 ∨ 4 < s.reg .aMode) :
    Refuses .construct s :=
  exec_construct_refused (r := .badMode) (by simp [h])

theorem exec_construct_refused_of_speed {s : State} (h : s.reg .aSpeed = 0 ∨ freqMax < s.reg .aSpeed) :
    Refuses .construct s :=
  exec_construct_refused (r := .badSpeed) (by simp [h])

theorem exec_construct_refused_of_handle {s : State} (h : s.cfg.nBus ≤ s.reg .aBus) : Refuses .construct s :=
  exec_construct_refused (r := .handleOutOfRange) (by simp [badHandle_iff.2 h])

theorem exec_derive_refused_of_handle {s : State} (h : s.cfg.nBus ≤ s.reg .aBus ∨ s.cfg.nBus ≤ s.reg .aSrc) :
    Refuses .derive s := by
  rcases h with h | h
  · exact exec_derive_refused (r := .handleOutOfRange) (by simp [badHandle_iff.2 h])
  · exact exec_derive_refused (r := .handleOutOfRange) (by simp [badHandle_iff.2 h])

theorem exec_transfer_refused_of_handle {s : State} (h : s.cfg.nBus ≤ s.reg .aBus) :
    Refuses .write s ∧ Refuses .read s :=
  exec_transfer_refused (r := .handleOutOfRange) (by simp [transferRefusals, badHandle_iff.2 h])

theorem exec_transfer_refused_of_size {s : State} (h : s.cfg.bufLen < s.reg .aSize) :
    Refuses .write s ∧ Refuses .read s :=
  exec_transfer_refused (r := .sizeTooLarge) (by simp [transferRefusals, h])

/-- Settles O4: R56 item by item. -/
theorem reservedAndIllegalValuesAreRefused : Obligations.ReservedAndIllegalValuesAreRefused := by
  intro s
  refine ⟨fun w rest hw hb hr hq => ?_, fun hm => ?_, fun hf => ?_, fun hn => ⟨?_, ?_, ?_⟩, fun hn => ?_, fun hn => ?_⟩
  · exact step_reservedOpcode hw hr hb hq
  · exact exec_construct_refused_of_mode hm
  · exact exec_construct_refused_of_speed hf
  · exact exec_construct_refused_of_handle hn
  · exact exec_derive_refused_of_handle (.inl hn)
  · exact exec_transfer_refused_of_handle hn
  · exact exec_derive_refused_of_handle (.inr hn)
  · exact exec_transfer_refused_of_size hn

end Sys2Proof.Machine
end

section
/-! PROOFS, MODE_DECODE: the two bits of the selector, and the number they make up. -/

namespace Sys2Proof.Machine

/-- The one bit of a word at a position. -/
theorem extractLsb_one (m : BitVec 2) (i : Nat) : m.extractLsb' i 1 = BitVec.ofBool (m.getLsbD i) := by
  apply BitVec.eq_of_getLsbD_eq
  intro j hj
  obtain rfl : j = 0 := Nat.lt_one_iff.mp hj
  simp

/-- CPOL and CPHA as a number are the selector (`40_mode_decode.md` R60). -/
theorem modeDecode_toNat (m : BitVec 2) : 2 * (modeDecode m).1.toNat + (modeDecode m).2.toNat = m.toNat := by
  have hm : m.toNat < 4 := m.isLt
  simp only [modeDecode, BitVec.extractLsb'_toNat, Nat.shiftRight_eq_div_pow]
  omega

/-- Settles O7: each part of the decode is one bit, and the number the two make up gives back the selector and, through
`m = K - 1`, the mode number. -/
theorem modeDecodeIsTheTable : Obligations.ModeDecodeIsTheTable := by
  refine ⟨fun m => ⟨?_, ?_⟩, rfl, rfl, rfl, rfl, fun m m' h => ?_, fun k h1 h4 => ?_⟩
  · exact extractLsb_one m 1
  · exact extractLsb_one m 0
  · apply BitVec.eq_of_toNat_eq
    rw [← modeDecode_toNat m, h, modeDecode_toNat]
  · rw [modeDecode_toNat, modeSelector, BitVec.toNat_ofNat]
    omega

end Sys2Proof.Machine
end

section
/-! PROOFS, stretches of a transaction that meets no TimingError, as rules: what leads from one position of the sequencer to
another, with which events, answers and waits, and how such stretches are put one after the other. -/

namespace Sys2Proof.Machine

/-! Stretches. -/

/-- The state is one of a transaction with this opcode and size, under these parameters. -/
structure Carries (op : Opcode) (cfg : Config) (n : Nat) (s : State) : Prop where
  op : s.tOp = op
  cfg : s.cfg = cfg
  size : s.tSize = n

/-- From every `P` state of the transaction that is answered the levels `lv` and whose next `w` waits end ok, the machine
leads to a `Q` state with the events `es`. -/
def Stretch (op : Opcode) (cfg : Config) (n : Nat) (P Q : State → Prop) (es : List Event) (lv : List Level)
    (w : Nat) : Prop :=
  ∀ s rest, Carries op cfg n s → P s → s.levelsIn = lv ++ rest → WaitsOk w s →
    ∃ t, Progress s t es lv w ∧ Q t

theorem WaitsOk.of_le {k n : Nat} {s : State} (h : WaitsOk n s) (hk : k ≤ n) : WaitsOk k s := by
  obtain ⟨m, rfl⟩ := Nat.exists_eq_add_of_le hk
  rcases h with h | ⟨rest, h⟩
  · exact .inl h
  · exact .inr ⟨List.replicate m .ok ++ rest, by rw [h, List.replicate_add, List.append_assoc]⟩

section

variable {op : Opcode} {cfg : Config} {n : Nat}

theorem Carries.of_progress {w : Nat} {s t : State} {es : List Event} {lv : List Level} (hs : Carries op cfg n s)
    (h : Progress s t es lv w) : Carries op cfg n t :=
  ⟨h.tOp.trans hs.op, h.cfg.trans hs.cfg, h.tSize.trans hs.size⟩

theorem Stretch.refl (P : State → Prop) : Stretch op cfg n P P [] [] 0 :=
  fun s _ _ hP _ _ => ⟨s, Progress.refl s, hP⟩

theorem Stretch.trans {P Q R : State → Prop} {es es' : List Event} {lv lv' : List Level} {w w' : Nat}
    (h : Stretch op cfg n P Q es lv w) (h' : Stretch op cfg n Q R es' lv' w') :
    Stretch op cfg n P R (es ++ es') (lv ++ lv') (w + w') := by
  intro s rest hc hP hl hw
  obtain ⟨t, hst, hQ⟩ := h s (lv' ++ rest) hc hP (by rw [hl, List.append_assoc]) (hw.of_le (by omega))
  have hlt : t.levelsIn = lv' ++ rest := by
    apply List.append_cancel_left (as := lv)
    rw [← hst.levels, hl, List.append_assoc]
  obtain ⟨u, htu, hR⟩ := h' t rest (hc.of_progress hst) hQ hlt (hst.waits w' hw)
  exact ⟨u, hst.trans htu, hR⟩

/-- `k` stretches of `w` waits each, one after the other. -/
theorem Stretch.iterate {P : Nat → State → Prop} {w k : Nat} {ev : Fin k → List Event} {lv : Fin k → List Level}
    (h : ∀ i : Fin k, Stretch op cfg n (P i) (P (i + 1)) (ev i) (lv i) w) :
    Stretch op cfg n (P 0) (P k) ((List.finRange k).flatMap ev) ((List.finRange k).flatMap lv) (w * k) := by
  induction k with
  | zero => exact .refl _
  | succ k ih =>
    have hall := (ih fun i => h i.castSucc).trans (h (Fin.last k))
    simpa [List.finRange_succ_last, List.flatMap_map, Nat.mul_succ] using hall

/-! One phase. -/

/-- The micro-operations of a phase of a transaction with this opcode. -/
def phaseRow (op : Opcode) (cfg : Config) (c : Context) (b : Byte) (q : Seq) : List Instr :=
  if op = .read then readRow cfg.readPresetsMosi c q else writeRow c b q

/-- The sequencer stands at a position with all of that phase's requests carried out. -/
structure PhaseDone (c : Context) (q : Seq) (b : Byte) (m : Memory) (s : State) : Prop where
  serving : Serving c s
  port : s.port = []
  seq : s.seq = q
  curByte : s.curByte = b
  buf : s.buf = m

variable {c : Context} {b : Byte} {m : Memory} {q : Seq}

theorem AtPhase.port {s : State} (h : AtPhase c q b m s) (hc : Carries op cfg n s) :
    s.port = (phaseRow op cfg c b q).map encode := by
  rw [h.row, rowOf, phaseRow, hc.op, hc.cfg, h.curByte, h.seq]

/-- A phase waits, sets the pins of its bus and, in a READ, asks for the level of MISO. -/
theorem phaseRow_servable {s : State} (hs : Serving c s) :
    ∀ i ∈ phaseRow op cfg c b q, i = .pinget c.miso ∨ Servable s i := by
  have hquarter := servable_quarter s c
  have hguard := servable_guard s c
  have hmosi := hs.servable_mosi
  have hclk := hs.servable_clk
  have hcs := hs.servable_cs
  rw [phaseRow]
  split
  · rcases BitVec.eq_zero_or_eq_one c.cpha with h | h <;> cases cfg.readPresetsMosi <;> cases hp : q.phase <;>
      simp [readRow, hp, h, hquarter, hguard, hmosi, hclk, hcs]
  · rcases BitVec.eq_zero_or_eq_one c.cpha with h | h <;> cases hp : q.phase <;>
      simp [writeRow, hp, h, hquarter, hguard, hmosi, hclk, hcs]

/-- A phase without a PINGET carries out its row. -/
theorem row_runs (hrow : .pinget c.miso ∉ phaseRow op cfg c b q) :
    Stretch op cfg n (AtPhase c q b m) (PhaseDone c q b m) ((phaseRow op cfg c b q).map servedEvent) []
      (waitCount (phaseRow op cfg c b q)) := by
  intro s rest hc hs _ hw
  have hok : ∀ i ∈ phaseRow op cfg c b q, Servable s i := fun i hi =>
    (phaseRow_servable hs.serving i hi).resolve_left fun h => hrow (h ▸ hi)
  obtain ⟨t, hst, ht, hp, hq, hb, hm⟩ := serve_requests hs.serving (hs.port hc) hok hw
  exact ⟨t, hst, ht, hp, hq.trans hs.seq, hb.trans hs.curByte, hm.trans hs.buf⟩

/-- A phase of a READ whose row begins with a PINGET or-s the answer into CUR_BYTE and carries out the rest. -/
theorem sample_runs {is : List Instr} (l : Level) (hr : cfg.hasReadLevel = true)
    (hrow : phaseRow .read cfg c b q = .pinget c.miso :: is) (his : .pinget c.miso ∉ is) :
    Stretch .read cfg n (AtPhase c q b m) (PhaseDone c q (composeBit c.order b q.bitIdx l) m)
      (.pinGet c.miso l :: is.map servedEvent) [l] (waitCount is) := by
  intro s rest hc hs hl hw
  have hp : s.port = encode (.pinget c.miso) :: is.map encode := by rw [hs.port hc, hrow]; rfl
  obtain ⟨t, hst, ht, hp, hq, hb, hm⟩ := serve_pinget hs.serving hp hc.op (hc.cfg ▸ hr) hl
  have hok : ∀ i ∈ is, Servable t i := fun i hi =>
    (phaseRow_servable ht i (hrow ▸ List.mem_cons_of_mem _ hi)).resolve_left fun h => his (h ▸ hi)
  obtain ⟨u, htu, hu, hp', hq', hb', hm'⟩ := serve_requests ht hp hok (hst.waits _ (by rwa [Nat.zero_add]))
  refine ⟨u, by simpa using hst.trans htu, hu, hp', (hq'.trans hq).trans hs.seq, ?_, (hm'.trans hm).trans hs.buf⟩
  rw [hb', hb, hs.curByte, hs.seq]

/-- The sequencer goes from a phase that is done to another position. -/
theorem enter_runs {q' : Seq} {b' : Byte} {m' : Memory}
    (hadv : ∀ s, Carries op cfg n s → PhaseDone c q b m s →
      advance s = enter q' { s with curByte := b', buf := m' }) :
    Stretch op cfg n (PhaseDone c q b m) (AtPhase c q' b' m') [] [] 0 := by
  intro s rest hc hs _ _
  obtain ⟨t, hst, ht, hp, hq, hb, hm⟩ := serve_enter hs.serving hs.port b' m' (hadv s hc hs)
  exact ⟨t, hst, ht, hp, hq, hb, hm⟩

/-! Phases of one bit, one after the other. -/

/-- The phase the sequencer goes to, where that is another phase of the same bit (`42_write.md` R91). -/
def Phase.next : Phase → Option Phase
  | .preMosi => some .preClk
  | .preClk => some .preWait
  | .preWait => some .csLow
  | .aWait => some .aAct
  | .aAct => some .bWait
  | .bWait => some .bAct
  | .bAct => some .cWait
  | .cWait => some .cAct
  | .cAct => some .dWait
  | .dWait => some .dAct
  | .postWait => some .csHigh
  | .csHigh => some .guardWait
  | .idle | .init | .dly | .csLow | .dAct | .guardWait | .abortCs => none

theorem advance_of_next {s : State} {ph : Phase} (h : s.seq.phase.next = some ph) : advance s = enterPhase ph s := by
  cases hp : s.seq.phase <;> simp [hp, Phase.next] at h <;> simp [advance, hp, h]

theorem next_runs {ph ph' : Phase} {i : Nat} {j : Fin 8} (h : ph.next = some ph') :
    Stretch op cfg n (PhaseDone c ⟨ph, i, j⟩ b m) (AtPhase c ⟨ph', i, j⟩ b m) [] [] 0 := by
  refine enter_runs fun s _ hs => ?_
  obtain ⟨-, -, hq, rfl, rfl⟩ := hs
  have hseq : { s.seq with phase := ph' } = Seq.mk ph' i j := by rw [hq]
  exact (advance_of_next (by rw [hq]; exact h)).trans (congrArg (enter · s) hseq)

theorem waitCount_append (is is' : List Instr) : waitCount (is ++ is') = waitCount is + waitCount is' := by
  induction is with
  | nil => simp [waitCount]
  | cons i is ih => cases i <;> simp [waitCount, ih]; omega

/-- The micro-operations of some phases of one bit. -/
def pathRows (op : Opcode) (cfg : Config) (c : Context) (b : Byte) (i : Nat) (j : Fin 8) (phs : List Phase) :
    List Instr :=
  phs.flatMap fun ph => phaseRow op cfg c b ⟨ph, i, j⟩

/-- Phases of one bit, each the next of the one before it and none with a PINGET, run one after the other. -/
theorem path_runs {i : Nat} {j : Fin 8} (ph : Phase) (phs : List Phase) {is : List Instr}
    (hch : List.IsChain (fun p p' => p.next = some p') (ph :: phs))
    (his : pathRows op cfg c b i j (ph :: phs) = is) (hrow : .pinget c.miso ∉ is) :
    Stretch op cfg n (AtPhase c ⟨ph, i, j⟩ b m)
      (PhaseDone c ⟨(ph :: phs).getLast (List.cons_ne_nil _ _), i, j⟩ b m) (is.map servedEvent) []
      (waitCount is) := by
  subst his
  induction phs generalizing ph with
  | nil =>
    simp only [pathRows, List.flatMap_cons, List.flatMap_nil, List.append_nil] at hrow ⊢
    exact row_runs hrow
  | cons ph' phs ih =>
    rw [List.isChain_cons_cons] at hch
    rw [pathRows, List.flatMap_cons, List.mem_append, not_or] at hrow
    have hall := ((row_runs hrow.1).trans (next_runs hch.1)).trans (ih ph' hch.2 hrow.2)
    simpa [pathRows, waitCount_append] using hall

end

end Sys2Proof.Machine
end

section
/-! PROOFS, whole transactions: the parts of a WRITE and of a READ as stretches, from the events of one bit to those of the
frame, and the launch in front of them. -/

namespace Sys2Proof.Machine

section

variable {op : Opcode} {cfg : Config} {n : Nat} {c : Context} {b : Byte} {m : Memory}

/-! The opening and the closing. -/

/-- Whether a transaction presets MOSI: a WRITE does, a READ where the configuration says so (`43_read.md` R96). -/
def presetsMosi (op : Opcode) (cfg : Config) : Bool := if op = .read then cfg.readPresetsMosi else true

theorem opening_runs (i : Nat) (j : Fin 8) :
    Stretch op cfg n (AtPhase c ⟨.preMosi, i, j⟩ b m) (PhaseDone c ⟨.csLow, i, j⟩ b m)
      (openingEvents (presetsMosi op cfg) c) [] 1 := by
  have hrows : pathRows op cfg c b i j [.preMosi, .preClk, .preWait, .csLow] =
      (if presetsMosi op cfg then [.pinset c.mosi low] else []) ++
        [.pinset c.clk (idleLevel c), .wait (busTime c), .pinset c.cs low] := by
    by_cases ho : op = .read <;> simp [pathRows, phaseRow, presetsMosi, readRow, writeRow, ho]
  cases hp : presetsMosi op cfg <;> rw [hp] at hrows
  · exact path_runs .preMosi [.preClk, .preWait, .csLow] (by simp [Phase.next]) hrows (by simp)
  · exact path_runs .preMosi [.preClk, .preWait, .csLow] (by simp [Phase.next]) hrows (by simp)

theorem closing_runs (i : Nat) (j : Fin 8) :
    Stretch op cfg n (AtPhase c ⟨.postWait, i, j⟩ b m) (PhaseDone c ⟨.guardWait, i, j⟩ b m)
      (closingEvents c) [] 2 := by
  have hrows : pathRows op cfg c b i j [.postWait, .csHigh, .guardWait] =
      [.wait (busTime c), .pinset c.cs high, .wait (4 * busTime c)] := by
    by_cases ho : op = .read <;> simp [pathRows, phaseRow, readRow, writeRow, ho]
  exact path_runs .postWait [.csHigh, .guardWait] (by simp [Phase.next]) hrows (by simp)

/-! One bit. -/

/-- One bit of a WRITE: the eight phases of the bit, MOSI driven in slot a or in slot c. -/
theorem writeBit_runs (i : Nat) (j : Fin 8) :
    Stretch .write cfg n (AtPhase c ⟨.aWait, i, j⟩ b m) (PhaseDone c ⟨.dAct, i, j⟩ b m)
      (writeBitEvents c (wireBit c.order b j)) [] 4 := by
  rw [writeBitEvents]
  rcases BitVec.eq_zero_or_eq_one c.cpha with h | h
  · have hrows : pathRows .write cfg c b i j [.aWait, .aAct, .bWait, .bAct, .cWait, .cAct, .dWait, .dAct] =
        [.wait (busTime c), .pinset c.mosi (wireBit c.order b j), .wait (busTime c), .pinset c.clk (activeLevel c),
          .wait (busTime c), .wait (busTime c), .pinset c.clk (idleLevel c)] := by
      simp [pathRows, phaseRow, writeRow, h]
    rw [if_pos h]
    exact path_runs _ _ (by simp [Phase.next]) hrows (by simp)
  · have hrows : pathRows .write cfg c b i j [.aWait, .aAct, .bWait, .bAct, .cWait, .cAct, .dWait, .dAct] =
        [.wait (busTime c), .wait (busTime c), .pinset c.clk (activeLevel c), .wait (busTime c),
          .pinset c.mosi (wireBit c.order b j), .wait (busTime c), .pinset c.clk (idleLevel c)] := by
      simp [pathRows, phaseRow, writeRow, h]
    rw [if_neg (by simp [h])]
    exact path_runs _ _ (by simp [Phase.next]) hrows (by simp)

/-- One bit of a READ: the phases before its sample, the sample in slot b or in slot d (`43_read.md` R97), and the
phases after it. -/
theorem readBit_runs (hr : cfg.hasReadLevel = true) (i : Nat) (j : Fin 8) (l : Level) :
    Stretch .read cfg n (AtPhase c ⟨.aWait, i, j⟩ b m) (PhaseDone c ⟨.dAct, i, j⟩ (composeBit c.order b j l) m)
      (readBitEvents c l) [l] 4 := by
  rw [readBitEvents]
  rcases BitVec.eq_zero_or_eq_one c.cpha with h | h
  · have hbefore : pathRows .read cfg c b i j [.aWait, .aAct, .bWait] = [.wait (busTime c), .wait (busTime c)] := by
      simp [pathRows, phaseRow, readRow]
    have hsample : phaseRow .read cfg c b ⟨.bAct, i, j⟩ = [.pinget c.miso, .pinset c.clk (activeLevel c)] := by
      simp [phaseRow, readRow, h]
    have hafter : pathRows .read cfg c (composeBit c.order b j l) i j [.cWait, .cAct, .dWait, .dAct] =
        [.wait (busTime c), .wait (busTime c), .pinset c.clk (idleLevel c)] := by
      simp [pathRows, phaseRow, readRow, h]
    rw [if_pos h]
    exact (path_runs _ _ (by simp [Phase.next]) hbefore (by simp)).trans <| (next_runs rfl).trans <|
      (sample_runs l hr hsample (by simp)).trans <| (next_runs rfl).trans <|
        path_runs _ _ (by simp [Phase.next]) hafter (by simp)
  · have hbefore : pathRows .read cfg c b i j [.aWait, .aAct, .bWait, .bAct, .cWait, .cAct, .dWait] =
        [.wait (busTime c), .wait (busTime c), .pinset c.clk (activeLevel c), .wait (busTime c),
          .wait (busTime c)] := by
      simp [pathRows, phaseRow, readRow, h]
    have hsample : phaseRow .read cfg c b ⟨.dAct, i, j⟩ = [.pinget c.miso, .pinset c.clk (idleLevel c)] := by
      simp [phaseRow, readRow, h]
    rw [if_neg (by simp [h])]
    exact (path_runs _ _ (by simp [Phase.next]) hbefore (by simp)).trans <| (next_runs rfl).trans <|
      sample_runs l hr hsample (by simp)

/-! The bits of one byte. -/

/-- Before bit `k` of byte `i`; after its last bit the byte is done. -/
def BeforeBit (c : Context) (i : Nat) (b : Byte) (m : Memory) (k : Nat) : State → Prop :=
  if h : k < 8 then AtPhase c ⟨.aWait, i, ⟨k, h⟩⟩ b m else PhaseDone c ⟨.dAct, i, 7⟩ b m

theorem nextBit_runs (i : Nat) (j : Fin 8) :
    Stretch op cfg n (PhaseDone c ⟨.dAct, i, j⟩ b m) (BeforeBit c i b m (j + 1)) [] [] 0 := by
  by_cases hj : j.val + 1 < 8
  · rw [BeforeBit, dif_pos hj]
    refine enter_runs fun s _ hs => ?_
    obtain ⟨-, -, hq, rfl, rfl⟩ := hs
    exact advance_bit hq (by omega)
  · obtain rfl : j = 7 := by omega
    exact .refl _

/-- Eight bits make a byte, `cur k` being CUR_BYTE after the first `k` of them. -/
theorem bits_run {ev : Fin 8 → List Event} {lv : Fin 8 → List Level} {cur : Nat → Byte} (i : Nat)
    (h : ∀ j : Fin 8, Stretch op cfg n (AtPhase c ⟨.aWait, i, j⟩ (cur j) m)
      (PhaseDone c ⟨.dAct, i, j⟩ (cur (j + 1)) m) (ev j) (lv j) 4) :
    Stretch op cfg n (AtPhase c ⟨.aWait, i, 0⟩ (cur 0) m) (PhaseDone c ⟨.dAct, i, 7⟩ (cur 8) m)
      ((List.finRange 8).flatMap ev) ((List.finRange 8).flatMap lv) 32 := by
  refine Stretch.iterate (P := fun k => BeforeBit c i (cur k) m k) (w := 4) fun j => ?_
  simpa [BeforeBit] using (h j).trans (nextBit_runs i j)

theorem writeByte_runs (i : Nat) :
    Stretch .write cfg n (AtPhase c ⟨.aWait, i, 0⟩ b m) (PhaseDone c ⟨.dAct, i, 7⟩ b m)
      ((wireBits c.order b).flatMap (writeBitEvents c)) [] 32 := by
  rw [wireBits, List.flatMap_map]
  exact bits_run (cur := fun _ => b) (lv := fun _ => []) i fun j => writeBit_runs i j

/-- CUR_BYTE of a READ after the first `k` of eight answers (`43_read.md` R98). -/
def composed (order : BitOrder) (l : Fin 8 → Level) (k : Nat) : Byte :=
  ((List.finRange 8).take k).foldl (fun b j => composeBit order b j (l j)) 0#8

theorem composed_succ (order : BitOrder) (l : Fin 8 → Level) (j : Fin 8) :
    composed order l (j + 1) = composeBit order (composed order l j) j (l j) := by
  simp [composed, List.take_add_one]

theorem readByte_runs (hr : cfg.hasReadLevel = true) (i : Nat) (l : Fin 8 → Level) :
    Stretch .read cfg n (AtPhase c ⟨.aWait, i, 0⟩ 0#8 m) (PhaseDone c ⟨.dAct, i, 7⟩ (composed c.order l 8) m)
      (((List.finRange 8).map l).flatMap (readBitEvents c)) ((List.finRange 8).map l) 32 := by
  rw [List.flatMap_map, List.map_eq_flatMap]
  refine bits_run (cur := composed c.order l) (lv := fun j => [l j]) i fun j => ?_
  rw [composed_succ]
  exact readBit_runs hr i j (l j)

/-! The bytes of the frame. -/

/-- Before byte `k` of the frame with CUR_BYTE loaded; after the last byte the frame is to be closed. -/
def BeforeByte (c : Context) (n k : Nat) (b : Byte) (m : Memory) : State → Prop :=
  if k < n then AtPhase c ⟨.aWait, k, 0⟩ b m else fun s => ∃ i j b', AtPhase c ⟨.postWait, i, j⟩ b' m s

/-- A stretch to the closing, at whatever byte and bit the indexes stand. -/
theorem Stretch.beforeByte_of_le {P : State → Prop} {es : List Event} {lv : List Level} {w k i : Nat} {j : Fin 8}
    {b b' : Byte} (hk : ¬k < n) (h : Stretch op cfg n P (AtPhase c ⟨.postWait, i, j⟩ b' m) es lv w) :
    Stretch op cfg n P (BeforeByte c n k b m) es lv w := by
  intro s rest hc hs hl hw
  obtain ⟨t, hst, ht⟩ := h s rest hc hs hl hw
  exact ⟨t, hst, by rw [BeforeByte, if_neg hk]; exact ⟨i, j, b', ht⟩⟩

/-- What CUR_BYTE is at the start of byte `k` (`42_write.md` R88, `43_read.md` R98). -/
def Loads (op : Opcode) (m : Memory) (k : Nat) (b : Byte) : Prop :=
  if op = .read then b = 0#8 else m.read k = some b

theorem startByte_runs {s : State} {k : Nat} (h : Loads s.tOp s.buf k b) :
    startByte k s = enter ⟨.aWait, k, 0⟩ { s with curByte := b } := by
  by_cases ho : s.tOp = .read
  · rw [Loads, if_pos ho] at h
    rw [startByte, if_pos ho, h]
  · rw [Loads, if_neg ho] at h
    simp only [startByte, if_neg ho, h]

/-- The step from chip-select low: to the first byte, or to the closing of an empty frame. -/
theorem firstByte_runs {i : Nat} {j : Fin 8} {b' : Byte} (hload : 0 < n → Loads op m 0 b') :
    Stretch op cfg n (PhaseDone c ⟨.csLow, i, j⟩ b m) (BeforeByte c n 0 b' m) [] [] 0 := by
  by_cases hn : 0 < n
  · rw [BeforeByte, if_pos hn]
    refine enter_runs fun s hc hs => ?_
    obtain ⟨-, -, hq, -, rfl⟩ := hs
    have hload' : Loads s.tOp s.buf 0 b' := hc.op ▸ hload hn
    simp only [advance, hq, hc.size, if_pos hn, startByte_runs hload']
  · refine Stretch.beforeByte_of_le (i := i) (j := j) (b' := b) hn (enter_runs fun s hc hs => ?_)
    obtain ⟨-, -, hq, rfl, rfl⟩ := hs
    have hadv : advance s = enterPhase .postWait s := by simp only [advance, hq, hc.size, if_neg hn]
    exact hadv.trans (congrArg (enter · s) (by rw [hq]))

theorem nextByte_write_runs {k : Nat} {b' : Byte} (hk : k < n) (hb : k + 1 < n → m.read (k + 1) = some b') :
    Stretch .write cfg n (PhaseDone c ⟨.dAct, k, 7⟩ b m) (BeforeByte c n (k + 1) b' m) [] [] 0 := by
  by_cases hn : k + 1 < n
  · rw [BeforeByte, if_pos hn]
    refine enter_runs fun s hc hs => ?_
    obtain ⟨-, -, hq, -, rfl⟩ := hs
    exact advance_byte_write hq hc.op (hc.size ▸ hn) (hb hn)
  · refine Stretch.beforeByte_of_le (i := k) (j := 7) (b' := b) hn (enter_runs fun s hc hs => ?_)
    obtain ⟨-, -, hq, rfl, rfl⟩ := hs
    exact advance_last_write hq hc.op (by rw [hc.size]; omega)

theorem nextByte_read_runs {k : Nat} (hk : k < n) (hlen : n ≤ cfg.bufLen) :
    Stretch .read cfg n (PhaseDone c ⟨.dAct, k, 7⟩ b m) (BeforeByte c n (k + 1) 0#8 (m.write k b)) [] [] 0 := by
  have hin : ∀ s, Carries .read cfg n s → k < s.cfg.bufLen := fun s hc => by rw [hc.cfg]; omega
  by_cases hn : k + 1 < n
  · rw [BeforeByte, if_pos hn]
    refine enter_runs fun s hc hs => ?_
    obtain ⟨-, -, hq, rfl, rfl⟩ := hs
    exact advance_byte_read hq hc.op (hin s hc) (hc.size ▸ hn)
  · refine Stretch.beforeByte_of_le (i := k) (j := 7) (b' := b) hn (enter_runs fun s hc hs => ?_)
    obtain ⟨-, -, hq, rfl, rfl⟩ := hs
    exact advance_last_read hq hc.op (hin s hc) (by rw [hc.size]; omega)

/-- Byte `k` of the buffer, where it holds one. -/
def byteAt (m : Memory) (k : Nat) : Byte := (m.read k).getD 0#8

theorem read_eq_byteAt {k : Nat} (hm : m.allWritten n = true) (hk : k < n) : m.read k = some (byteAt m k) := by
  obtain ⟨b, hb⟩ := (Memory.allWritten_iff m n).1 hm k hk
  rw [byteAt, hb, Option.getD_some]

/-- The first `n` bytes of the buffer. -/
def bytesOf (m : Memory) (n : Nat) : List Byte := (List.finRange n).map fun k : Fin n => byteAt m k

theorem flatMap_const_nil {α β : Type} (l : List α) : l.flatMap (fun _ => ([] : List β)) = [] :=
  List.flatMap_eq_nil_iff.2 fun _ _ => rfl

theorem writeBytes_run (i : Nat) (j : Fin 8) (hm : m.allWritten n = true) :
    Stretch .write cfg n (PhaseDone c ⟨.csLow, i, j⟩ b m) (BeforeByte c n n (byteAt m n) m)
      ((bytesOf m n).flatMap fun b => (wireBits c.order b).flatMap (writeBitEvents c)) [] (32 * n) := by
  have hfirst : Stretch .write cfg n (PhaseDone c ⟨.csLow, i, j⟩ b m) (BeforeByte c n 0 (byteAt m 0) m) [] [] 0 :=
    firstByte_runs fun hn => read_eq_byteAt hm hn
  have hbyte (k : Fin n) : Stretch .write cfg n (BeforeByte c n k (byteAt m k) m)
      (BeforeByte c n (k + 1) (byteAt m (k + 1)) m)
      ((wireBits c.order (byteAt m k)).flatMap (writeBitEvents c)) [] 32 := by
    rw [BeforeByte, if_pos k.isLt]
    simpa using (writeByte_runs k).trans (nextByte_write_runs k.isLt (read_eq_byteAt hm))
  simpa [bytesOf, List.flatMap_map, flatMap_const_nil] using
    hfirst.trans (Stretch.iterate (P := fun k => BeforeByte c n k (byteAt m k) m) hbyte)

/-- The buffer after the first `k` bytes of a READ that is answered `l` (`43_read.md` R99). -/
def readInto (order : BitOrder) (l : Nat → Fin 8 → Level) (m : Memory) : Nat → Memory
  | 0 => m
  | k + 1 => (readInto order l m k).write k (composed order (l k) 8)

/-- The answers to a READ of `n` bytes, in order. -/
def answersOf (l : Nat → Fin 8 → Level) (n : Nat) : List Level :=
  (List.finRange n).flatMap fun k : Fin n => (List.finRange 8).map (l k)

theorem readBytes_run (i : Nat) (j : Fin 8) (l : Nat → Fin 8 → Level) (hr : cfg.hasReadLevel = true)
    (hlen : n ≤ cfg.bufLen) :
    Stretch .read cfg n (PhaseDone c ⟨.csLow, i, j⟩ b m) (BeforeByte c n n 0#8 (readInto c.order l m n))
      ((answersOf l n).flatMap (readBitEvents c)) (answersOf l n) (32 * n) := by
  have hfirst : Stretch .read cfg n (PhaseDone c ⟨.csLow, i, j⟩ b m) (BeforeByte c n 0 0#8 m) [] [] 0 :=
    firstByte_runs fun _ => rfl
  have hbyte (k : Fin n) : Stretch .read cfg n (BeforeByte c n k 0#8 (readInto c.order l m k))
      (BeforeByte c n (k + 1) 0#8 (readInto c.order l m (k + 1)))
      (((List.finRange 8).map (l k)).flatMap (readBitEvents c)) ((List.finRange 8).map (l k)) 32 := by
    rw [BeforeByte, if_pos k.isLt]
    simpa [readInto] using (readByte_runs hr k (l k)).trans (nextByte_read_runs k.isLt hlen)
  rw [answersOf, List.flatMap_assoc]
  simpa using hfirst.trans (Stretch.iterate (P := fun k => BeforeByte c n k 0#8 (readInto c.order l m k)) hbyte)

/-! The frame. -/

/-- The command is over, and the buffer is as given. -/
structure Finished (m : Memory) (s : State) : Prop where
  notBusy : s.busy = false
  phase : s.seq.phase = .idle
  buf : s.buf = m

theorem finish_runs {i : Nat} {j : Fin 8} :
    Stretch op cfg n (PhaseDone c ⟨.guardWait, i, j⟩ b m) (Finished m) [] [] 0 := by
  intro s rest _ hs _ _
  have hr := hs.serving
  have hstep : step s = .next (finish s) :=
    step_advance_next hr.noReset hr.busy hr.noWait hr.noAnswer hs.port (by simp only [advance, hs.seq])
  have hprogress : Progress s (finish s) [] [] 0 :=
    { Progress.refl s with
      leads := Leads.step hstep
      waits := fun m hm => WaitsOk.of_eq (s := s) (by simpa using hm) rfl rfl }
  exact ⟨finish s, hprogress, rfl, rfl, hs.buf⟩

/-- A transaction from its first phase to its end, around its bytes. -/
theorem frame_runs {i : Nat} {j : Fin 8} {b' : Byte} {m' : Memory} {es : List Event} {lv : List Level}
    (hbytes : Stretch op cfg n (PhaseDone c ⟨.csLow, i, j⟩ b m) (BeforeByte c n n b' m') es lv (32 * n)) :
    Stretch op cfg n (AtPhase c ⟨.preMosi, i, j⟩ b m) (Finished m')
      (openingEvents (presetsMosi op cfg) c ++ es ++ closingEvents c) lv (3 + 32 * n) := by
  have hclose : Stretch op cfg n (BeforeByte c n n b' m') (Finished m') (closingEvents c) [] 2 := by
    intro s rest hc hs
    rw [BeforeByte, if_neg (Nat.lt_irrefl n)] at hs
    obtain ⟨i, j, b, hs⟩ := hs
    exact ((closing_runs i j).trans finish_runs) s rest hc hs
  rw [show 3 + 32 * n = 1 + 32 * n + 2 by omega]
  simpa using ((opening_runs i j).trans hbytes).trans hclose

end

/-! The launch. -/

/-- The state a transaction starts in: launched, its operands copied, and the first phase's requests on the port. -/
def transferStart (op : Opcode) (c : Context) (s : State) : State :=
  let t := { launch op s with tBus := s.reg .aBus, tSize := s.reg .aSize, seq := { s.seq with phase := .preMosi } }
  issue (rowOf c t) t

theorem transferStart_carries (op : Opcode) (c : Context) (s : State) :
    Carries op s.cfg (s.reg .aSize) (transferStart op c s) := ⟨rfl, rfl, rfl⟩

section

variable {s : State} {c : Context}

theorem TransferReady.exec_write (h : TransferReady c s) (hm : s.buf.allWritten (s.reg .aSize) = true) :
    exec .write s = .next (transferStart .write c s) := by
  have hr := transferRefusals_none h.holds h.inBank h.context h.valid h.size
  exact (execWrite_runs h.ready.notBusy hr hm).trans (startTransfer_runs h.context)

theorem TransferReady.exec_read (h : TransferReady c s) (hl : s.cfg.hasReadLevel = true) :
    exec .read s = .next (transferStart .read c s) := by
  have hr := transferRefusals_none h.holds h.inBank h.context h.valid h.size
  exact (execRead_runs h.ready.notBusy hr hl).trans (startTransfer_runs h.context)

theorem TransferReady.atPhase (h : TransferReady c s) (op : Opcode) :
    AtPhase c ⟨.preMosi, s.seq.byteIdx, s.seq.bitIdx⟩ s.curByte s.buf (transferStart op c s) where
  serving :=
    { noReset := h.ready.noReset, busy := rfl, noWait := h.ready.noWait, noAnswer := h.ready.noAnswer
      context := h.context, pins := ⟨h.pins.mosi, h.pins.clk, h.pins.cs, h.pins.miso⟩ }
  row := rfl
  seq := rfl
  curByte := rfl
  buf := rfl

/-- A launched WRITE whose waits end ok runs to its end with the events of R83 and leaves the buffer as it was. -/
theorem TransferReady.write_runs (h : TransferReady c s) (hm : s.buf.allWritten (s.reg .aSize) = true)
    (hw : WaitsOk (3 + 32 * s.reg .aSize) s) :
    ∃ u, Progress (transferStart .write c s) u (writeEvents c (bytesOf s.buf (s.reg .aSize))) []
      (3 + 32 * s.reg .aSize) ∧ Finished s.buf u :=
  frame_runs (writeBytes_run _ _ hm) _ _ (transferStart_carries .write c s) (h.atPhase .write) rfl
    (hw.of_eq rfl rfl)

/-- A launched READ whose waits end ok and that is answered `l` runs to its end with the events of R96 and has stored
the bytes composed of the answers. -/
theorem TransferReady.read_runs (h : TransferReady c s) (hl : s.cfg.hasReadLevel = true) (l : Nat → Fin 8 → Level)
    {rest : List Level} (hls : s.levelsIn = answersOf l (s.reg .aSize) ++ rest)
    (hw : WaitsOk (3 + 32 * s.reg .aSize) s) :
    ∃ u, Progress (transferStart .read c s) u
        (readEvents s.cfg.readPresetsMosi c (answersOf l (s.reg .aSize))) (answersOf l (s.reg .aSize))
        (3 + 32 * s.reg .aSize) ∧
      Finished (readInto c.order l s.buf (s.reg .aSize)) u :=
  frame_runs (readBytes_run _ _ l hl h.size) _ rest (transferStart_carries .read c s) (h.atPhase .read) hls
    (hw.of_eq rfl rfl)

end

/-! The answers as a list. -/

/-- The answer to the PINGET of byte `k`, bit `j`, from the levels in order. -/
def answerAt (levels : List Level) (k : Nat) (j : Fin 8) : Level := levels.getD (8 * k + j) 0#1

theorem answersOf_answerAt {levels : List Level} {n : Nat} (h : 8 * n ≤ levels.length) :
    answersOf (answerAt levels) n = levels.take (8 * n) := by
  induction n with
  | zero => rfl
  | succ n ih =>
    have hlast : (List.finRange 8).map (answerAt levels n) = (levels.drop (8 * n)).take 8 := by
      apply List.ext_getElem
      · simp
        omega
      · intro j hj _
        have hj8 : j < 8 := by simpa using hj
        simp [answerAt, List.getElem?_eq_getElem (show 8 * n + j < levels.length by omega)]
    rw [Nat.mul_succ, List.take_add, ← ih (by omega), ← hlast]
    simp [answersOf, List.finRange_succ_last (n := n), List.flatMap_map]

end Sys2Proof.Machine
end

section
/-! PROOFS, the clock and chip-select after a transaction: the level a pin is left at is that of the last event that sets
it. -/

namespace Sys2Proof.Machine

theorem outAfter_concat_pinSet (p : Pin) (l : Level) (es : List Event) (o : Option Level) :
    outAfter p (es ++ [.pinSet p l]) o = some l := by
  simp [outAfter, outStep]

/-- Sequences of events each of which leaves a level as it was leave it as it was. -/
theorem outAfter_flatMap {α : Type} {p : Pin} {o : Option Level} {f : α → List Event} {xs : List α}
    (h : ∀ x ∈ xs, outAfter p (f x) o = o) : outAfter p (xs.flatMap f) o = o := by
  induction xs with
  | nil => rfl
  | cons x xs ih =>
    rw [List.flatMap_cons, outAfter_append, h x (by simp), ih fun y hy => h y (by simp [hy])]

/-- A bit of a WRITE ends with the clock's trailing edge. -/
theorem outAfter_clk_writeBit (c : Context) (v : Level) (o : Option Level) :
    outAfter c.clk (writeBitEvents c v) o = some c.cpol := by
  rw [writeBitEvents]
  split
  · exact outAfter_concat_pinSet c.clk (idleLevel c) [_, _, _, _, _, _] o
  · exact outAfter_concat_pinSet c.clk (idleLevel c) [_, _, _, _, _, _] o

/-- A bit of a READ ends with the clock's trailing edge. -/
theorem outAfter_clk_readBit (c : Context) (l : Level) (o : Option Level) :
    outAfter c.clk (readBitEvents c l) o = some c.cpol := by
  rw [readBitEvents]
  split
  · exact outAfter_concat_pinSet c.clk (idleLevel c) [_, _, _, _, _, _] o
  · exact outAfter_concat_pinSet c.clk (idleLevel c) [_, _, _, _, _, _] o

/-- A frame whose bits leave the clock idle leaves it idle and chip-select high, whatever the levels before. -/
theorem outAfter_frame {c : Context} (presets : Bool) {es : List Event} (hne : c.clk ≠ c.cs)
    (hes : outAfter c.clk es (some c.cpol) = some c.cpol) (o o' : Option Level) :
    outAfter c.clk (openingEvents presets c ++ es ++ closingEvents c) o = some c.cpol ∧
    outAfter c.cs (openingEvents presets c ++ es ++ closingEvents c) o' = some high := by
  have hopen : outAfter c.clk (openingEvents presets c) o = some c.cpol := by
    cases presets <;> simp [openingEvents, outAfter, outStep, quarter, idleLevel, hne.symm]
  have hclose : outAfter c.clk (closingEvents c) (some c.cpol) = some c.cpol :=
    outAfter_of_none (by simp [closingEvents, Event.sets, quarter, hne])
  refine ⟨?_, ?_⟩
  · rw [outAfter_append, outAfter_append, hopen, hes, hclose]
  · rw [outAfter_append]
    simp [closingEvents, outAfter, outStep, quarter]

theorem outAfter_writeEvents {c : Context} (bytes : List Byte) (hne : c.clk ≠ c.cs) (o o' : Option Level) :
    outAfter c.clk (writeEvents c bytes) o = some c.cpol ∧ outAfter c.cs (writeEvents c bytes) o' = some high :=
  outAfter_frame true hne
    (outAfter_flatMap fun _ _ => outAfter_flatMap fun v _ => outAfter_clk_writeBit c v _) o o'

theorem outAfter_readEvents {c : Context} (presets : Bool) (levels : List Level) (hne : c.clk ≠ c.cs)
    (o o' : Option Level) :
    outAfter c.clk (readEvents presets c levels) o = some c.cpol ∧
    outAfter c.cs (readEvents presets c levels) o' = some high :=
  outAfter_frame presets hne (outAfter_flatMap fun l _ => outAfter_clk_readBit c l _) o o'

/-- Settles O33: the pins' levels follow the events of the run, in which the last level of the clock is CPOL, set by the
last bit or, in an empty frame, by the opening, and chip-select is set high by the closing. -/
theorem clockIsIdleAfterATransaction : Obligations.ClockIsIdleAfterATransaction := by
  intro s c h hpins hw
  have hne : c.clk ≠ c.cs := by
    simp only [pinsDiffer, Bool.and_eq_true, bne_iff_ne] at hpins
    exact hpins.2
  refine ⟨fun hm => ?_, fun hl hlen => ?_⟩
  · obtain ⟨u, hu, hend⟩ := h.write_runs hm hw
    obtain ⟨hclk, hcs⟩ := outAfter_writeEvents (bytesOf s.buf (s.reg .aSize)) hne (s.outOf c.clk) (s.outOf c.cs)
    exact ⟨_, u, h.exec_write hm, hu.leads, hend.notBusy, hu.err, (hu.outs _).trans hclk, (hu.outs _).trans hcs⟩
  · have hls : s.levelsIn =
        answersOf (answerAt s.levelsIn) (s.reg .aSize) ++ s.levelsIn.drop (8 * s.reg .aSize) := by
      rw [answersOf_answerAt hlen, List.take_append_drop]
    obtain ⟨u, hu, hend⟩ := h.read_runs hl (answerAt s.levelsIn) hls hw
    obtain ⟨hclk, hcs⟩ := outAfter_readEvents s.cfg.readPresetsMosi (answersOf (answerAt s.levelsIn) (s.reg .aSize))
      hne (s.outOf c.clk) (s.outOf c.cs)
    exact ⟨_, u, h.exec_read hl, hu.leads, hend.notBusy, hu.err, (hu.outs _).trans hclk, (hu.outs _).trans hcs⟩

end Sys2Proof.Machine
end

section
/-! PROOFS, the delay engine: what a wait asks the engine for and that it is monotone, what WAIT does, how WAITNS and
WAITMS run to their end, and that under SPIN nothing fails. -/

namespace Sys2Proof.Machine

/-! What the delay engine is asked for. -/

theorem waitRequest_spin {cfg : Config} (d : Nat) (h : cfg.strategy = .spin) :
    waitRequest cfg d = .spin (spinCount cfg d) := by
  simp only [waitRequest, h]

theorem waitRequest_sleep {cfg : Config} (d : Nat) (h : cfg.strategy = .sleep) :
    waitRequest cfg d = .nanosleep (splitDuration d).1 (splitDuration d).2 := by
  simp only [waitRequest, h]

theorem waitMsRequest_spin {cfg : Config} (ms : Nat) (h : cfg.strategy = .spin) :
    waitMsRequest cfg ms = .spin (spinCount cfg (ms * 1000000)) := by
  simp only [waitMsRequest, h]

theorem waitMsRequest_sleep {cfg : Config} (ms : Nat) (h : cfg.strategy = .sleep) :
    waitMsRequest cfg ms = .usleep (ms * 1000) := by
  simp only [waitMsRequest, h]

theorem spinCount_ceilFormula {cfg : Config} (d : Nat) (h : cfg.spinModel = .ceilFormula) :
    spinCount cfg d = (d * cfg.cyclesPerUs + 999) / 1000 := by
  simp only [spinCount, h]

theorem spinCount_platform {cfg : Config} (d : Nat) (h : cfg.spinModel = .platform) :
    spinCount cfg d = platformSpin cfg.cyclesPerUs d := by
  simp only [spinCount, h]

/-- A platform's count is a sum of increments, so it never decreases (`41_delay_engine.md` R72). -/
theorem platformSpin_monotone (cycles : Nat) : Monotone (platformSpin cycles) :=
  monotone_nat_of_le_succ fun _ => Nat.le_add_right _ _

theorem spinCount_monotone (cfg : Config) : Monotone (spinCount cfg) := by
  intro d₁ d₂ h
  cases hm : cfg.spinModel with
  | ceilFormula =>
    rw [spinCount_ceilFormula d₁ hm, spinCount_ceilFormula d₂ hm]
    gcongr
  | platform =>
    rw [spinCount_platform d₁ hm, spinCount_platform d₂ hm]
    exact platformSpin_monotone _ h

theorem splitDuration_eq (d : Nat) : splitDuration d = (d / 1000000000, d % 1000000000) := rfl

theorem splitDuration_recompose (d : Nat) : (splitDuration d).1 * 1000000000 + (splitDuration d).2 = d :=
  Nat.div_add_mod' d 1000000000

/-- Settles O9: SPLIT is division with remainder by `CARRY_DIVISOR`, and 32 bits hold less than five of it. -/
theorem splitIsExact : Obligations.SplitIsExact := by
  refine ⟨fun d hd => ?_, rfl, fun cfg d hs => waitRequest_sleep d hs⟩
  have hd : d < 4294967296 := hd
  refine ⟨rfl, rfl, ?_, ?_, splitDuration_recompose d, fun hsmall => ?_⟩
  · rw [splitDuration_eq]
    omega
  · rw [splitDuration_eq]
    omega
  · rw [splitDuration_eq, Nat.div_eq_of_lt (by omega), Nat.mod_eq_of_lt (by omega)]

/-- Settles O10: under SPIN it is the monotonicity of `spinCount`, and under SLEEP the pair requested is the duration
itself. -/
theorem delaysAreMonotone : Obligations.DelaysAreMonotone := by
  intro cfg d₁ d₂ h
  refine ⟨fun hs => ?_, fun hs => ?_⟩
  · exact ⟨_, _, waitRequest_spin d₁ hs, waitRequest_spin d₂ hs, spinCount_monotone cfg h⟩
  · refine ⟨_, _, _, _, waitRequest_sleep d₁ hs, waitRequest_sleep d₂ hs, ?_⟩
    rwa [splitDuration_recompose, splitDuration_recompose]

/-- Settles O55: the formula's `+ 999` rounds the quotient up. -/
theorem spinTakesTheDefaultCount : Obligations.SpinTakesTheDefaultCount := by
  intro cfg d hs hm
  have hwait : waitRequest cfg d = .spin ((d * cfg.cyclesPerUs + 999) / 1000) := by
    rw [waitRequest_spin d hs, spinCount_ceilFormula d hm]
  refine ⟨hwait, ⟨_, hwait, ?_, ?_⟩, ?_⟩
  · omega
  · omega
  · rw [waitMsRequest_spin d hs, spinCount_ceilFormula _ hm]

/-! WAIT. -/

/-- Settles O17: a wait that ends ok settles to the state the engine leaves. -/
theorem waitCompletes : Obligations.WaitCompletes := by
  intro s d ho
  have hrun := execWait_settles d s
  rw [ho, settleWait_ok] at hrun
  refine ⟨_, hrun, rfl, rfl, rfl, fun hs => ?_, fun rest hs hrest => ?_, rfl⟩
  · rw [engineOutcome_spin hs]
    exact ⟨rfl, rfl⟩
  · rw [engineOutcome_sleep hs hrest]
    exact ⟨rfl, rfl⟩

/-! WAITNS and WAITMS. -/

/-- A WAITNS or WAITMS runs: it stands in phase DLY, ERR still cleared by the launch (`41_delay_engine.md` R78, R79). -/
structure Delaying (s : State) : Prop where
  noReset : s.resetLine = false
  busy : s.busy = true
  noAnswer : s.answer = none
  phase : s.seq.phase = .dly
  err : s.err = .ok
  notTransfer : s.inTransaction = false

/-- The step that settles the only wait of a WAITNS or WAITMS leads to the command's end with the outcome in ERR: at the
next step where it is ok, and at once where it is a failure (`60_exceptions.md` R126). -/
theorem Delaying.leads_of_settleWait {s t : State} {o : WaitOutcome} (ht : Delaying t) (he : t.engine = none)
    (hp : t.port = []) (hstep : step s = settleWait o t) : Leads s (finishWithError o t) := by
  by_cases ho : o = .ok
  · subst ho
    have hend : step t = .next (finish t) := by
      rw [step_advance ht.noReset ht.busy he ht.noAnswer hp, advance, ht.phase]
    have heq : finishWithError .ok t = finish t := by rw [finishWithError, ← ht.err]
    rw [heq]
    exact (Leads.step hstep).trans (Leads.step hend)
  · have heq : issue [] (finishWithError o t) = finishWithError o t := by
      rw [issue, List.map_nil, ← hp]
      rfl
    rw [settleWait_other ho ht.notTransfer, heq] at hstep
    exact Leads.step hstep

/-- A command in DLY whose WAIT is the only request on the port runs to its end with the outcome in ERR. -/
theorem Delaying.leads_of_request {s : State} {d : Nat} (hs : Delaying s) (he : s.engine = none)
    (hp : s.port = [encode (.wait d)]) (hd : d < 2 ^ durW) :
    Leads s (finishWithError (engineOutcome s).1
      { s with
        port := []
        engine := none
        trace := s.trace ++ [.wait d (engineOutcome s).1]
        engineLog := s.engineLog ++ [(waitRequest s.cfg d, (engineOutcome s).1)]
        outcomesIn := (engineOutcome s).2.outcomesIn
        draws := (engineOutcome s).2.draws }) := by
  obtain ⟨ho, houtcomes, hdraws⟩ := engineOutcome_congr (s := s) (t := { s with port := [] }) rfl rfl rfl
  have hstep := (step_request hs.noReset hs.busy he hs.noAnswer hp (decode_wait hd)).trans (execWait_settles d _)
  rw [ho, houtcomes, hdraws] at hstep
  exact Delaying.leads_of_settleWait ⟨hs.noReset, hs.busy, hs.noAnswer, hs.phase, hs.err, hs.notTransfer⟩ rfl rfl
    hstep

/-- A command in DLY whose wait the engine has in progress, with no request on the port, likewise. -/
theorem Delaying.leads_of_engine {s : State} {r : EngineReq} (hs : Delaying s) (he : s.engine = some r)
    (hp : s.port = []) :
    Leads s (finishWithError (engineOutcome s).1
      { s with
        engine := none
        engineLog := s.engineLog ++ [(r, (engineOutcome s).1)]
        outcomesIn := (engineOutcome s).2.outcomesIn
        draws := (engineOutcome s).2.draws }) :=
  Delaying.leads_of_settleWait ⟨hs.noReset, hs.busy, hs.noAnswer, hs.phase, hs.err, hs.notTransfer⟩ rfl hp
    ((step_engine hs.noReset hs.busy he).trans (finishWait_settles he))

/-- Settles O34: the launch puts one WAIT on the port, which takes the outcome the environment had for it before the
launch. -/
theorem waitNsCompletes : Obligations.WaitNsCompletes := by
  intro s hs hx hd
  have hdelay : Delaying (issue [.wait (s.reg .aDur)] (goto .dly (launch .waitns s))) :=
    ⟨hs.noReset, rfl, hs.noAnswer, rfl, rfl, rfl⟩
  have hend := hdelay.leads_of_request hs.noWait rfl hd
  obtain ⟨ho, houtcomes, hdraws⟩ := engineOutcome_congr (s := s)
    (t := issue [.wait (s.reg .aDur)] (goto .dly (launch .waitns s))) rfl rfl rfl
  rw [ho, houtcomes, hdraws] at hend
  exact ⟨_, _, execWaitNs_runs hs.notBusy (hx .aDur (by simp)), rfl, rfl, hend,
    rfl, rfl, rfl, rfl, rfl, rfl, rfl, rfl, rfl, rfl, rfl, rfl, rfl, rfl, rfl⟩

theorem exec_waitms_durationTooLarge {s : State} (hb : s.busy = false) (hw : s.written .aDur = true)
    (hd : maxMilliseconds < s.reg .aDur) : exec .waitms s = .refused .durationTooLarge := by
  simp [exec, execWaitMs, launchCommand, readsOperands, firstRefusal, hb, hw, hd]

/-- Settles O35: the launch begins the wait in the engine, which ends with the outcome the environment had for it before
the launch. -/
theorem waitMsCompletes : Obligations.WaitMsCompletes := by
  intro s hs hx
  have hw : s.written .aDur = true := hx .aDur (by simp)
  refine ⟨fun hd => ?_, exec_waitms_durationTooLarge hs.notBusy hw⟩
  have hdelay : Delaying (issue [] (beginWait (waitMsRequest s.cfg (s.reg .aDur)) (goto .dly (launch .waitms s)))) :=
    ⟨hs.noReset, rfl, hs.noAnswer, rfl, rfl, rfl⟩
  have hend := hdelay.leads_of_engine rfl rfl
  obtain ⟨ho, houtcomes, hdraws⟩ := engineOutcome_congr (s := s)
    (t := issue [] (beginWait (waitMsRequest s.cfg (s.reg .aDur)) (goto .dly (launch .waitms s)))) rfl rfl rfl
  rw [ho, houtcomes, hdraws] at hend
  exact ⟨_, _, _, execWaitMs_runs hs.notBusy hw hd, rfl, rfl, rfl, waitMsRequest_sleep _, waitMsRequest_spin _, hend,
    rfl, rfl, rfl, rfl, rfl, rfl, rfl, rfl, rfl, rfl, rfl, rfl, rfl, rfl, rfl⟩

/-! Under SPIN nothing fails. -/

/-- Where the sequencer is in no abort, its step to the next phase keeps ERR and begins no abort: only the end of an
abort writes ERR (`60_exceptions.md` R125). -/
theorem advance_keeps_err {s t : State} (h : advance s = .next t) (hq : s.seq.phase ≠ .abortCs) :
    t.err = s.err ∧ t.seq.phase ≠ .abortCs := by
  rcases advance_next h with ⟨-, rfl⟩ | ⟨habort, -⟩ | ⟨c, q, b, m, -, -, hq', -, rfl⟩
  · simp
  · exact absurd habort hq
  · simpa using hq'

/-- Settles O47: ERR changes and an abort begins only where a wait fails, which takes SLEEP, and at the end of an abort,
which the invariant excludes; reset and every launch clear ERR. -/
theorem spinNeverFails : Obligations.SpinNeverFails := by
  intro s t hs h hspin
  have hspin : s.cfg.strategy = .spin := noStepChangesTheConfiguration s t h ▸ hspin
  have hsleep : s.cfg.strategy ≠ .sleep := by simp [hspin]
  obtain ⟨herr, hphase⟩ := hs hspin
  cases stepKind_of_step h with
  | reset => exact ⟨rfl, nofun⟩
  | endOfWait _ _ h =>
    obtain ⟨-, -, -, -, -, -, -, -, -, -, ⟨-, hq, he, -⟩ | ⟨hs, -⟩⟩ := finishWait_changes h
    · exact ⟨he.trans herr, hq ▸ hphase⟩
    · exact absurd hs hsleep
  | request _ _ _ hi h =>
    obtain ⟨-, -, -, -, -, -, -, -, -, -, -, -, ⟨-, hq, he, -⟩ | ⟨hs, -⟩⟩ := micro_changes hi h
    · exact ⟨he.trans herr, hq ▸ hphase⟩
    · exact absurd hs hsleep
  | advance _ _ _ _ h =>
    obtain ⟨he, hq⟩ := advance_keeps_err h hphase
    exact ⟨he.trans herr, hq⟩
  | command _ _ _ hd h =>
    obtain ⟨-, -, -, -, -, he, -, -, hq, -⟩ := command_changes (decode_cmd_format hd) h
    exact ⟨he, hq⟩
  | answer | idle | writeReg | writeBuf | hostRead => exact ⟨herr, hphase⟩

end Sys2Proof.Machine
end

section
/-! PROOFS, a running transaction never stops: each kind of step it can make answers a next state in which it still runs
or is over. -/

namespace Sys2Proof.Machine

theorem inTransaction_iff {s : State} :
    s.inTransaction = true ↔ s.busy = true ∧ (s.tOp = .write ∨ s.tOp = .read) := by
  simp [State.inTransaction]

/-- A step of a transaction on `c` answers a next state in which it still runs or is over, and which has the contexts,
the directions and the operand registers of `s`. -/
def GoesOn (c : Context) (s : State) (r : Res) : Prop :=
  ∃ t, r = .next t ∧ (TransferRunning c t ∨ (t.busy = false ∧ t.seq.phase = .idle)) ∧
    t.ctx = s.ctx ∧ t.dirs = s.dirs ∧ t.x = s.x

section

variable {c : Context} {s : State}

theorem TransferRunning.busy (hs : TransferRunning c s) : s.busy = true := (inTransaction_iff.1 hs.running).1

theorem TransferRunning.write_of_ne_read (hs : TransferRunning c s) (h : s.tOp ≠ .read) : s.tOp = .write :=
  (inTransaction_iff.1 hs.running).2.resolve_right h

theorem TransferRunning.serving (hs : TransferRunning c s) (ha : s.answer = none) : Serving c s where
  noReset := hs.noReset
  busy := hs.busy
  noWait := hs.noWait
  noAnswer := ha
  context := hs.context
  pins := hs.pins

/-! The requests of a phase. -/

theorem pinget_not_mem_writeRow (c : Context) (b : Byte) (q : Seq) : .pinget c.miso ∉ writeRow c b q := by
  rcases BitVec.eq_zero_or_eq_one c.cpha with h | h <;> cases hp : q.phase <;> simp [writeRow, hp, h]

/-- What a running transaction has on the port: requests that cannot fail, and in a READ those for the level of MISO. -/
theorem transferRow_servable (hs : TransferRunning c s) (ha : s.answer = none) {i : Instr}
    (hi : i ∈ transferRow c s) : (i = .pinget c.miso ∧ s.tOp = .read) ∨ Servable s i := by
  rw [transferRow] at hi
  split at hi
  · obtain rfl := List.mem_singleton.1 hi
    exact .inr hs.pins.cs
  · rcases phaseRow_servable (op := s.tOp) (cfg := s.cfg) (b := s.curByte) (q := s.seq) (hs.serving ha) i hi with
      rfl | hok
    · refine .inl ⟨rfl, ?_⟩
      by_contra hne
      rw [rowOf, if_neg hne] at hi
      exact pinget_not_mem_writeRow _ _ _ hi
    · exact .inr hok

theorem decode_servable {i : Instr} (hi : Servable s i) : decode .req (encode i) = .ok i := by
  cases i with
  | pinset p l => exact decode_pinset p l
  | wait d => exact decode_wait hi
  | _ => exact hi.elim

/-- The requests left on the port of a running transaction are requests of its phase, the first of them next. -/
theorem TransferRunning.port_cons (hs : TransferRunning c s) {w : Nat} {rest : List Nat} (hp : s.port = w :: rest) :
    ∃ i ∈ transferRow c s, w = encode i ∧ TransferRunning c { s with port := rest } := by
  obtain ⟨k, hk⟩ := hs.requests
  rw [hp] at hk
  obtain ⟨i, is, hdrop, hw, hrest⟩ := List.map_eq_cons_iff.1 hk.symm
  refine ⟨i, List.mem_of_mem_drop (hdrop ▸ List.mem_cons_self), hw.symm,
    { hs with pins := { hs.pins with }, requests := ⟨k + 1, ?_⟩ }⟩
  have htail : (transferRow c s).drop (k + 1) = is := by rw [← List.tail_drop, hdrop, List.tail_cons]
  exact (htail ▸ hrest).symm

/-- A wait that settles lets the transaction go on, or begins its abort. -/
theorem TransferRunning.settleWait_goesOn {t : State} (ht : TransferRunning c t) (o : WaitOutcome)
    (hctx : t.ctx = s.ctx) (hdirs : t.dirs = s.dirs) (hx : t.x = s.x) : GoesOn c s (settleWait o t) := by
  by_cases ho : o = .ok
  · exact ⟨t, by rw [ho, settleWait_ok], .inl ht, hctx, hdirs, hx⟩
  · refine ⟨_, settleWait_transaction ho ht.running ht.context, .inl ?_, hctx, hdirs, hx⟩
    exact { ht with pins := { ht.pins with }, phase := rfl, index := nofun, requests := ⟨0, rfl⟩ }

/-- A request of the transaction is carried out, whatever the environment answers. -/
theorem TransferRunning.exec_goesOn (hs : TransferRunning c s) {i : Instr}
    (hi : (i = .pinget c.miso ∧ s.tOp = .read) ∨ Servable s i) : GoesOn c s (exec i s) := by
  rcases hi with ⟨rfl, hr⟩ | hi
  · refine ⟨_, execPinGet_runs (hs.canRead hr) hs.pins.miso.1 hs.pins.miso.2, .inl ?_, by simp, by simp, by simp⟩
    rw [drawLevel_frame]
    exact { hs with pins := { hs.pins with } }
  · cases i with
    | pinset p l =>
      exact ⟨_, execPinSet_runs hi.1 hi.2, .inl { hs with pins := { hs.pins with } }, rfl, rfl, rfl⟩
    | wait d =>
      simp only [exec, execWait_settles]
      refine TransferRunning.settleWait_goesOn ?_ _ rfl rfl rfl
      exact { hs with noWait := rfl, pins := { hs.pins with } }
    | _ => exact hi.elim

theorem TransferRunning.takeAnswer_goesOn (hs : TransferRunning c s) (l : Level) : GoesOn c s (takeAnswer l s) := by
  simp only [takeAnswer, hs.context]
  split
  · next hr =>
    refine ⟨_, rfl, .inl { hs with pins := { hs.pins with }, requests := ?_ }, rfl, rfl, rfl⟩
    simpa [transferRow, rowOf, hr] using hs.requests
  · exact ⟨_, rfl, .inl { hs with pins := { hs.pins with } }, rfl, rfl, rfl⟩

/-! The step to the next phase. -/

/-- The sequencer goes to a position of the transaction, CUR_BYTE and, in a READ, the buffer as the step leaves them. -/
theorem TransferRunning.enter_goesOn (hs : TransferRunning c s) {q : Seq} {b : Byte} {m : Memory}
    (hm : s.tOp = .write → m = s.buf) (hq : q.phase.inTransfer = true) (hne : q.phase ≠ .abortCs)
    (hi : q.phase.inBit = true → q.byteIdx < s.tSize) : GoesOn c s (enter q { s with curByte := b, buf := m }) := by
  refine ⟨_, enter_of_ctx (s := { s with curByte := b, buf := m }) hs.context, .inl ?_, rfl, rfl, rfl⟩
  exact { hs with
    pins := { hs.pins with }
    phase := hq
    index := hi
    bytes := fun hw => (congrArg (·.allWritten s.tSize) (hm hw)).trans (hs.bytes hw)
    requests := ⟨0, by simp [transferRow, hne]; rfl⟩ }

theorem TransferRunning.enterPhase_goesOn (hs : TransferRunning c s) {ph : Phase} (hq : ph.inTransfer = true)
    (hne : ph ≠ .abortCs) (hi : ph.inBit = true → s.seq.phase.inBit = true) : GoesOn c s (enterPhase ph s) :=
  hs.enter_goesOn (b := s.curByte) (fun _ => rfl) hq hne fun h => hs.index (hi h)

/-- A byte below the size can be started: a WRITE finds it in the buffer. -/
theorem TransferRunning.startByte_goesOn (hs : TransferRunning c s) {i : Nat} {m : Memory}
    (hm : s.tOp = .write → m = s.buf) (hi : i < s.tSize) : GoesOn c s (startByte i { s with buf := m }) := by
  have hload : ∃ b, Loads s.tOp m i b := by
    by_cases hr : s.tOp = .read
    · exact ⟨0#8, by rw [Loads, if_pos hr]⟩
    · have hw := hs.write_of_ne_read hr
      obtain ⟨b, hb⟩ := (Memory.allWritten_iff _ _).1 (hs.bytes hw) i hi
      exact ⟨b, by rw [Loads, if_neg hr, hm hw, hb]⟩
  obtain ⟨b, hb⟩ := hload
  rw [startByte_runs (s := { s with buf := m }) hb]
  exact hs.enter_goesOn hm rfl (by simp) fun _ => hi

theorem TransferRunning.nextByte_goesOn (hs : TransferRunning c s) {m : Memory}
    (hm : s.tOp = .write → m = s.buf) : GoesOn c s (nextByte { s with buf := m }) := by
  unfold nextByte
  split
  · exact hs.startByte_goesOn hm ‹_›
  · exact hs.enter_goesOn (b := s.curByte) hm rfl (by simp) (by simp [Phase.inBit])

/-- The end of a byte: the byte a READ stores exists, because its index is below the size, and a WRITE stores none. -/
theorem TransferRunning.storeByte_next (hs : TransferRunning c s) (hi : s.seq.byteIdx < s.tSize) :
    ∃ m, storeByte s = .next { s with buf := m } ∧ (s.tOp = .write → m = s.buf) := by
  by_cases hr : s.tOp = .read
  · have hlt : s.seq.byteIdx < s.cfg.bufLen := Nat.lt_of_lt_of_le hi hs.size
    exact ⟨_, by rw [storeByte, if_pos hr, storeBuf, if_pos hlt], by simp [hr]⟩
  · exact ⟨s.buf, by rw [storeByte, if_neg hr], fun _ => rfl⟩

theorem TransferRunning.nextBit_goesOn (hs : TransferRunning c s) (hi : s.seq.byteIdx < s.tSize) :
    GoesOn c s (nextBit s) := by
  unfold nextBit
  split
  · exact hs.enter_goesOn (b := s.curByte) (fun _ => rfl) rfl (by simp) fun _ => hi
  · obtain ⟨m, hstore, hm⟩ := hs.storeByte_next hi
    rw [hstore, andThen_next]
    exact hs.nextByte_goesOn hm

/-- The step to the next phase: the transaction ends after its guard wait and after its abort, and goes on from every
other phase. -/
theorem TransferRunning.advance_goesOn (hs : TransferRunning c s) : GoesOn c s (advance s) := by
  have htransfer := hs.phase
  cases hp : s.seq.phase <;> simp only [advance, hp]
  case idle | init | dly => simp [hp, Phase.inTransfer] at htransfer
  case guardWait | abortCs => exact ⟨_, rfl, .inr ⟨rfl, rfl⟩, rfl, rfl, rfl⟩
  case csLow =>
    split
    · exact hs.startByte_goesOn (m := s.buf) (fun _ => rfl) ‹_›
    · exact hs.enterPhase_goesOn rfl (by simp) (by simp [Phase.inBit])
  case dAct => exact hs.nextBit_goesOn (hs.index (by rw [hp]; rfl))
  all_goals exact hs.enterPhase_goesOn rfl (by simp) (by simp [hp, Phase.inBit])

end

/-- Settles O50: the step takes an answer, carries out a request of the phase or goes to the next phase, and a wait that
fails only begins the abort. -/
theorem runningTransferNeverStops : Obligations.RunningTransferNeverStops := by
  intro s c hs
  change GoesOn c s (step s)
  cases ha : s.answer with
  | some l =>
    rw [step_answer hs.noReset hs.busy hs.noWait ha]
    exact hs.takeAnswer_goesOn l
  | none =>
    cases hp : s.port with
    | nil =>
      rw [step_advance hs.noReset hs.busy hs.noWait ha hp]
      exact hs.advance_goesOn
    | cons w rest =>
      obtain ⟨i, hi, rfl, hrest⟩ := hs.port_cons hp
      have hok := transferRow_servable hrest ha hi
      have hd : decode .req (encode i) = .ok i := by
        rcases hok with ⟨rfl, -⟩ | hok
        · exact decode_pinget _
        · exact decode_servable hok
      rw [step_request hs.noReset hs.busy hs.noWait ha hp hd]
      exact hrest.exec_goesOn hok

end Sys2Proof.Machine
end

section
/-! PROOFS, operand arithmetic of the transactions: the quarter-cycle time and the two bit orders. -/

namespace Sys2Proof.Machine

/-- Settles O8: the floor bounds the product, and the quotient falls as its divisor grows, which is 4 at `f = 1` and at
least 8 above it. -/
theorem quarterCycleBounds : Obligations.QuarterCycleBounds := by
  intro f h1 hmax
  have hmax : f ≤ 1073741823 := hmax
  have hct : quarterCycle f = 1000000000 / (f * 4) := rfl
  have hprod : 4 * quarterCycle f * f ≤ 1000000000 := by
    rw [hct, show 4 * (1000000000 / (f * 4)) * f = 1000000000 / (f * 4) * (f * 4) by ring]
    exact Nat.div_mul_le_self _ _
  have hzero : quarterCycle f = 0 ↔ 250000000 < f := by
    rw [hct, Nat.div_eq_zero_iff]
    omega
  have hmost : quarterCycle f ≤ 250000000 := Nat.div_le_div_left (show 4 ≤ f * 4 by omega) (by decide)
  have hone : 999999999 < 4 * quarterCycle f ↔ f = 1 := by
    refine ⟨fun h => ?_, fun h => by rw [h]; decide⟩
    by_contra hne
    have hhalf : quarterCycle f ≤ 125000000 := Nat.div_le_div_left (show 8 ≤ f * 4 by omega) (by decide)
    omega
  exact ⟨by omega, hct, hmost, hprod, hzero, by omega, by simp only [durW]; omega, hone⟩

/-- The bit an MSBFirst transfer sends in an iteration is the one an LSBFirst transfer sends in the opposite one. -/
theorem wireBit_msbFirst (b : Byte) (j : Fin 8) : wireBit .msbFirst b j = wireBit .lsbFirst b j.rev := by
  simp only [wireBit, bitPos, Fin.val_rev]
  congr 2
  omega

theorem wireBits_msbFirst (b : Byte) : wireBits .msbFirst b = (wireBits .lsbFirst b).reverse := by
  rw [wireBits, wireBits, ← List.map_reverse, List.finRange_reverse, List.map_map]
  exact List.map_congr_left fun j _ => wireBit_msbFirst b j

theorem wireBits_lsbFirst (b : Byte) :
    wireBits .lsbFirst b = (List.range 8).map fun p => BitVec.ofBool (b.getLsbD p) := by
  rw [wireBits, ← List.map_coe_finRange_eq_range, List.map_map]
  rfl

/-- Settles O11: BITPOS of the one order in iteration `j` is BITPOS of the other in iteration `7 - j`. -/
theorem bitOrdersAreReversed : Obligations.BitOrdersAreReversed :=
  ⟨fun _ => ⟨rfl, rfl⟩, by decide, by decide, fun b => ⟨wireBits_msbFirst b, wireBits_lsbFirst b⟩⟩

end Sys2Proof.Machine
end

section
/-! PROOFS, a completed WRITE: its run from the launch to the end, and what its events add up to. -/

namespace Sys2Proof.Machine

/-! The run, for the bytes of the buffer given as a list. -/

section

variable {m : Memory} {n : Nat} {bytes : List Byte}

theorem allWritten_of_reads (hlen : bytes.length = n) (hread : ∀ i, i < n → m.read i = bytes[i]?) :
    m.allWritten n = true :=
  (Memory.allWritten_iff m n).2 fun i hi => ⟨bytes[i], by rw [hread i hi, List.getElem?_eq_getElem]⟩

theorem bytesOf_eq_of_reads (hlen : bytes.length = n) (hread : ∀ i, i < n → m.read i = bytes[i]?) :
    bytesOf m n = bytes := by
  subst hlen
  refine List.ext_getElem (by simp [bytesOf]) fun i _ hi => ?_
  simp [bytesOf, byteAt, hread i hi, List.getElem?_eq_getElem hi]

end

/-- A launched WRITE of these bytes whose waits end ok runs to its end with the events of R83. -/
theorem TransferReady.write_bytes_run {s : State} {c : Context} {bytes : List Byte} (h : TransferReady c s)
    (hlen : bytes.length = s.reg .aSize) (hread : ∀ i, i < s.reg .aSize → s.buf.read i = bytes[i]?)
    (hw : WaitsOk (3 + 32 * s.reg .aSize) s) :
    exec .write s = .next (transferStart .write c s) ∧
    ∃ u, Progress (transferStart .write c s) u (writeEvents c bytes) [] (3 + 32 * s.reg .aSize) ∧
      Finished s.buf u := by
  have hm := allWritten_of_reads hlen hread
  have hrun := h.write_runs hm hw
  rw [bytesOf_eq_of_reads hlen hread] at hrun
  exact ⟨h.exec_write hm, hrun⟩

/-! Counts and sums over the events. -/

/-- The events between the opening and the closing of a WRITE: those of its bits. -/
def dataEvents (c : Context) (bytes : List Byte) : List Event :=
  bytes.flatMap fun b => (wireBits c.order b).flatMap (writeBitEvents c)

theorem writeEvents_eq (c : Context) (bytes : List Byte) :
    writeEvents c bytes = openingEvents true c ++ dataEvents c bytes ++ closingEvents c := rfl

/-- A quantity of event sequences that is added up when they are put one after the other. -/
structure AddsUp (μ : List Event → Nat) : Prop where
  nil : μ [] = 0
  append : ∀ es es', μ (es ++ es') = μ es + μ es'

theorem addsUp_countP (p : Event → Bool) : AddsUp (List.countP p) := ⟨rfl, fun _ _ => List.countP_append⟩

theorem addsUp_length : AddsUp List.length := ⟨rfl, fun _ _ => List.length_append⟩

theorem addsUp_sum (f : Event → Nat) : AddsUp fun es => (es.map f).sum := ⟨rfl, fun _ _ => by simp⟩

section

variable {μ : List Event → Nat}

theorem AddsUp.cons_cons (h : AddsUp μ) (e e' : Event) (es : List Event) :
    μ (e :: e' :: es) = μ [e] + μ (e' :: es) := h.append [e] (e' :: es)

theorem AddsUp.of_flatMap (h : AddsUp μ) {α : Type} {f : α → List Event} {k : Nat} (hf : ∀ x, μ (f x) = k)
    (xs : List α) : μ (xs.flatMap f) = k * xs.length := by
  induction xs with
  | nil => exact h.nil
  | cons x xs ih => rw [List.flatMap_cons, h.append, hf, ih, List.length_cons, Nat.mul_succ, Nat.add_comm]

theorem wireBits_length (order : BitOrder) (b : Byte) : (wireBits order b).length = 8 := by simp [wireBits]

/-- The events of a bit are the same seven in both clock phases, in different order. -/
theorem AddsUp.of_bit (h : AddsUp μ) (c : Context) (v : Level) :
    μ (writeBitEvents c v) = μ [.pinSet c.mosi v] + μ [.pinSet c.clk (activeLevel c)] +
      μ [.pinSet c.clk (idleLevel c)] + 4 * μ [quarter c] := by
  rw [writeBitEvents]
  split
  · simp only [h.cons_cons]
    omega
  · simp only [h.cons_cons]
    omega

/-- Eight times as much for a byte as for a bit. -/
theorem AddsUp.of_data (h : AddsUp μ) {c : Context} {k : Nat} (hbit : ∀ v, μ (writeBitEvents c v) = k)
    (bytes : List Byte) : μ (dataEvents c bytes) = k * 8 * bytes.length :=
  h.of_flatMap (fun b => by rw [h.of_flatMap hbit, wireBits_length]) bytes

/-- A WRITE's quantity, from those of its opening, of one bit and of its closing. -/
theorem AddsUp.of_write (h : AddsUp μ) {c : Context} {a k z : Nat} (hopen : μ (openingEvents true c) = a)
    (hbit : ∀ v, μ (writeBitEvents c v) = k) (hclose : μ (closingEvents c) = z) (bytes : List Byte) :
    μ (writeEvents c bytes) = a + k * 8 * bytes.length + z := by
  rw [writeEvents_eq, h.append, h.append, h.of_data hbit, hopen, hclose]

end

end Sys2Proof.Machine
end

section
/-! PROOFS, what a completed WRITE has done: its frame, the counts of its events, and its chip-select. -/

namespace Sys2Proof.Machine

/-- A bit drives MOSI once and sets the clock twice, and no other pin. -/
theorem countP_sets_writeBit (p : Pin) (c : Context) (v : Level) :
    (writeBitEvents c v).countP (Event.sets p) = (if p = c.mosi then 1 else 0) + 2 * (if p = c.clk then 1 else 0) := by
  rw [(addsUp_countP _).of_bit]
  simp only [List.countP_singleton, Event.sets, quarter, beq_iff_eq, Bool.false_eq_true, if_false]
  omega

/-- Between the two PINSETs of chip-select each bit drives MOSI once and sets the clock twice, and the last quarter cycle
sets nothing. -/
theorem countP_sets_frame (p : Pin) (c : Context) (bytes : List Byte) :
    (dataEvents c bytes ++ [quarter c]).countP (Event.sets p) =
      ((if p = c.mosi then 1 else 0) + 2 * (if p = c.clk then 1 else 0)) * 8 * bytes.length := by
  rw [(addsUp_countP _).append, (addsUp_countP _).of_data (countP_sets_writeBit p c)]
  rfl

/-- No event of a WRITE sets a pin other than MOSI, the clock and chip-select. -/
theorem countP_sets_writeEvents_of_ne {c : Context} {p : Pin} (hmosi : p ≠ c.mosi) (hclk : p ≠ c.clk)
    (hcs : p ≠ c.cs) (bytes : List Byte) : (writeEvents c bytes).countP (Event.sets p) = 0 := by
  have hopen : (openingEvents true c).countP (Event.sets p) = 0 := by
    simp [openingEvents, quarter, Event.sets, hmosi, hclk, hcs]
  have hbit (v : Level) : (writeBitEvents c v).countP (Event.sets p) = 0 := by
    rw [countP_sets_writeBit, if_neg hmosi, if_neg hclk]
  have hclose : (closingEvents c).countP (Event.sets p) = 0 := by
    simp [closingEvents, quarter, Event.sets, hcs]
  simpa using (addsUp_countP _).of_write hopen hbit hclose bytes

/-- A WRITE requests one quarter cycle before chip-select, four in each bit, and five after the last. -/
theorem requested_writeEvents (c : Context) (bytes : List Byte) :
    ((writeEvents c bytes).map Event.requested).sum = (32 * bytes.length + 6) * busTime c := by
  have hopen : ((openingEvents true c).map Event.requested).sum = busTime c := by
    simp [openingEvents, quarter, Event.requested]
  have hbit (v : Level) : ((writeBitEvents c v).map Event.requested).sum = 4 * busTime c := by
    rw [(addsUp_sum _).of_bit]
    simp [quarter, Event.requested]
  have hclose : ((closingEvents c).map Event.requested).sum = 5 * busTime c := by
    simp [closingEvents, quarter, Event.requested]
    omega
  rw [(addsUp_sum _).of_write hopen hbit hclose]
  ring

/-- Settles O27: the launch and the run it begins, in which only the events of R83 set pins. -/
theorem writeCompletes : Obligations.WriteCompletes := by
  intro s c bytes h hlen hread hw
  obtain ⟨hlaunch, u, hu, hend⟩ := h.write_bytes_run hlen hread hw
  refine ⟨_, u, hlaunch, rfl, hu.leads, hu.trace, hend.notBusy, hu.err, hend.phase, hend.buf, hu.ctx, hu.x, hu.dirs,
    hu.levels.symm, hu.hostQueue, fun p hmosi hclk hcs => ?_⟩
  rw [hu.outs, outAfter_of_none (countP_sets_writeEvents_of_ne hmosi hclk hcs bytes)]
  rfl

/-- Settles O29: each count is that of the opening and the closing and, for each of `8n` bits, that of a bit. -/
theorem writeEventCounts : Obligations.WriteEventCounts := by
  intro s c bytes h hlen hread hw
  obtain ⟨hlaunch, u, hu, hend⟩ := h.write_bytes_run hlen hread hw
  have hsets := (addsUp_countP Event.isPinSet).of_write (a := 3) (k := 3) (z := 1)
    rfl ((addsUp_countP _).of_bit c) rfl bytes
  have hwaits := (addsUp_countP Event.isWait).of_write (a := 1) (k := 4) (z := 2)
    rfl ((addsUp_countP _).of_bit c) rfl bytes
  have hgets := (addsUp_countP Event.isPinGet).of_write (a := 0) (k := 0) (z := 0)
    rfl ((addsUp_countP _).of_bit c) rfl bytes
  have hall := addsUp_length.of_write (a := 4) (k := 7) (z := 3) rfl (addsUp_length.of_bit c) rfl bytes
  rw [hlen] at hsets hwaits hgets hall
  refine ⟨_, u, writeEvents c bytes, hlaunch, hu.leads, hend.notBusy, hu.trace, by omega, by omega, by omega,
    by omega, ?_⟩
  rw [requested_writeEvents, hlen]
  rfl

/-- Settles O30: the one PINSET of chip-select in the opening is its last event, and in the closing only waits stand
around the other. -/
theorem chipSelectFramesTheWrite : Obligations.ChipSelectFramesTheWrite := by
  intro s c bytes h hpins hlen hread hw
  obtain ⟨hlaunch, u, hu, hend⟩ := h.write_bytes_run hlen hread hw
  simp only [pinsDiffer, Bool.and_eq_true, bne_iff_ne] at hpins
  obtain ⟨⟨⟨⟨⟨-, hmc⟩, hms⟩, -⟩, -⟩, hcs⟩ := hpins
  refine ⟨_, u, [.pinSet c.mosi low, .pinSet c.clk (idleLevel c), quarter c], dataEvents c bytes ++ [quarter c],
    [.wait (4 * busTime c) .ok], hlaunch, hu.leads, hend.notBusy, ?_, ?_, ?_, rfl, ?_, ?_, rfl, ?_⟩
  · rw [hu.trace, writeEvents_eq]
    simp [openingEvents, closingEvents, transferStart]
  · simp [Event.sets, quarter, hms.symm, hcs.symm]
  · rw [countP_sets_frame, if_neg hms.symm, if_neg hcs.symm]
    omega
  · rw [countP_sets_frame, if_neg hmc.symm, if_pos rfl, hlen]
  · rw [countP_sets_frame, if_pos rfl, if_neg hmc, hlen]
  · rw [hu.outs]
    exact (outAfter_writeEvents bytes hcs none _).2

end Sys2Proof.Machine
end

section
/-! PROOFS, the byte a READ composes: each answer stands at its bit's position, and the eight positions are all of a
byte. -/

namespace Sys2Proof.Machine

theorem bitPos_lt (order : BitOrder) (j : Fin 8) : bitPos order j < 8 := by
  cases order with
  | msbFirst => exact (show 7 - j.val < 8 by omega)
  | lsbFirst => exact j.isLt

theorem bitPos_inj {order : BitOrder} {i j : Fin 8} : bitPos order i = bitPos order j ↔ i = j := by
  cases order <;> simp only [bitPos] <;> omega

/-- Every position of a byte is that of some iteration. -/
theorem exists_bitPos_eq (order : BitOrder) {p : Nat} (hp : p < 8) : ∃ j, bitPos order j = p := by
  cases order with
  | msbFirst => exact ⟨⟨7 - p, by omega⟩, (show 7 - (7 - p) = p by omega)⟩
  | lsbFirst => exact ⟨⟨p, hp⟩, rfl⟩

/-- Two bytes that agree at the position of every iteration are equal. -/
theorem eq_of_bits_at_bitPos {order : BitOrder} {b b' : Byte}
    (h : ∀ j, b.getLsbD (bitPos order j) = b'.getLsbD (bitPos order j)) : b = b' := by
  refine BitVec.eq_of_getLsbD_eq fun p hp => ?_
  obtain ⟨j, rfl⟩ := exists_bitPos_eq order hp
  exact h j

/-- An answer is or-ed into the bit of its own iteration and into no other. -/
theorem composeBit_getLsbD (order : BitOrder) (b : Byte) (i j : Fin 8) (l : Level) :
    (composeBit order b i l).getLsbD (bitPos order j) =
      (b.getLsbD (bitPos order j) || (decide (j = i) && l.getLsbD 0)) := by
  have hj := bitPos_lt order j
  rw [composeBit, BitVec.getLsbD_or, BitVec.getLsbD_shiftLeft, BitVec.getLsbD_setWidth]
  by_cases hij : j = i
  · subst hij
    simp [hj]
  · have hne : bitPos order j ≠ bitPos order i := mt bitPos_inj.1 hij
    rcases Nat.lt_or_gt_of_ne hne with hlt | hlt
    · simp [hij, hlt]
    · have hbit : l.getLsbD (bitPos order j - bitPos order i) = false := BitVec.getLsbD_of_ge _ _ (by omega)
      simp [hij, hbit]

/-- After the iterations `js` the bits of these iterations hold their answers besides what they held before. -/
theorem foldl_composeBit_getLsbD (order : BitOrder) (l : Fin 8 → Level) (js : List (Fin 8)) (b : Byte) (j : Fin 8) :
    (js.foldl (fun b i => composeBit order b i (l i)) b).getLsbD (bitPos order j) =
      (b.getLsbD (bitPos order j) || (decide (j ∈ js) && (l j).getLsbD 0)) := by
  induction js generalizing b with
  | nil => simp
  | cons i js ih =>
    rw [List.foldl_cons, ih, composeBit_getLsbD]
    by_cases hij : j = i
    · subst hij
      cases (l j).getLsbD 0 <;> simp
    · simp [hij]

theorem composed_eight (order : BitOrder) (l : Fin 8 → Level) :
    composed order l 8 = (List.finRange 8).foldl (fun b j => composeBit order b j (l j)) 0#8 := rfl

/-- A composed byte has each answer at its bit's position (`43_read.md` R103). -/
theorem composed_bit (order : BitOrder) (l : Fin 8 → Level) (j : Fin 8) :
    BitVec.ofBool ((composed order l 8).getLsbD (bitPos order j)) = l j := by
  rw [composed_eight, foldl_composeBit_getLsbD, BitVec.getLsbD_zero, decide_eq_true (List.mem_finRange j)]
  rcases BitVec.eq_zero_or_eq_one (l j) with h | h <;> simp [h]

/-- Settles O12: each answer stands at its bit's position, and the bits at these positions determine the byte. -/
theorem readComposesWhatItSamples : Obligations.ReadComposesWhatItSamples := by
  intro order l
  have hbit := composed_bit order l
  rw [composed_eight] at hbit
  refine ⟨hbit, fun b hb => eq_of_bits_at_bitPos (order := order) fun j => ?_⟩
  exact BitVec.ofBool_eq_iff_eq.1 ((hbit j).trans (hb j))

end Sys2Proof.Machine
end

section
/-! PROOFS, a completed READ: its run from the launch to the end, the bytes it leaves in the buffer, and what its events
add up to. -/

namespace Sys2Proof.Machine

/-! The bytes. -/

section

variable {order : BitOrder} {l : Nat → Fin 8 → Level} {m : Memory} {n i : Nat}

/-- Each of the `n` bytes is stored once, and no later store touches it (`43_read.md` R99). -/
theorem readInto_read_of_lt (hi : i < n) :
    (readInto order l m n).read i = some (composed order (l i) 8) := by
  induction n with
  | zero => omega
  | succ n ih =>
    rw [readInto]
    by_cases hin : i = n
    · subst hin
      exact Memory.read_write_self ..
    · rw [Memory.read_write_other _ hin, ih (by omega)]

/-- The stores of a READ end below its size. -/
theorem readInto_read_of_le (hi : n ≤ i) : (readInto order l m n).read i = m.read i := by
  induction n with
  | zero => rfl
  | succ n ih => rw [readInto, Memory.read_write_other _ (by omega), ih (by omega)]

end

theorem getElem?_eq_answerAt {levels : List Level} {i : Nat} {j : Fin 8} (h : 8 * i + j < levels.length) :
    levels[8 * i + j.val]? = some (answerAt levels i j) := by
  rw [answerAt, List.getD_eq_getElem _ _ h, List.getElem?_eq_getElem h]

/-! The run, for the levels given as a list. -/

/-- A launched READ whose waits end ok and that is answered these levels runs to its end with the events of R96 and has
stored the bytes composed of them. -/
theorem TransferReady.read_levels_run {s : State} {c : Context} {levels rest : List Level} (h : TransferReady c s)
    (hl : s.cfg.hasReadLevel = true) (hls : s.levelsIn = levels ++ rest) (hlen : levels.length = 8 * s.reg .aSize)
    (hw : WaitsOk (3 + 32 * s.reg .aSize) s) :
    exec .read s = .next (transferStart .read c s) ∧
    ∃ u, Progress (transferStart .read c s) u (readEvents s.cfg.readPresetsMosi c levels) levels
        (3 + 32 * s.reg .aSize) ∧
      Finished (readInto c.order (answerAt levels) s.buf (s.reg .aSize)) u := by
  have hanswers : answersOf (answerAt levels) (s.reg .aSize) = levels := by
    rw [answersOf_answerAt hlen.ge, ← hlen, List.take_length]
  have hrun := h.read_runs hl (answerAt levels) (rest := rest) (by rw [hanswers, hls]) hw
  rw [hanswers] at hrun
  exact ⟨h.exec_read hl, hrun⟩

/-! Counts and sums over the events. -/

section

variable {μ : List Event → Nat}

/-- The events of a bit of a READ are the same seven in both clock phases, in different order. -/
theorem AddsUp.of_readBit (h : AddsUp μ) (c : Context) (l : Level) :
    μ (readBitEvents c l) = μ [.pinGet c.miso l] + μ [.pinSet c.clk (activeLevel c)] +
      μ [.pinSet c.clk (idleLevel c)] + 4 * μ [quarter c] := by
  rw [readBitEvents]
  split
  · simp only [h.cons_cons]
    omega
  · simp only [h.cons_cons]
    omega

/-- A READ's quantity, from those of its opening, of one bit and of its closing. -/
theorem AddsUp.of_read (h : AddsUp μ) {presets : Bool} {c : Context} {a k z : Nat}
    (hopen : μ (openingEvents presets c) = a) (hbit : ∀ l, μ (readBitEvents c l) = k)
    (hclose : μ (closingEvents c) = z) (levels : List Level) :
    μ (readEvents presets c levels) = a + k * levels.length + z := by
  rw [readEvents, h.append, h.append, h.of_flatMap hbit, hopen, hclose]

/-- A READ's quantity where it is `e` for each PINSET, `g` for each PINGET, `w` for a quarter cycle and `v` for the guard
wait. -/
theorem AddsUp.of_read_kinds (h : AddsUp μ) {c : Context} {e g w v : Nat} (hset : ∀ p l, μ [.pinSet p l] = e)
    (hget : ∀ l, μ [.pinGet c.miso l] = g) (hquarter : μ [quarter c] = w) (hguard : μ [.wait (4 * busTime c) .ok] = v)
    (presets : Bool) (levels : List Level) :
    μ (readEvents presets c levels) = ((if presets then 4 else 3) + 2 * levels.length) * e + levels.length * g +
      (2 + 4 * levels.length) * w + v := by
  have hopen : μ (openingEvents presets c) = (if presets then 3 else 2) * e + w := by
    rw [openingEvents, h.append]
    cases presets
    · simp only [Bool.false_eq_true, if_false, h.nil, h.cons_cons, hset, hquarter]
      omega
    · simp only [if_true, h.cons_cons, hset, hquarter]
      omega
  have hbit (l : Level) : μ (readBitEvents c l) = g + 2 * e + 4 * w := by
    rw [h.of_readBit, hget, hset, hset, hquarter]
    omega
  have hclose : μ (closingEvents c) = w + e + v := by
    simp only [closingEvents, h.cons_cons, hset, hquarter, hguard]
    omega
  rw [h.of_read hopen hbit hclose]
  split <;> ring

end

/-- No event of a READ sets a pin other than MOSI, the clock and chip-select. -/
theorem countP_sets_readEvents_of_ne {c : Context} {p : Pin} (hmosi : p ≠ c.mosi) (hclk : p ≠ c.clk)
    (hcs : p ≠ c.cs) (presets : Bool) (levels : List Level) :
    (readEvents presets c levels).countP (Event.sets p) = 0 := by
  have hopen : (openingEvents presets c).countP (Event.sets p) = 0 := by
    cases presets <;> simp [openingEvents, quarter, Event.sets, hmosi, hclk, hcs]
  have hbit (l : Level) : (readBitEvents c l).countP (Event.sets p) = 0 := by
    rw [(addsUp_countP _).of_readBit]
    simp [quarter, Event.sets, hclk]
  have hclose : (closingEvents c).countP (Event.sets p) = 0 := by
    simp [closingEvents, quarter, Event.sets, hcs]
  simpa using (addsUp_countP _).of_read hopen hbit hclose levels

end Sys2Proof.Machine
end

section
/-! PROOFS, what a completed READ has done: its bytes and its frame, the counts of its events, and what its bytes depend
on. -/

namespace Sys2Proof.Machine

/-- Settles O28: the launch and the run it begins, which stores below `A_SIZE` the bytes composed of the levels and in
which only the events of R96 set pins. -/
theorem readCompletes : Obligations.ReadCompletes := by
  intro s c levels rest h hl hls hlen hw
  obtain ⟨hlaunch, u, hu, hend⟩ := h.read_levels_run hl hls hlen hw
  have hrest : u.levelsIn = rest := List.append_cancel_left (hu.levels.symm.trans hls)
  refine ⟨_, u, hlaunch, rfl, hu.leads, hu.trace, fun i hi => ?_, fun i hi => ?_, hend.notBusy, hu.err, hend.phase,
    hu.ctx, hu.x, hu.dirs, hrest, hu.hostQueue, fun p hmosi hclk hcs => ?_⟩
  · refine ⟨composed c.order (answerAt levels i) 8, by rw [hend.buf, readInto_read_of_lt hi], fun j => ?_⟩
    rw [composed_bit, getElem?_eq_answerAt (by omega)]
  · rw [hend.buf, readInto_read_of_le hi]
  · rw [hu.outs, outAfter_of_none (countP_sets_readEvents_of_ne hmosi hclk hcs _ levels)]
    rfl

/-- Settles O31: each count is that of the opening and the closing and, for each of `8n` bits, that of a bit. -/
theorem readEventCounts : Obligations.ReadEventCounts := by
  intro s c levels rest h hl hls hlen hw
  obtain ⟨hlaunch, u, hu, hend⟩ := h.read_levels_run hl hls hlen hw
  have hall := addsUp_length.of_read_kinds (c := c) (e := 1) (g := 1) (w := 1) (v := 1)
    (fun _ _ => rfl) (fun _ => rfl) rfl rfl s.cfg.readPresetsMosi levels
  have hgets := (addsUp_countP Event.isPinGet).of_read_kinds (c := c) (e := 0) (g := 1) (w := 0) (v := 0)
    (fun _ _ => rfl) (fun _ => rfl) rfl rfl s.cfg.readPresetsMosi levels
  have hsets := (addsUp_countP Event.isPinSet).of_read_kinds (c := c) (e := 1) (g := 0) (w := 0) (v := 0)
    (fun _ _ => rfl) (fun _ => rfl) rfl rfl s.cfg.readPresetsMosi levels
  have hwaits := (addsUp_countP Event.isWait).of_read_kinds (c := c) (e := 0) (g := 0) (w := 1) (v := 1)
    (fun _ _ => rfl) (fun _ => rfl) rfl rfl s.cfg.readPresetsMosi levels
  have htime := (addsUp_sum Event.requested).of_read_kinds (c := c) (e := 0) (g := 0) (w := busTime c)
    (v := 4 * busTime c) (fun _ _ => rfl) (fun _ => rfl) rfl rfl s.cfg.readPresetsMosi levels
  have hct : busTime c = 1000000000 / (c.freq * 4) := rfl
  refine ⟨_, u, _, hlaunch, hu.leads, hend.notBusy, hu.trace, ?_, by omega, ?_, by omega, ?_⟩
  · rw [hall]
    split <;> omega
  · rw [hsets]
    split <;> omega
  · rw [htime, hlen, hct]
    ring

/-- Settles O32: the byte at an index is composed of its answers under ORDER, in both runs alike. -/
theorem readBytesDependOnlyOnAnswersAndOrder : Obligations.ReadBytesDependOnlyOnAnswersAndOrder := by
  intro s₁ s₂ c₁ c₂ levels rest₁ rest₂ h₁ hl₁ hls₁ hw₁ h₂ hl₂ hls₂ hw₂ hlen hsize horder
  obtain ⟨hlaunch₁, u₁, hu₁, hend₁⟩ := h₁.read_levels_run hl₁ hls₁ hlen hw₁
  obtain ⟨hlaunch₂, u₂, hu₂, hend₂⟩ := h₂.read_levels_run hl₂ hls₂ (hsize ▸ hlen) hw₂
  refine ⟨_, u₁, _, u₂, hlaunch₁, hu₁.leads, hend₁.notBusy, hu₁.err, hlaunch₂, hu₂.leads, hend₂.notBusy, hu₂.err,
    fun i hi => ?_⟩
  have hread₁ : u₁.buf.read i = some (composed c₁.order (answerAt levels i) 8) := by
    rw [hend₁.buf, readInto_read_of_lt hi]
  have hread₂ : u₂.buf.read i = some (composed c₂.order (answerAt levels i) 8) := by
    rw [hend₂.buf, readInto_read_of_lt (hsize ▸ hi)]
  rw [hread₁, hread₂, horder]
  exact ⟨rfl, rfl⟩

end Sys2Proof.Machine
end

section
/-! PROOFS, the launch: what every launched command sets and leaves alone, and each case in which CONSTRUCT, DERIVE, WRITE
and READ are refused. -/

namespace Sys2Proof.Machine

/-! What a launch sets. -/

theorem format_of_opcodeOf {i : Instr} {op : Opcode} (h : opcodeOf i = some op) : i.format = .cmd := by
  cases i <;> simp [opcodeOf, Instr.format] at h ⊢

/-- The launch of a transaction copies its operands (`44_bus_facade.md` R108). -/
theorem startTransfer_copies {op : Opcode} {s t : State} (h : startTransfer (launch op s) = .next t) :
    t.tOp = op ∧ t.trace = s.trace ∧ t.hostQueue = s.hostQueue ∧ t.tBus = s.reg .aBus ∧ t.tSize = s.reg .aSize := by
  obtain ⟨c, -, rfl⟩ := startTransfer_next h
  exact ⟨rfl, rfl, rfl, rfl, rfl⟩

/-- What `command_changes` leaves unsaid: a launch needs a free host, keeps its opcode, adds no event and takes no action
of the host's queue. -/
theorem command_launches {i : Instr} {op : Opcode} {s t : State} (hop : opcodeOf i = some op)
    (h : exec i s = .next t) :
    s.busy = false ∧ t.tOp = op ∧ t.trace = s.trace ∧ t.hostQueue = s.hostQueue ∧
    (op = .write ∨ op = .read → t.tBus = s.reg .aBus ∧ t.tSize = s.reg .aSize) := by
  cases i <;> cases hop
  case construct =>
    obtain ⟨hb, -, rfl⟩ := execConstruct_next h
    exact ⟨hb, rfl, rfl, rfl, by simp⟩
  case derive =>
    obtain ⟨hb, -, src, -, rfl⟩ := execDerive_next h
    exact ⟨hb, rfl, rfl, rfl, by simp⟩
  case write =>
    obtain ⟨hb, -, -, h⟩ := execWrite_next h
    obtain ⟨hop, htrace, hqueue, hcopies⟩ := startTransfer_copies h
    exact ⟨hb, hop, htrace, hqueue, fun _ => hcopies⟩
  case read =>
    obtain ⟨hb, -, -, h⟩ := execRead_next h
    obtain ⟨hop, htrace, hqueue, hcopies⟩ := startTransfer_copies h
    exact ⟨hb, hop, htrace, hqueue, fun _ => hcopies⟩
  case waitns =>
    obtain ⟨hb, -, rfl⟩ := execWaitNs_next h
    exact ⟨hb, rfl, rfl, rfl, by simp⟩
  case waitms =>
    obtain ⟨hb, -, -, rfl⟩ := execWaitMs_next h
    exact ⟨hb, rfl, rfl, rfl, by simp⟩

/-- Settles O20: what a launch changes and what it sets, the bank only in CONSTRUCT and DERIVE. -/
theorem launchSetsStatus : Obligations.LaunchSetsStatus := by
  intro s t i op hop h
  obtain ⟨hb, htop, htrace, hqueue, hcopies⟩ := command_launches hop h
  obtain ⟨hcfg, hx, hbuf, hdirs, houts, herr, hbusy, -, -, -, hctx⟩ := command_changes (format_of_opcodeOf hop) h
  refine ⟨hb, hbusy, herr, htop, hcopies, fun hc hd => ?_, hcfg, hx, hbuf, hdirs, houts, htrace, hqueue⟩
  rcases hctx with hctx | ⟨rfl, -⟩ | ⟨rfl, -⟩
  · exact hctx
  · exact absurd (Option.some.inj hop).symm hc
  · exact absurd (Option.some.inj hop).symm hd

/-! What is refused at launch. -/

theorem pinsDiffer_of_equal {mosi miso clk cs : Pin}
    (h : mosi = miso ∨ mosi = clk ∨ mosi = cs ∨ miso = clk ∨ miso = cs ∨ clk = cs) :
    pinsDiffer mosi miso clk cs = false := by
  rcases h with rfl | rfl | rfl | rfl | rfl | rfl <;> simp [pinsDiffer]

theorem exec_construct_refused_of_pins {s : State}
    (h : pinsDiffer (s.reg .aMosi) (s.reg .aMiso) (s.reg .aClk) (s.reg .aCs) = false) : Refuses .construct s :=
  exec_construct_refused (r := .equalPins) (by simp [h])

/-- Settles O23: each case of R116 is a condition of CONSTRUCT's list. -/
theorem constructIsRefused : Obligations.ConstructIsRefused := by
  intro s h
  obtain ⟨hunwritten, -⟩ := unwrittenOperandIsRefused s
  rcases h with h | ⟨r, hr, hw⟩ | h | h | h | h
  · exact exec_construct_refused_of_handle h
  · exact hunwritten r (by simp only [List.mem_cons, List.not_mem_nil] at hr ⊢; tauto) hw
  · exact exec_construct_refused_of_mode (by omega)
  · exact exec_construct_refused_of_speed (.inl h)
  · exact exec_construct_refused_of_speed (.inr h)
  · exact exec_construct_refused_of_pins (pinsDiffer_of_equal h)

theorem exec_derive_refused_of_context {s : State} (h : ∀ c, s.ctx[s.reg .aSrc]? = some c → c.valid = false) :
    Refuses .derive s :=
  exec_derive_refused (r := .contextInvalid) (by simp [validCtx_isNone.2 h])

/-- A chip-select among the pins of the source is refused; of a source that is not valid that is refused first. -/
theorem exec_derive_refused_of_chipSelect {s : State} {c : Context} (hc : s.ctx[s.reg .aSrc]? = some c)
    (hp : c.hasPin (s.reg .aCs) = true) : Refuses .derive s := by
  cases hv : c.valid with
  | true => exact exec_derive_refused (r := .chipSelectInUse) (by simp [validCtx_some hc hv, hp])
  | false =>
    refine exec_derive_refused_of_context fun c' hc' => ?_
    rwa [← Option.some.inj (hc.symm.trans hc')]

/-- Settles O25: each case of R121 is a condition of DERIVE's list. -/
theorem deriveIsRefused : Obligations.DeriveIsRefused := by
  intro s h
  obtain ⟨-, hunwritten, -⟩ := unwrittenOperandIsRefused s
  rcases h with h | h | h | h | h | ⟨c, hc, hp⟩
  · exact exec_derive_refused_of_handle (.inl h)
  · exact exec_derive_refused_of_handle (.inr h)
  · exact exec_derive_refused_of_context h
  · exact exec_derive_refused (r := .destinationIsSource) (by simp [h])
  · exact hunwritten .aCs (by simp) h
  · exact exec_derive_refused_of_chipSelect hc (by simpa [Context.hasPin, or_assoc] using hp)

theorem allWritten_eq_false {m : Memory} {n i : Nat} (hi : i < n) (h : m.read i = none) : m.allWritten n = false := by
  by_contra hne
  obtain ⟨b, hb⟩ := (Memory.allWritten_iff m n).1 (by simpa using hne) i hi
  simp [h] at hb

/-- Settles O26: each case of R111 is a condition of the list WRITE and READ share, or of the one's own. -/
theorem transferIsRefused : Obligations.TransferIsRefused := by
  intro s
  obtain ⟨-, -, hunwritten, -⟩ := unwrittenOperandIsRefused s
  refine ⟨fun h => ?_, fun ⟨i, hi, hread⟩ => ?_, fun hl => ?_⟩
  · rcases h with h | h | h | h
    · exact exec_transfer_refused_of_handle h
    · exact exec_transfer_refused (r := .contextInvalid) (by simp [transferRefusals, validCtx_isNone.2 h])
    · exact hunwritten .aSize (by simp) h
    · exact exec_transfer_refused_of_size h
  · exact exec_write_refused (r := .bufferByteUnwritten) (by simp [allWritten_eq_false hi hread])
  · exact exec_read_refused (r := .noReadLevel) (by simp [hl])

end Sys2Proof.Machine
end

section
/-! PROOFS, the hold on the host: while a command runs no step is the host's, and a legal launch of WRITE or READ begins a
running transaction. -/

namespace Sys2Proof.Machine

/-- Settles O42: a busy step is the delay engine's, the sequencer's or a request's; of these only the step to the next
phase writes the buffer. -/
theorem theHostIsHeldWhileBusy : Obligations.TheHostIsHeldWhileBusy := by
  intro s t hb h
  have hr : s.resetLine = false := by
    by_contra hr
    obtain ⟨hfree, -⟩ := step_reset_next (by simpa using hr) h
    simp [hb] at hfree
  rcases step_busy_next hr hb h with ⟨-, h⟩ | ⟨-, l, -, h⟩ | ⟨-, -, w, rest, i, -, hd, h⟩ | ⟨-, -, -, h⟩
  · obtain ⟨-, -, hx, hbuf, hqueue, hreads, -⟩ := finishWait_changes h
    exact ⟨hqueue, hreads, hx, absurd hbuf⟩
  · obtain ⟨c, b, -, -, -, rfl⟩ := takeAnswer_next h
    exact ⟨rfl, rfl, rfl, absurd rfl⟩
  · obtain ⟨-, -, hx, hbuf, hqueue, hreads, -⟩ := micro_changes (decode_req_format hd) h
    exact ⟨hqueue, hreads, hx, absurd hbuf⟩
  · rcases advance_next h with ⟨-, rfl⟩ | ⟨-, rfl⟩ | ⟨c, q, b, m, -, -, -, hm, rfl⟩
    · exact ⟨rfl, rfl, rfl, absurd rfl⟩
    · exact ⟨rfl, rfl, rfl, absurd rfl⟩
    · refine ⟨rfl, rfl, rfl, fun hne => ?_⟩
      obtain ⟨hread, hphase, hbit, -, rfl⟩ := hm.resolve_left hne
      exact ⟨hread, hphase, hbit, fun k hk => Memory.read_write_other _ hk⟩

/-- The first state of a transaction that may be launched is one in which it runs: PRE_MOSI with all its requests. -/
theorem TransferReady.transferStart_running {s : State} {c : Context} {op : Opcode} (h : TransferReady c s)
    (hop : op = .write ∨ op = .read) (hread : op = .read → s.cfg.hasReadLevel = true)
    (hbytes : op = .write → s.buf.allWritten (s.reg .aSize) = true) : TransferRunning c (transferStart op c s) where
  running := inTransaction_iff.2 ⟨rfl, hop⟩
  noReset := h.ready.noReset
  noWait := h.ready.noWait
  context := h.context
  freq := h.freq
  pins := { h.pins with }
  canRead := hread
  phase := rfl
  size := h.size
  index := nofun
  bytes := hbytes
  requests := ⟨0, rfl⟩

/-- Settles O49: the launches answer the transaction's first state. -/
theorem launchBeginsARunningTransfer : Obligations.LaunchBeginsARunningTransfer := by
  intro s c h
  refine ⟨fun hm => ⟨_, h.exec_write hm, ?_⟩, fun hl => ⟨_, h.exec_read hl, ?_⟩⟩
  · exact h.transferStart_running (.inl rfl) nofun fun _ => hm
  · exact h.transferStart_running (.inr rfl) (fun _ => hl) nofun

end Sys2Proof.Machine
end

section
/-! PROOFS, the initialisation of a bus's pins: PINDIRs and PINSETs in phase INIT are carried out one after the other and
end the command, and what they leave; CONSTRUCT and DERIVE are two such lists of requests. -/

namespace Sys2Proof.Machine

/-! PINDIR and PINSET as requests of phase INIT. -/

/-- What a PINDIR or PINSET that is carried out makes of a state (`20_memory.md` R35, R36). -/
def afterPinOp (s : State) : Instr → State
  | .pindir p d => emit (.pinDir p d) (setDir p d s)
  | .pinset p l => emit (.pinSet p l) (setOut p l s)
  | .pinget _ | .wait _ | .construct | .derive | .write | .read | .waitns | .waitms => s

/-- The request is a PINDIR or PINSET that is not refused (R38). -/
def PinOpOk (s : State) : Instr → Prop
  | .pindir p _ => pinExists s.cfg p = true
  | .pinset p _ => pinExists s.cfg p = true ∧ s.dirOf p = some .output
  | .pinget _ | .wait _ | .construct | .derive | .write | .read | .waitns | .waitms => False

/-- None of some requests, carried out in order, is refused. -/
def PinOpsOk (s : State) : List Instr → Prop
  | [] => True
  | i :: is => PinOpOk s i ∧ PinOpsOk (afterPinOp s i) is

theorem exec_pinOp {s : State} {i : Instr} (h : PinOpOk s i) : exec i s = .next (afterPinOp s i) := by
  cases i with
  | pindir p d => exact execPinDir_runs h
  | pinset p l => exact execPinSet_runs h.1 h.2
  | _ => exact h.elim

theorem decode_pinOp {s : State} {i : Instr} (h : PinOpOk s i) : decode .req (encode i) = .ok i := by
  cases i with
  | pindir p d => exact decode_pindir p d
  | pinset p l => exact decode_pinset p l
  | _ => exact h.elim

/-- A command is in phase INIT and it is the turn of the port (`44_bus_facade.md` R114). -/
structure Initialising (s : State) : Prop where
  noReset : s.resetLine = false
  busy : s.busy = true
  noWait : s.engine = none
  noAnswer : s.answer = none
  phase : s.seq.phase = .init

theorem Initialising.of_afterPinOp {s : State} (h : Initialising s) (i : Instr) : Initialising (afterPinOp s i) := by
  cases i <;> exact ⟨h.noReset, h.busy, h.noWait, h.noAnswer, h.phase⟩

/-- The requests on the port are carried out in order, and with the last of them the command ends. -/
theorem Initialising.leads {s : State} {is : List Instr} (h : Initialising s) (hok : PinOpsOk s is) :
    Leads (issue is s) (finish (issue [] (is.foldl afterPinOp s))) := by
  induction is generalizing s with
  | nil =>
    refine .step (step_advance_next h.noReset h.busy h.noWait h.noAnswer rfl ?_)
    simp only [advance, issue_seq, h.phase, List.foldl_nil]
  | cons i is ih =>
    obtain ⟨hi, hrest⟩ := hok
    have hi' : PinOpOk (issue is s) i := by cases i <;> exact hi
    have hcomm : afterPinOp (issue is s) i = issue is (afterPinOp s i) := by cases i <;> rfl
    have hstep : step (issue (i :: is) s) = .next (issue is (afterPinOp s i)) :=
      step_request_next h.noReset h.busy h.noWait h.noAnswer rfl (decode_pinOp hi) (hcomm ▸ exec_pinOp hi')
    exact (Leads.step hstep).trans (ih (h.of_afterPinOp i) hrest)

/-! What a list of them leaves. -/

/-- They change the trace and the pins only. -/
theorem afterPinOps_frame (s : State) (is : List Instr) :
    is.foldl afterPinOp s =
      { s with
        trace := (is.foldl afterPinOp s).trace
        dirs := (is.foldl afterPinOp s).dirs
        outs := (is.foldl afterPinOp s).outs } := by
  induction is generalizing s with
  | nil => rfl
  | cons i is ih =>
    rw [List.foldl_cons, ih]
    cases i <;> rfl

theorem PinOpsOk.trace {s : State} {is : List Instr} (h : PinOpsOk s is) :
    (is.foldl afterPinOp s).trace = s.trace ++ is.map servedEvent := by
  induction is generalizing s with
  | nil => simp
  | cons i is ih =>
    obtain ⟨hi, hrest⟩ := h
    rw [List.foldl_cons, ih hrest]
    cases i with
    | pindir p d => simp [afterPinOp, servedEvent]
    | pinset p l => simp [afterPinOp, servedEvent]
    | _ => exact hi.elim

/-- Where one request at most changes what is read from a state, and always to the same value, a list that has it leaves
that value and another list what was there. -/
theorem read_foldl {α : Type} {read : State → Option α} {v : α} {i₀ : Instr} {is : List Instr} (s : State)
    (h : ∀ i ∈ is, ∀ t, read (afterPinOp t i) = if i = i₀ then some v else read t) :
    read (is.foldl afterPinOp s) = if i₀ ∈ is then some v else read s := by
  induction is generalizing s with
  | nil => simp
  | cons i is ih =>
    rw [List.foldl_cons, ih _ fun j hj => h j (List.mem_cons_of_mem _ hj), h i List.mem_cons_self]
    by_cases hi : i₀ ∈ is
    · simp [hi]
    · simp [hi, eq_comm]

/-- The direction of a pin that requests give one direction only. -/
theorem dirOf_afterPinOps {s : State} {is : List Instr} {p : Pin} {d : Dir}
    (h : ∀ d', .pindir p d' ∈ is → d' = d) :
    (is.foldl afterPinOp s).dirOf p = if .pindir p d ∈ is then some d else s.dirOf p := by
  refine read_foldl (read := (State.dirOf · p)) s fun i hi t => ?_
  cases i with
  | pindir q d' =>
    by_cases hq : p = q
    · subst hq
      obtain rfl := h d' hi
      simp [afterPinOp]
    · simpa [afterPinOp, Ne.symm hq] using setDir_dirOf_other d' t hq
  | _ => simp [afterPinOp]

/-- The level of a pin that requests drive to one level only. -/
theorem outOf_afterPinOps {s : State} {is : List Instr} {p : Pin} {l : Level}
    (h : ∀ l', .pinset p l' ∈ is → l' = l) :
    (is.foldl afterPinOp s).outOf p = if .pinset p l ∈ is then some l else s.outOf p := by
  refine read_foldl (read := (State.outOf · p)) s fun i hi t => ?_
  cases i with
  | pinset q l' =>
    by_cases hq : p = q
    · subst hq
      obtain rfl := h l' hi
      simp [afterPinOp]
    · simpa [afterPinOp, Ne.symm hq] using setOut_outOf_other l' t hq
  | _ => simp [afterPinOp]

theorem dirOf_afterPinOps_other {s : State} {is : List Instr} {p : Pin} (h : ∀ d, .pindir p d ∉ is) :
    (is.foldl afterPinOp s).dirOf p = s.dirOf p := by
  rw [dirOf_afterPinOps (d := .input) fun d hd => absurd hd (h d), if_neg (h _)]

theorem outOf_afterPinOps_other {s : State} {is : List Instr} {p : Pin} (h : ∀ l, .pinset p l ∉ is) :
    (is.foldl afterPinOp s).outOf p = s.outOf p := by
  rw [outOf_afterPinOps (l := low) fun l hl => absurd hl (h l), if_neg (h _)]

/-! CONSTRUCT. -/

/-- `INIT_ORDER` has all six operations, and sets the directions of chip-select and clock before their levels (R114). -/
theorem Config.initOrder_of_wf {cfg : Config} (h : cfg.wf = true) :
    (∀ o, o ∈ cfg.initOrder) ∧ cfg.initOrder.idxOf .csDir < cfg.initOrder.idxOf .csHigh ∧
    cfg.initOrder.idxOf .clkDir < cfg.initOrder.idxOf .clkIdle := by
  simp only [Config.wf, Config.initOrderOk, Bool.and_eq_true, decide_eq_true_eq, List.all_eq_true,
    List.contains_iff_mem] at h
  obtain ⟨-, ⟨⟨-, hall⟩, hcs⟩, hclk⟩ := h
  exact ⟨fun o => hall o (by cases o <;> decide), hcs, hclk⟩

/-- What comes before a later element stands before it in the list. -/
theorem mem_of_idxOf_lt {α : Type} [DecidableEq α] {a b : α} {pre post : List α}
    (h : (pre ++ b :: post).idxOf a < (pre ++ b :: post).idxOf b) : a ∈ pre := by
  by_contra ha
  rw [List.idxOf_append_of_notMem ha, List.idxOf_append] at h
  split at h
  · next hb =>
    have := List.idxOf_lt_length_of_mem hb
    omega
  · simp at h

section

variable {c : Context}

/-- MISO becomes an input and the other three pins become outputs. -/
theorem initRequest_pindir (hne : pinsDiffer c.mosi c.miso c.clk c.cs = true) {o : InitOp} {p : Pin} {d : Dir}
    (h : initRequest c o = .pindir p d) : d = if p = c.miso then .input else .output := by
  simp only [pinsDiffer, Bool.and_eq_true, bne_iff_ne] at hne
  cases o <;> cases h <;> simp [hne, Ne.symm]

/-- Chip-select becomes high and the clock idle. -/
theorem initRequest_pinset (hne : pinsDiffer c.mosi c.miso c.clk c.cs = true) {o : InitOp} {p : Pin} {l : Level}
    (h : initRequest c o = .pinset p l) : l = if p = c.cs then high else idleLevel c := by
  simp only [pinsDiffer, Bool.and_eq_true, bne_iff_ne] at hne
  cases o <;> cases h <;> simp [hne]

/-- An operation of the initialisation that has been carried out has its effect at the end of any list of them. -/
theorem dirOf_initRequests (hne : pinsDiffer c.mosi c.miso c.clk c.cs = true) {os : List InitOp} (s : State)
    {o : InitOp} {p : Pin} {d : Dir} (ho : o ∈ os) (h : initRequest c o = .pindir p d) :
    ((os.map (initRequest c)).foldl afterPinOp s).dirOf p = some d := by
  rw [dirOf_afterPinOps, if_pos (List.mem_map.2 ⟨o, ho, h⟩)]
  intro d' hd'
  obtain ⟨o', -, h'⟩ := List.mem_map.1 hd'
  rw [initRequest_pindir hne h, initRequest_pindir hne h']

theorem outOf_initRequests (hne : pinsDiffer c.mosi c.miso c.clk c.cs = true) {os : List InitOp} (s : State)
    {o : InitOp} {p : Pin} {l : Level} (ho : o ∈ os) (h : initRequest c o = .pinset p l) :
    ((os.map (initRequest c)).foldl afterPinOp s).outOf p = some l := by
  rw [outOf_afterPinOps, if_pos (List.mem_map.2 ⟨o, ho, h⟩)]
  intro l' hl'
  obtain ⟨o', -, h'⟩ := List.mem_map.1 hl'
  rw [initRequest_pinset hne h, initRequest_pinset hne h']

/-- A pin the context does not have is named by none of the operations. -/
theorem pindir_not_mem_initRequests {p : Pin} (hp : c.hasPin p = false) (os : List InitOp) (d : Dir) :
    .pindir p d ∉ os.map (initRequest c) := by
  intro hmem
  obtain ⟨o, -, h⟩ := List.mem_map.1 hmem
  cases o <;> cases h <;> simp [Context.hasPin] at hp

theorem pinset_not_mem_initRequests {p : Pin} (hp : p ≠ c.cs) (hp' : p ≠ c.clk) (os : List InitOp) (l : Level) :
    .pinset p l ∉ os.map (initRequest c) := by
  intro hmem
  obtain ⟨o, -, h⟩ := List.mem_map.1 hmem
  cases o <;> cases h
  · exact hp rfl
  · exact hp' rfl

/-- In an admissible order no operation is refused: when a level is set, the pin's direction is already OUT. -/
theorem initRequests_ok {s : State} (hcfg : s.cfg.wf = true) (hne : pinsDiffer c.mosi c.miso c.clk c.cs = true)
    (hpins : ∀ p, c.hasPin p = true → pinExists s.cfg p = true) {pre post : List InitOp}
    (hsplit : s.cfg.initOrder = pre ++ post) :
    PinOpsOk ((pre.map (initRequest c)).foldl afterPinOp s) (post.map (initRequest c)) := by
  induction post generalizing pre with
  | nil => trivial
  | cons o post ih =>
    obtain ⟨-, hcs, hclk⟩ := Config.initOrder_of_wf hcfg
    rw [hsplit] at hcs hclk
    refine ⟨?_, by simpa using ih (pre := pre ++ [o]) (by simpa using hsplit)⟩
    have hexists : ∀ p, c.hasPin p = true →
        pinExists ((pre.map (initRequest c)).foldl afterPinOp s).cfg p = true := by
      rw [afterPinOps_frame]
      exact hpins
    cases o with
    | csHigh =>
      exact ⟨hexists _ (by simp [Context.hasPin]), dirOf_initRequests hne s (mem_of_idxOf_lt hcs) rfl⟩
    | clkIdle =>
      exact ⟨hexists _ (by simp [Context.hasPin]), dirOf_initRequests hne s (mem_of_idxOf_lt hclk) rfl⟩
    | mosiDir | csDir | misoDir | clkDir => exact hexists _ (by simp [Context.hasPin])

end

theorem initEvent_eq (c : Context) (o : InitOp) : initEvent c o = servedEvent (initRequest c o) := by
  cases o <;> rfl

/-- The context CONSTRUCT writes, with the mode's two bits (`40_mode_decode.md` R59). -/
theorem constructContext_eq (s : State) :
    constructContext s =
      { valid := true
        mosi := s.reg .aMosi
        miso := s.reg .aMiso
        clk := s.reg .aClk
        cs := s.reg .aCs
        cpol := BitVec.ofBool ((s.reg .aMode - 1).testBit 1)
        cpha := BitVec.ofBool ((s.reg .aMode - 1).testBit 0)
        order := if s.reg .aOrder = 0 then .msbFirst else .lsbFirst
        freq := s.reg .aSpeed } := by
  have hcpol : (modeSelector (s.reg .aMode)).getLsbD 1 = (s.reg .aMode - 1).testBit 1 := by
    simp only [modeSelector, BitVec.getLsbD_ofNat]; rfl
  have hcpha : (modeSelector (s.reg .aMode)).getLsbD 0 = (s.reg .aMode - 1).testBit 0 := by
    simp only [modeSelector, BitVec.getLsbD_ofNat]; rfl
  simp only [constructContext, modeDecode, extractLsb_one, hcpol, hcpha, orderOfBit]

theorem constructContext_pinsExist {s : State}
    (h : ∀ r ∈ [RegName.aMosi, .aMiso, .aClk, .aCs], pinExists s.cfg (s.reg r) = true) (p : Pin)
    (hp : (constructContext s).hasPin p = true) : pinExists s.cfg p = true := by
  simp only [Context.hasPin, Bool.or_eq_true, beq_iff_eq] at hp
  rcases hp with ((rfl | rfl) | rfl) | rfl <;> exact h _ (by simp)

/-- The state a CONSTRUCT starts in, before its requests are put on the port. -/
def constructStart (s : State) : State :=
  goto .init { launch .construct s with ctx := s.ctx.set (s.reg .aBus) (constructContext s) }

/-- The state after its requests, in `INIT_ORDER`. -/
def constructed (s : State) : State :=
  (constructRequests s.cfg (constructContext s)).foldl afterPinOp (constructStart s)

section

variable {s : State} (hcfg : s.cfg.wf = true)
  (hne : pinsDiffer (s.reg .aMosi) (s.reg .aMiso) (s.reg .aClk) (s.reg .aCs) = true)
  (hpins : ∀ r ∈ [RegName.aMosi, .aMiso, .aClk, .aCs], pinExists s.cfg (s.reg r) = true)

include hcfg hne hpins

theorem constructRequests_ok : PinOpsOk (constructStart s) (constructRequests s.cfg (constructContext s)) :=
  initRequests_ok (c := constructContext s) (s := constructStart s) (pre := []) hcfg hne
    (constructContext_pinsExist hpins) rfl

/-- A launched CONSTRUCT whose pins exist runs to its end, under every admissible order. -/
theorem construct_leads (hs : Ready s) :
    Leads (issue (constructRequests s.cfg (constructContext s)) (constructStart s))
      (finish (issue [] (constructed s))) :=
  Initialising.leads ⟨hs.noReset, rfl, hs.noWait, hs.noAnswer, rfl⟩ (constructRequests_ok hcfg hne hpins)

theorem constructed_trace :
    (constructed s).trace = s.trace ++ s.cfg.initOrder.map (initEvent (constructContext s)) := by
  have hevents : (constructRequests s.cfg (constructContext s)).map servedEvent =
      s.cfg.initOrder.map (initEvent (constructContext s)) := by
    simp [constructRequests, initEvent_eq]
  rw [constructed, (constructRequests_ok hcfg hne hpins).trace, hevents]
  rfl

omit hpins

/-- Every operation of the initialisation has its effect at the end. -/
theorem constructed_dirOf {o : InitOp} {p : Pin} {d : Dir} (h : initRequest (constructContext s) o = .pindir p d) :
    (constructed s).dirOf p = some d :=
  dirOf_initRequests (c := constructContext s) hne _ ((Config.initOrder_of_wf hcfg).1 o) h

theorem constructed_outOf {o : InitOp} {p : Pin} {l : Level} (h : initRequest (constructContext s) o = .pinset p l) :
    (constructed s).outOf p = some l :=
  outOf_initRequests (c := constructContext s) hne _ ((Config.initOrder_of_wf hcfg).1 o) h

end

theorem constructed_dirOf_other {s : State} {p : Pin} (hp : (constructContext s).hasPin p = false) :
    (constructed s).dirOf p = s.dirOf p :=
  dirOf_afterPinOps_other (pindir_not_mem_initRequests hp _)

theorem constructed_outOf_other {s : State} {p : Pin} (hcs : p ≠ s.reg .aCs) (hclk : p ≠ s.reg .aClk) :
    (constructed s).outOf p = s.outOf p :=
  outOf_afterPinOps_other (pinset_not_mem_initRequests hcs hclk _)

theorem constructed_frame (s : State) :
    constructed s =
      { constructStart s with
        trace := (constructed s).trace
        dirs := (constructed s).dirs
        outs := (constructed s).outs } :=
  afterPinOps_frame _ _

theorem constructed_fields (s : State) :
    (constructed s).ctx = s.ctx.set (s.reg .aBus) (constructContext s) ∧ (constructed s).err = .ok ∧
    (constructed s).buf = s.buf ∧ (constructed s).x = s.x ∧ (constructed s).hostQueue = s.hostQueue := by
  rw [constructed_frame]
  exact ⟨rfl, rfl, rfl, rfl, rfl⟩

/-- Settles O22: no refusal meets the launch nor any of the six requests, whatever their order; each leaves its effect
to the end because the four pins are different. -/
theorem constructCompletes : Obligations.ConstructCompletes := by
  intro s hs hcfg hlen hx hb hm1 hm4 hf1 hfm hne hpins
  have hlaunch := execConstruct_runs hs.notBusy (constructRefusal_clear hx hb hm1 hm4 hf1 hfm hne)
  obtain ⟨hctx, herr, hbuf, hregs, hqueue⟩ := constructed_fields s
  have hdiffer := hne
  simp only [pinsDiffer, Bool.and_eq_true, bne_iff_ne] at hdiffer
  obtain ⟨⟨⟨⟨⟨-, hclk⟩, hcs⟩, -⟩, -⟩, -⟩ := hdiffer
  refine ⟨constructContext s, _, finish (issue [] (constructed s)), constructContext_eq s, hlaunch, rfl,
    construct_leads hcfg hne hpins hs, ?_, fun b hb => ?_, ?_, constructed_trace hcfg hne hpins, ?_, ?_, ?_, ?_, ?_, ?_,
    ?_, fun p hp => ⟨?_, ?_⟩, rfl, herr, rfl, hbuf, hregs, hqueue⟩
  · rw [finish_ctx, issue_ctx, hctx, List.getElem?_set_self (hlen ▸ hb)]
  · rw [finish_ctx, issue_ctx, hctx, List.getElem?_set_ne hb.symm]
  · rw [finish_ctx, issue_ctx, hctx, List.length_set]
  · exact constructed_dirOf (o := .mosiDir) hcfg hne rfl
  · exact constructed_dirOf (o := .misoDir) hcfg hne rfl
  · exact constructed_dirOf (o := .clkDir) hcfg hne rfl
  · exact constructed_dirOf (o := .csDir) hcfg hne rfl
  · exact constructed_outOf (o := .csHigh) hcfg hne rfl
  · exact constructed_outOf (o := .clkIdle) hcfg hne rfl
  · exact constructed_outOf_other hcs hclk
  · exact constructed_dirOf_other hp
  · simp only [Context.hasPin, Bool.or_eq_false_iff, beq_eq_false_iff_ne] at hp
    exact constructed_outOf_other hp.2 hp.1.2

/-! DERIVE. -/

/-- The state a DERIVE starts in, before its requests are put on the port. -/
def deriveStart (src : Context) (s : State) : State :=
  goto .init { launch .derive s with ctx := s.ctx.set (s.reg .aBus) (deriveContext src (s.reg .aCs)) }

theorem deriveRequests_ok {s : State} {cs : Pin} (h : pinExists s.cfg cs = true) : PinOpsOk s (deriveRequests cs) :=
  ⟨h, ⟨h, by simp [afterPinOp]⟩, trivial⟩

/-- A launched DERIVE whose chip-select exists runs to its end. -/
theorem derive_leads {s : State} (src : Context) (hs : Ready s) (hp : pinExists s.cfg (s.reg .aCs) = true) :
    Leads (issue (deriveRequests (s.reg .aCs)) (deriveStart src s))
      (finish (issue [] ((deriveRequests (s.reg .aCs)).foldl afterPinOp (deriveStart src s)))) :=
  Initialising.leads ⟨hs.noReset, rfl, hs.noWait, hs.noAnswer, rfl⟩ (deriveRequests_ok hp)

/-- Settles O24: the launch writes the copy, and its two requests touch the new chip-select only. -/
theorem deriveCompletes : Obligations.DeriveCompletes := by
  intro s src hs hlen hx hb hsrc hne hc hv hpin hp
  have hother : ∀ b, b ≠ s.reg .aBus → (deriveStart src s).ctx[b]? = s.ctx[b]? := fun b hb =>
    List.getElem?_set_ne hb.symm
  refine ⟨_, _, execDerive_runs hs.notBusy (deriveRefusal_clear hx hb hsrc hne hc hv hpin) hc, rfl,
    derive_leads src hs hp, ?_, (hother _ hne.symm).trans hc, hother, ?_, ?_, ?_, fun p hne => ⟨?_, ?_⟩, rfl, rfl, rfl,
    rfl, rfl, rfl⟩
  · exact List.getElem?_set_self (hlen ▸ hb)
  · exact (deriveRequests_ok (s := deriveStart src s) hp).trace
  · simp [deriveRequests, afterPinOp]
  · simp [deriveRequests, afterPinOp]
  · exact dirOf_afterPinOps_other (by simp [deriveRequests, hne])
  · exact outOf_afterPinOps_other (by simp [deriveRequests, hne])

end Sys2Proof.Machine
end

section
/-! PROOFS, the hold always lifts: a running transaction comes nearer to its end with every step, and the six commands
reach theirs. -/

namespace Sys2Proof.Machine

theorem Leads.holdLifts {s u : State} (h : Leads s u) (hb : u.busy = false) (hq : u.seq.phase = .idle) :
    HoldLifts s := by
  obtain ⟨k, hk⟩ := h
  exact ⟨k, u, hk, hb, hq⟩

theorem HoldLifts.of_step {s t : State} (h : step s = .next t) (ht : HoldLifts t) : HoldLifts s := by
  obtain ⟨k, u, hk, hu⟩ := ht
  exact ⟨k + 1, u, runFor_cons h hk, hu⟩

/-! How far a transaction is from its end. -/

/-- The bits after the one at a position, in a transaction of `n` bytes. -/
def Seq.bitsAfter (n : Nat) (q : Seq) : Nat := 8 * (n - 1 - q.byteIdx) + (7 - q.bitIdx.val)

/-- How many phases come after a position of a transaction of `n` bytes (`42_write.md` R91), a bit having eight. -/
def Seq.phasesAfter (n : Nat) (q : Seq) : Nat :=
  match q.phase with
  | .preMosi => 64 * n + 7
  | .preClk => 64 * n + 6
  | .preWait => 64 * n + 5
  | .csLow => 64 * n + 4
  | .aWait => 8 * q.bitsAfter n + 11
  | .aAct => 8 * q.bitsAfter n + 10
  | .bWait => 8 * q.bitsAfter n + 9
  | .bAct => 8 * q.bitsAfter n + 8
  | .cWait => 8 * q.bitsAfter n + 7
  | .cAct => 8 * q.bitsAfter n + 6
  | .dWait => 8 * q.bitsAfter n + 5
  | .dAct => 8 * q.bitsAfter n + 4
  | .postWait => 3
  | .csHigh => 2
  | .guardWait => 1
  | .abortCs | .idle | .init | .dly => 0

/-- The phases a transaction still has to go through. -/
def State.phasesLeft (s : State) : Nat := s.seq.phasesAfter s.tSize

/-- What is left to do in a phase: two steps for each request, which may have an answer to take, and one for an answer that
stands. -/
def State.pending (s : State) : Nat := 2 * s.port.length + if s.answer = none then 0 else 1

theorem phasesAfter_pos {n : Nat} {q : Seq} (hq : q.phase.inTransfer = true) (hne : q.phase ≠ .abortCs) :
    0 < q.phasesAfter n := by
  cases hp : q.phase <;> simp [hp, Phase.inTransfer, Seq.phasesAfter] at hq hne ⊢

theorem phasesAfter_next {n : Nat} {q : Seq} {ph : Phase} (h : q.phase.next = some ph) :
    ({ q with phase := ph } : Seq).phasesAfter n < q.phasesAfter n := by
  cases hp : q.phase <;> simp only [hp, Phase.next, reduceCtorEq, Option.some.injEq] at h <;> subst h <;>
    simp [Seq.phasesAfter, Seq.bitsAfter, hp]

theorem enter_phasesLeft {q : Seq} {s t : State} (h : enter q s = .next t) :
    t.phasesLeft = q.phasesAfter s.tSize := by
  obtain ⟨c, -, rfl⟩ := enter_next h
  rfl

theorem startByte_phasesLeft {i : Nat} {s t : State} (h : startByte i s = .next t) :
    t.phasesLeft = 64 * (s.tSize - 1 - i) + 67 := by
  obtain ⟨c, b, -, -, -, rfl⟩ := startByte_next h
  simp [State.phasesLeft, Seq.phasesAfter, Seq.bitsAfter]
  omega

/-- After a bit comes the next one, the next byte or the closing, each nearer to the end. -/
theorem nextBit_nearer {s t : State} (h : nextBit s = .next t) (hp : s.seq.phase = .dAct) :
    t.phasesLeft < s.phasesLeft := by
  have hleft : s.phasesLeft = 8 * (8 * (s.tSize - 1 - s.seq.byteIdx) + (7 - s.seq.bitIdx.val)) + 4 := by
    simp only [State.phasesLeft, Seq.phasesAfter, hp, Seq.bitsAfter]
  unfold nextBit at h
  split at h
  · rw [enter_phasesLeft h, hleft]
    simp only [Seq.phasesAfter, Seq.bitsAfter]
    omega
  · obtain ⟨u, hu, h⟩ := andThen_eq_next h
    have hsize : u.tSize = s.tSize ∧ u.seq = s.seq := by
      unfold storeByte at hu
      split at hu
      · obtain ⟨-, rfl⟩ := storeBuf_next hu
        exact ⟨rfl, rfl⟩
      · cases hu
        exact ⟨rfl, rfl⟩
    obtain ⟨hn, hq⟩ := hsize
    unfold nextByte at h
    split at h
    · next hlt =>
      rw [hn, hq] at hlt
      rw [startByte_phasesLeft h, hleft, hn, hq]
      omega
    · rw [enter_phasesLeft h, hleft]
      simp [Seq.phasesAfter]

theorem advance_nearer {s t : State} (h : advance s = .next t) (hb : t.busy = true) : t.phasesLeft < s.phasesLeft := by
  cases hnext : s.seq.phase.next with
  | some ph =>
    rw [advance_of_next hnext] at h
    rw [enter_phasesLeft h]
    exact phasesAfter_next hnext
  | none =>
    cases hp : s.seq.phase <;> simp only [hp, Phase.next, reduceCtorEq] at hnext <;> simp only [advance, hp] at h
    case idle => cases h
    case init | dly | guardWait | abortCs => cases h; cases hb
    case dAct => exact nextBit_nearer h hp
    case csLow =>
      have hleft : s.phasesLeft = 64 * s.tSize + 4 := by simp only [State.phasesLeft, Seq.phasesAfter, hp]
      split at h
      · rw [startByte_phasesLeft h, hleft]
        omega
      · rw [enter_phasesLeft h, hleft]
        simp [Seq.phasesAfter]

/-! The step of a running transaction. -/

/-- A state is nearer to the end than another: in a phase with fewer after it, or in one with as many and less left to
do. -/
def Nearer (t s : State) : Prop :=
  t.phasesLeft < s.phasesLeft ∨ t.phasesLeft = s.phasesLeft ∧ t.pending < s.pending

theorem Nearer.of_request {s t : State} {w : Nat} {rest : List Nat} (hq : t.seq = s.seq) (hn : t.tSize = s.tSize)
    (hs : s.port = w :: rest) (ht : t.port = rest) : Nearer t s := by
  refine .inr ⟨by rw [State.phasesLeft, hq, hn, State.phasesLeft], ?_⟩
  rw [State.pending, State.pending, hs, ht, List.length_cons]
  split <;> omega

section

variable {c : Context} {s t : State}

/-- A request that is carried out is one less; a wait that fails begins the abort, in which there is no wait. -/
theorem TransferRunning.request_nearer (hs : TransferRunning c s) {w : Nat} {rest : List Nat} {i : Instr}
    (hp : s.port = w :: rest) (hd : decode .req w = .ok i) (h : exec i { s with port := rest } = .next t)
    (hb : t.busy = true) : Nearer t s := by
  by_cases habort : s.seq.phase = .abortCs
  · obtain ⟨j, hj, rfl, -⟩ := hs.port_cons hp
    rw [transferRow, if_pos habort, List.mem_singleton] at hj
    subst hj
    obtain rfl := Except.ok.inj ((decode_pinset c.cs high).symm.trans hd)
    obtain ⟨-, -, rfl⟩ := execPinSet_next h
    exact .of_request rfl rfl hp rfl
  · obtain ⟨-, -, -, -, -, -, -, -, hn, -, -, -, ⟨-, hq, -, hport, -⟩ | ⟨-, -, -, hend⟩⟩ :=
      micro_changes (decode_req_format hd) h
    · exact .of_request hq hn hp hport
    · have hzero : t.phasesLeft = 0 := by
        have hphase : t.seq.phase = .abortCs := by
          rcases hend with ⟨hfree, -⟩ | ⟨-, -, hphase, -⟩
          · simp [hb] at hfree
          · exact hphase
        simp only [State.phasesLeft, Seq.phasesAfter, hphase]
      exact .inl (hzero ▸ phasesAfter_pos hs.phase habort)

theorem TransferRunning.step_nearer (hs : TransferRunning c s) (h : step s = .next t) (hb : t.busy = true) :
    Nearer t s := by
  rcases step_busy_next hs.noReset hs.busy h with ⟨⟨r, he⟩, -⟩ | ⟨-, l, ha, h⟩ | ⟨-, -, w, rest, i, hp, hd, h⟩ |
    ⟨-, -, -, h⟩
  · simp [hs.noWait] at he
  · obtain ⟨d, b, -, -, -, rfl⟩ := takeAnswer_next h
    exact .inr ⟨rfl, by simp [State.pending, ha]⟩
  · exact hs.request_nearer hp hd h hb
  · exact .inl (advance_nearer h hb)

/-- A running transaction ends, because it never stops and each of its steps brings it nearer to its end. -/
theorem TransferRunning.holdLifts {s : State} (hs : TransferRunning c s) : HoldLifts s := by
  obtain ⟨t, hstep, ht | ⟨hb, hq⟩, -⟩ := runningTransferNeverStops s c hs
  · have hnearer := hs.step_nearer hstep ht.busy
    exact .of_step hstep ht.holdLifts
  · exact (Leads.step hstep).holdLifts hb hq
termination_by (s.phasesLeft, s.pending)
decreasing_by exact Prod.lex_def.2 hnearer

end

/-! The six commands. -/

theorem TransferReady.holdLifts {s t : State} {c : Context} (h : TransferReady c s)
    (ht : exec .write s = .next t ∨ exec .read s = .next t) : HoldLifts t := by
  obtain ⟨hwrite, hread⟩ := launchBeginsARunningTransfer s c h
  rcases ht with ht | ht
  · obtain ⟨-, -, hm, -⟩ := execWrite_next ht
    obtain ⟨u, hu, hrun⟩ := hwrite hm
    obtain rfl := Host.Outcome.next.inj (hu.symm.trans ht)
    exact hrun.holdLifts
  · obtain ⟨-, -, hl, -⟩ := execRead_next ht
    obtain ⟨u, hu, hrun⟩ := hread hl
    obtain rfl := Host.Outcome.next.inj (hu.symm.trans ht)
    exact hrun.holdLifts

theorem waitns_holdLifts {s t : State} (hs : Ready s) (h : exec .waitns s = .next t) (hd : s.reg .aDur < 2 ^ durW) :
    HoldLifts t := by
  obtain ⟨-, hw, -⟩ := execWaitNs_next h
  obtain ⟨t', u, hlaunch, -, -, hleads, -, hb, hq, -⟩ := waitNsCompletes s hs (by simpa [Holds] using hw) hd
  obtain rfl := Host.Outcome.next.inj (hlaunch.symm.trans h)
  exact hleads.holdLifts hb hq

theorem waitms_holdLifts {s t : State} (hs : Ready s) (h : exec .waitms s = .next t) : HoldLifts t := by
  obtain ⟨-, hw, hd, -⟩ := execWaitMs_next h
  obtain ⟨hruns, -⟩ := waitMsCompletes s hs (by simpa [Holds] using hw)
  obtain ⟨t', u, req, hlaunch, -, -, -, -, -, hleads, -, hb, hq, -⟩ := hruns hd
  obtain rfl := Host.Outcome.next.inj (hlaunch.symm.trans h)
  exact hleads.holdLifts hb hq

/-- Settles O51: a running transaction ends, and each of the six launches begins a run that is known to end. -/
theorem theHoldAlwaysLifts : Obligations.TheHoldAlwaysLifts := by
  refine ⟨fun s c hs => hs.holdLifts, fun s t hs hcfg _ => ⟨fun h hpins => ?_, fun h hp => ?_, fun c hc h => ?_,
    fun h hd => ?_, fun h => ?_⟩⟩
  · obtain ⟨-, hr, rfl⟩ := execConstruct_next h
    obtain ⟨-, -, -, -, -, -, hne⟩ := constructRefusal_none hr
    exact (construct_leads hcfg hne hpins hs).holdLifts rfl rfl
  · obtain ⟨-, -, src, -, rfl⟩ := execDerive_next h
    exact (derive_leads src hs hp).holdLifts rfl rfl
  · exact hc.holdLifts h
  · exact waitns_holdLifts hs h hd
  · exact waitms_holdLifts hs h

end Sys2Proof.Machine
end

section
/-! PROOFS, TimingError: a WAIT that fails under SLEEP ends WAITNS at once and aborts a WRITE or READ, and chip-select
is high whenever a transaction is over. -/

namespace Sys2Proof.Machine

/-! A WAIT under SLEEP that fails. -/

/-- What a WAIT under SLEEP records and takes from the environment, before its outcome settles (`41_delay_engine.md`
R69, R75). -/
def afterSleep (d : Nat) (s : State) : State :=
  { s with
    engine := none
    trace := s.trace ++ [.wait d (drawOutcome s).1]
    engineLog := s.engineLog ++ [(waitRequest s.cfg d, (drawOutcome s).1)]
    outcomesIn := (drawOutcome s).2.outcomesIn
    draws := (drawOutcome s).2.draws }

theorem exec_wait_sleep {s : State} (d : Nat) (hs : s.cfg.strategy = .sleep) :
    exec (.wait d) s = settleWait (drawOutcome s).1 (afterSleep d s) := by
  rw [afterSleep, ← engineOutcome_drawn hs]
  exact execWait_settles d s

/-- Settles O19: outside a transaction TimingError ends the command with its kind (`60_exceptions.md` R126). -/
theorem failedWaitEndsWaitNs : Obligations.FailedWaitEndsWaitNs := by
  intro s d k hin hs hk hne
  subst hk
  have hend := (exec_wait_sleep d hs).trans (settleWait_other hne (s := afterSleep d s) hin)
  exact ⟨_, hend, rfl, rfl, rfl, rfl, rfl, rfl, rfl⟩

/-- The first state of an abort with kind `k`: the deassertion of chip-select is its only request (`60_exceptions.md`
R125). -/
def abortStart (c : Context) (k : WaitOutcome) (s : State) : State :=
  issue [.pinset c.cs high] (goto .abortCs { s with abortKind := k })

/-- The end of that abort: chip-select is driven high and ERR holds the kind. -/
def abortEnd (c : Context) (k : WaitOutcome) (s : State) : State :=
  finishWithError k (emit (.pinSet c.cs high) (setOut c.cs high (issue [] (abortStart c k s))))

theorem abortStart_leads {s : State} {c : Context} (k : WaitOutcome) (hr : s.resetLine = false) (hb : s.busy = true)
    (he : s.engine = none) (ha : s.answer = none) (hpin : pinExists s.cfg c.cs = true)
    (hdir : s.dirOf c.cs = some .output) : Leads (abortStart c k s) (abortEnd c k s) :=
  ⟨2, abort_runs hr hb he ha rfl rfl hpin hdir⟩

/-- Settles O18: in a transaction TimingError begins the abort, whose two steps deassert chip-select and end the command
(`60_exceptions.md` R125). -/
theorem failedWaitAbortsTheTransaction : Obligations.FailedWaitAbortsTheTransaction := by
  intro s c d k hin hr ha hc hpin hdir hs hk hne
  subst hk
  have hb : s.busy = true := (inTransaction_iff.1 hin).1
  have hfail : exec (.wait d) s = .next (abortStart c (drawOutcome s).1 (afterSleep d s)) :=
    (exec_wait_sleep d hs).trans (settleWait_transaction hne hin hc)
  have hleads := abortStart_leads (s := afterSleep d s) (drawOutcome s).1 hr hb rfl ha hpin hdir
  refine ⟨_, _, hfail, rfl, hb, rfl, hleads, ?_, rfl, rfl, rfl, rfl, rfl, ?_, fun q hq => ?_, ?_⟩
  · exact List.append_assoc s.trace [_] [_]
  · exact setOut_outOf_self c.cs high _
  · exact setOut_outOf_other high _ hq
  · simp [abortEnd, abortStart, afterSleep]

/-! Chip-select at the end of a transaction. -/

/-- The phases that deassert chip-select or come after its deassertion (`42_write.md` R83, `60_exceptions.md` R125). -/
def Phase.closing : Phase → Bool
  | .csHigh | .guardWait | .abortCs => true
  | .idle | .init | .dly | .preMosi | .preClk | .preWait | .csLow | .aWait | .aAct | .bWait | .bAct | .cWait | .cAct
  | .dWait | .dAct | .postWait => false

/-- Chip-select is high, or its deassertion stands on the port. -/
def Deasserting (c : Context) (s : State) : Prop :=
  s.outOf c.cs = some high ∨ encode (.pinset c.cs high) ∈ s.port

/-- Chip-select is being deasserted from the closing phases on, and is high when BUSY is 0. -/
structure CsReleased (c : Context) (s : State) : Prop where
  closing : s.busy = true → s.seq.phase.closing = true → Deasserting c s
  idle : s.busy = false → s.outOf c.cs = some high

section

variable {c : Context} {s t : State}

theorem CsReleased.of_busy (hb : t.busy = true) (h : t.seq.phase.closing = true → Deasserting c t) :
    CsReleased c t :=
  ⟨fun _ => h, fun hf => by simp [hb] at hf⟩

theorem CsReleased.of_high (h : t.outOf c.cs = some high) : CsReleased c t := ⟨fun _ _ => .inl h, fun _ => h⟩

/-- A closing phase with no request left on the port has driven chip-select high. -/
theorem CsReleased.high_of_port (hs : CsReleased c s) (hb : s.busy = true) (hp : s.port = [])
    (hq : s.seq.phase.closing = true) : s.outOf c.cs = some high :=
  (hs.closing hb hq).resolve_right (by simp [hp])

/-! Requests. -/

/-- The closing phases only wait and drive chip-select high. -/
theorem transferRow_of_closing {i : Instr} (hq : s.seq.phase.closing = true) (hi : i ∈ transferRow c s) :
    i = .pinset c.cs high ∨ i = .wait (4 * busTime c) := by
  cases hp : s.seq.phase <;> simp only [hp, Phase.closing, Bool.false_eq_true] at hq
  all_goals simp [transferRow, rowOf, readRow, writeRow, hp] at hi
  case csHigh | abortCs => exact .inl hi
  case guardWait => exact .inr hi

/-- A WAIT of a transaction moves no pin; it leaves the sequencer and the port alone, or begins the abort with the
deassertion on the port. -/
theorem TransferRunning.wait_next {d : Nat} (hs : TransferRunning c s) (h : exec (.wait d) s = .next t) :
    t.busy = true ∧ t.outs = s.outs ∧
      (t.seq = s.seq ∧ t.port = s.port ∨ encode (.pinset c.cs high) ∈ t.port) := by
  rcases execWait_next h with ⟨-, rfl⟩ | ⟨-, h⟩
  · simp [hs.busy]
  · rcases takeTimingError_next h with ⟨-, c', hc, rfl⟩ | ⟨hin, -⟩
    · obtain rfl : c' = c := by simpa [hs.context] using hc.symm
      simp [hs.busy]
    · exact absurd hs.running (by simpa [State.inTransaction] using hin)

theorem TransferRunning.decode_request (hs : TransferRunning c s) (ha : s.answer = none) {i : Instr}
    (hi : i ∈ transferRow c s) : decode .req (encode i) = .ok i := by
  rcases transferRow_servable hs ha hi with ⟨rfl, -⟩ | hok
  · exact decode_pinget _
  · exact decode_servable hok

theorem encode_pinset_ne_wait {d : Nat} (p : Pin) (l : Level) (hd : d < 2 ^ durW) :
    encode (.pinset p l) ≠ encode (.wait d) := by
  intro h
  have hdec := (decode_pinset p l).symm.trans ((congrArg (decode .req) h).trans (decode_wait hd))
  simp at hdec

/-- A request of the transaction is carried out: in a closing phase it is the deassertion or a WAIT, and in any phase a
WAIT that fails puts the deassertion on the port. -/
theorem TransferRunning.exec_csReleased {i : Instr} {rest : List Nat}
    (hs : TransferRunning c { s with port := rest }) (hcs : CsReleased c s) (hp : s.port = encode i :: rest)
    (hmem : i ∈ transferRow c s) (hok : (i = .pinget c.miso ∧ s.tOp = .read) ∨ Servable s i)
    (h : exec i { s with port := rest } = .next t) : CsReleased c t := by
  have hb : s.busy = true := hs.busy
  rcases hok with ⟨rfl, -⟩ | hok
  · obtain ⟨-, -, -, rfl⟩ := execPinGet_next h
    refine .of_busy (by simpa using hb) fun hq => ?_
    simpa using transferRow_of_closing (by simpa using hq) hmem
  · cases i with
    | pinset p l =>
      obtain ⟨-, -, rfl⟩ := execPinSet_next h
      refine .of_busy hb fun hq => .inl ?_
      obtain ⟨rfl, rfl⟩ : p = c.cs ∧ l = high := by simpa using transferRow_of_closing hq hmem
      exact setOut_outOf_self ..
    | wait d =>
      obtain ⟨hb', hout, ⟨hseq, hport⟩ | habort⟩ := hs.wait_next h
      · refine .of_busy hb' fun hq => ?_
        rcases hcs.closing hb (hseq ▸ hq) with hhigh | hreq
        · exact .inl ((congrArg (assocGet c.cs) hout).trans hhigh)
        · rw [hp, List.mem_cons] at hreq
          exact .inr (hport ▸ hreq.resolve_left (encode_pinset_ne_wait _ _ hok))
      · exact .of_busy hb' fun _ => .inr habort
    | _ => exact hok.elim

/-! The step to the next phase. -/

theorem nextBit_phase (h : nextBit s = .next t) : t.seq.phase = .aWait ∨ t.seq.phase = .postWait := by
  unfold nextBit at h
  split at h
  · obtain ⟨c, -, rfl⟩ := enter_next h
    exact .inl rfl
  · obtain ⟨u, -, h⟩ := andThen_eq_next h
    unfold nextByte at h
    split at h
    · obtain ⟨c, b, -, -, -, rfl⟩ := startByte_next h
      exact .inl rfl
    · obtain ⟨c, -, rfl⟩ := enter_next h
      exact .inr rfl

/-- The guard wait comes after CS_HIGH only (`42_write.md` R91). -/
theorem advance_guardWait (h : advance s = .next t) (hq : t.seq.phase = .guardWait) : s.seq.phase = .csHigh := by
  cases hp : s.seq.phase <;> simp only [advance, hp] at h
  case csHigh => rfl
  case idle => cases h
  case init | dly | guardWait | abortCs => cases h; cases hq
  case dAct => rcases nextBit_phase h with hq' | hq' <;> simp [hq] at hq'
  case csLow =>
    split at h
    · obtain ⟨c, b, -, -, -, rfl⟩ := startByte_next h
      cases hq
    · obtain ⟨c, -, rfl⟩ := enter_next h
      cases hq
  all_goals
    obtain ⟨c, -, rfl⟩ := enter_next h
    cases hq

/-- CS_HIGH is entered with the deassertion on the port; it and ABORT_CS are left, and the guard wait ends the
command, with chip-select high. -/
theorem TransferRunning.advance_csReleased (hs : TransferRunning c s) (hcs : CsReleased c s) (hp : s.port = [])
    (h : advance s = .next t) : CsReleased c t := by
  have hhigh := hcs.high_of_port hs.busy hp
  have htransfer := hs.phase
  rcases advance_next h with ⟨hq | hq | hq, rfl⟩ | ⟨hq, rfl⟩ | ⟨c', q, b, m, hc, -, hne, -, rfl⟩
  · simp [hq, Phase.inTransfer] at htransfer
  · simp [hq, Phase.inTransfer] at htransfer
  · exact .of_high (hhigh (by rw [hq]; rfl))
  · exact .of_high (hhigh (by rw [hq]; rfl))
  · obtain rfl : c' = c := by simpa [hs.context] using hc.symm
    refine .of_busy hs.busy fun hclosing => ?_
    cases hq : q.phase <;> simp [hq, Phase.closing] at hclosing hne
    case csHigh => exact .inr (by simp [rowOf, readRow, writeRow, hq])
    case guardWait => exact .inl (hhigh (by rw [advance_guardWait h hq]; rfl))

/-! The run. -/

theorem TransferRunning.step_csReleased (hs : TransferRunning c s) (hcs : CsReleased c s) (h : step s = .next t) :
    CsReleased c t ∧ t.resetLine = false := by
  rcases step_busy_next hs.noReset hs.busy h with ⟨⟨r, he⟩, -⟩ | ⟨-, l, -, h⟩ | ⟨-, ha, w, rest, i, hp, hd, h⟩ |
    ⟨-, -, hp, h⟩
  · simp [hs.noWait] at he
  · obtain ⟨c', b, -, -, -, rfl⟩ := takeAnswer_next h
    exact ⟨⟨hcs.closing, hcs.idle⟩, hs.noReset⟩
  · obtain ⟨-, -, -, -, -, -, -, -, -, hr, -⟩ := micro_changes (decode_req_format hd) h
    obtain ⟨j, hj, rfl, hrest⟩ := hs.port_cons hp
    obtain rfl := Except.ok.inj ((hs.decode_request ha hj).symm.trans hd)
    exact ⟨hrest.exec_csReleased hcs hp hj (transferRow_servable hs ha hj) h, hr.trans hs.noReset⟩
  · obtain ⟨-, -, -, -, -, -, -, -, -, -, hr, -⟩ := advance_changes h
    exact ⟨hs.advance_csReleased hcs hp h, hr.trans hs.noReset⟩

end

/-- What a run of a transaction keeps, to its end and after it, when the host does nothing further. -/
structure KeepsCs (c : Context) (s : State) : Prop where
  noReset : s.resetLine = false
  noHost : s.hostQueue = []
  output : s.dirOf c.cs = some .output
  running : s.busy = true → TransferRunning c s
  released : CsReleased c s

theorem KeepsCs.of_step {c : Context} (s t : State) (hs : KeepsCs c s) (h : step s = .next t) : KeepsCs c t := by
  cases hb : s.busy with
  | false =>
    obtain rfl := Host.Outcome.next.inj ((step_rest hs.noReset hb hs.noHost).symm.trans h)
    exact hs
  | true =>
    have hrun := hs.running hb
    obtain ⟨t', hstep, hend, -, hdirs, -⟩ := runningTransferNeverStops s c hrun
    obtain rfl := Host.Outcome.next.inj (hstep.symm.trans h)
    obtain ⟨hcs, hr⟩ := hrun.step_csReleased hs.released h
    obtain ⟨hqueue, -⟩ := theHostIsHeldWhileBusy s t' hb h
    exact ⟨hr, hqueue.trans hs.noHost, (congrArg (assocGet c.cs) hdirs).trans hs.output,
      fun hb' => hend.resolve_right (by simp [hb']), hcs⟩

/-- The launch of a WRITE or READ answers the transaction's first state, in which it runs. -/
theorem TransferReady.launched {s t : State} {c : Context} (h : TransferReady c s)
    (ht : exec .write s = .next t ∨ exec .read s = .next t) :
    ∃ op, t = transferStart op c s ∧ TransferRunning c t := by
  rcases ht with ht | ht
  · obtain ⟨-, -, hm, -⟩ := execWrite_next ht
    obtain rfl := Host.Outcome.next.inj ((h.exec_write hm).symm.trans ht)
    exact ⟨_, rfl, h.transferStart_running (.inl rfl) nofun fun _ => hm⟩
  · obtain ⟨-, -, hl, -⟩ := execRead_next ht
    obtain rfl := Host.Outcome.next.inj ((h.exec_read hl).symm.trans ht)
    exact ⟨_, rfl, h.transferStart_running (.inr rfl) (fun _ => hl) nofun⟩

/-- Settles O52: the launch stands before the closing phases, and every step after it, an abort's among them, keeps
`KeepsCs`. -/
theorem chipSelectIsReleasedOnEveryExit : Obligations.ChipSelectIsReleasedOnEveryExit := by
  intro s t u c hs hq ht hrun hb
  obtain ⟨op, rfl, hrunning⟩ := hs.launched ht
  have hstart : KeepsCs c (transferStart op c s) :=
    ⟨hs.ready.noReset, hq, hs.pins.cs.2, fun _ => hrunning, .of_busy rfl nofun⟩
  have hu := hrun.keeps KeepsCs.of_step hstart
  have hhigh := hu.released.idle hb
  exact ⟨hhigh, (if_pos hu.output).trans hhigh⟩

end Sys2Proof.Machine
end

section
/-! PROOFS, the reset input: what a step is while it is asserted. -/

namespace Sys2Proof.Machine

/-- An asserted reset input goes before every other turn, with and without a command running. -/
theorem step_resetTurn {s : State} (hr : s.resetLine = true) : step s = resetTurn s := by
  simp only [step, nextTurn, hr, if_true]

theorem resetTurn_busy {s : State} (hb : s.busy = true) : resetTurn s = .refused .resetWhileBusy :=
  if_pos hb

theorem resetTurn_idle {s : State} (hb : s.busy = false) : resetTurn s = .next (resetNow s) :=
  if_neg (Bool.eq_false_iff.mp hb)

/-- Settles O37: the step is the reset turn, which BUSY refuses and which otherwise answers `resetNow`. -/
theorem resetInputOnlyWhenIdle : Obligations.ResetInputOnlyWhenIdle := by
  intro s hr
  constructor
  · intro hb
    exact (step_resetTurn hr).trans (resetTurn_busy hb)
  · intro hb
    exact ⟨resetNow s, (step_resetTurn hr).trans (resetTurn_idle hb), rfl, rfl, rfl⟩

end Sys2Proof.Machine
end
